-- ==== Sys2Proof/Word.lean ====
section
/-! DEFINITION. Word.lean: the widths the spec fixes (00_scope.md R7, 30_encoding.md R71). -/

namespace Sys2Proof

/-- Eight bits: a character of a name, a byte of the bit accumulator. -/
abbrev Byte := BitVec 8

/-- One 32-bit word of a command or response frame; an address, a command (R7, R71). -/
abbrev Word := BitVec 32

/-- An unsigned number of microseconds, 32 bits (R7, R91). -/
abbrev Duration := BitVec 32

/-- A protocol id, 8 bits (R7, R52). -/
abbrev Pid := BitVec 8

/-- One bit: `true` is a Mark (1), `false` a Space (0) (R7). -/
abbrev Level := Bool

/-- `PID_NONE = 0xFF`: no protocol; never registered (R7, R42). -/
def pidNone : Pid := 0xFF#8

/-- `MAX_TIMINGS = 6`: the capacity of the pending-timings buffer (R4). -/
def maxTimings : Nat := 6

end Sys2Proof
end

