-- ==== Sys2Proof/Syntax.lean ====
section
/-! DEFINITION. Syntax.lean: frames, messages and the seven commands of 30_encoding.md R70. -/

namespace Sys2Proof

/-- A 128-bit command or response frame as its four words: `w0` is bits 31..0 (R71, R75). -/
structure Frame where
  w0 : Word
  w1 : Word
  w2 : Word
  w3 : Word
deriving DecidableEq, Repr

/-- A Decoded Message (10_state.md R14): `protocol` a pid or `PID_NONE`, `rep` its repeat flag. -/
structure Message where
  protocol : Pid
  address : Word
  command : Word
  rep : Bool
deriving DecidableEq, Repr

/-- The seven commands with the operands of R72, and no others (R70). -/
inductive Instr where
  /-- `NOP` (R210). -/
  | nop
  /-- `DEC_RESET` (R191). -/
  | decReset
  /-- `DEC_SAMPLE level, duration` (R192). -/
  | decSample (level : Level) (duration : Duration)
  /-- `ENC_LOAD protocol, address, command[, R]` (R196). -/
  | encLoad (protocol : Pid) (address : Word) (command : Word) (rep : Bool)
  /-- `ENC_STEP` (R198). -/
  | encStep
  /-- `INFO pid, sel` (R211); `sel` is the raw selector byte, legal up to 4 (R72, R73). -/
  | info (pid : Pid) (sel : Byte)
  /-- `FIND_NAME` with the packed name in three words (R212, R48). -/
  | findName (n1 : Word) (n2 : Word) (n3 : Word)
deriving DecidableEq, Repr

end Sys2Proof
end

