-- ==== Sys2Proof/WellFormed.lean ====
section
/-! DEFINITION. WellFormed.lean: which commands have an encoding. The one condition on operands that the match and mask
pairs cannot express is the selector of `INFO` (30_encoding.md R72, R73). The well-formedness of a ROM row
(20_memory.md R45) is in Machine/Rom.lean. -/

namespace Sys2Proof

/-- The largest selector of `INFO` (R72: `sel` (0..4)). -/
def maxSelector : Byte := 4#8

/-- A command is well-formed when some legal frame encodes it (R72, R73). -/
def Instr.wf : Instr → Bool
  | .nop => true
  | .decReset => true
  | .decSample _ _ => true
  | .encLoad _ _ _ _ => true
  | .encStep => true
  | .info _ sel => decide (sel ≤ maxSelector)
  | .findName _ _ _ => true

end Sys2Proof
end

