-- ==== Sys2Proof/Decode.lean ====
section
/-! DEFINITION. Decode.lean: from a command frame to a command or a rejection by name (30_encoding.md R71 to R74), and the
encoder of the same tables. -/

namespace Sys2Proof

/-! ## Fields of a frame (R71) -/

/-- `W0[31:24]`. -/
def Frame.op (f : Frame) : Byte := f.w0.extractLsb' 24 8

/-- `W0[23:16]`. -/
def Frame.pid (f : Frame) : Pid := f.w0.extractLsb' 16 8

/-- `W0[15:8]`. -/
def Frame.sel (f : Frame) : Byte := f.w0.extractLsb' 8 8

/-- `W0[0]`. -/
def Frame.flag (f : Frame) : Bool := f.w0.getLsbD 0

/-- The first word from its fields, the reserved bits 7:1 zero (R71). -/
def packW0 (op pid sel : Byte) (flag : Bool) : Word := op ++ pid ++ sel ++ 0#7 ++ BitVec.ofBool flag

/-- The frame as the one number the opcode table numbers: bit 0 is `W0[0]` (R71, R72). -/
def Frame.bits (f : Frame) : BitVec 128 := f.w3 ++ f.w2 ++ f.w1 ++ f.w0

/-- The frame whose bits are those of `n`, bit 0 the least significant bit of `W0`. -/
def Frame.ofNat (n : Nat) : Frame :=
  { w0 := BitVec.ofNat 32 n
    w1 := BitVec.ofNat 32 (n >>> 32)
    w2 := BitVec.ofNat 32 (n >>> 64)
    w3 := BitVec.ofNat 32 (n >>> 96) }

/-! ## Match and mask (R72) -/

/-- A row of the match and mask table of R72. -/
structure Pattern where
  value : Frame
  mask : Frame
deriving DecidableEq, Repr

/-- `CF AND mask = match` (R72). -/
def Pattern.selects (p : Pattern) (f : Frame) : Bool :=
  f.w0 &&& p.mask.w0 == p.value.w0 && f.w1 &&& p.mask.w1 == p.value.w1
    && f.w2 &&& p.mask.w2 == p.value.w2 && f.w3 &&& p.mask.w3 == p.value.w3

/-- The pattern that fixes only an opcode's zero operands: `match` is the opcode in `W0[31:24]`. -/
def patternOf (op : Byte) (m0 m1 m2 m3 : Word) : Pattern :=
  { value := { w0 := op ++ 0#24, w1 := 0#32, w2 := 0#32, w3 := 0#32 }
    mask := { w0 := m0, w1 := m1, w2 := m2, w3 := m3 } }

def nopPattern : Pattern := patternOf 0x00#8 0xFFFFFFFF#32 0xFFFFFFFF#32 0xFFFFFFFF#32 0xFFFFFFFF#32
def decResetPattern : Pattern := patternOf 0x01#8 0xFFFFFFFF#32 0xFFFFFFFF#32 0xFFFFFFFF#32 0xFFFFFFFF#32
def decSamplePattern : Pattern := patternOf 0x02#8 0xFFFFFFFE#32 0x00000000#32 0xFFFFFFFF#32 0xFFFFFFFF#32
def encLoadPattern : Pattern := patternOf 0x03#8 0xFF00FFFE#32 0x00000000#32 0x00000000#32 0xFFFFFFFF#32
def encStepPattern : Pattern := patternOf 0x04#8 0xFFFFFFFF#32 0xFFFFFFFF#32 0xFFFFFFFF#32 0xFFFFFFFF#32
def infoPattern : Pattern := patternOf 0x05#8 0xFF0000FF#32 0xFFFFFFFF#32 0xFFFFFFFF#32 0xFFFFFFFF#32
def findNamePattern : Pattern := patternOf 0x06#8 0xFFFFFFFF#32 0x00000000#32 0x00000000#32 0x00000000#32

/-- The seven pairs, in the table's order (R72). -/
def patterns : List Pattern :=
  [nopPattern, decResetPattern, decSamplePattern, encLoadPattern, encStepPattern, infoPattern, findNamePattern]

/-! ## Decoding (R73, R74) -/

/-- Why a frame is illegal (R73, R74). All three are answered `ERR_ILLEGAL`. -/
inductive DecodeError where
  /-- An opcode above `0x06`. -/
  | unassignedOpcode
  /-- An assigned opcode with a non-zero must-be-zero field or word. -/
  | nonzeroField
  /-- `INFO` with a selector above 4. -/
  | badSelector
deriving DecidableEq, Repr

/-- Dispatch step (2) and (3) of R73: the command a frame selects, or why it is illegal. -/
def decode (f : Frame) : Except DecodeError Instr :=
  if nopPattern.selects f then .ok .nop
  else if decResetPattern.selects f then .ok .decReset
  else if decSamplePattern.selects f then .ok (.decSample f.flag f.w1)
  else if encLoadPattern.selects f then .ok (.encLoad f.pid f.w1 f.w2 f.flag)
  else if encStepPattern.selects f then .ok .encStep
  else if infoPattern.selects f then
    if f.sel ≤ maxSelector then .ok (.info f.pid f.sel) else .error .badSelector
  else if findNamePattern.selects f then .ok (.findName f.w1 f.w2 f.w3)
  else if f.op ≤ 0x06#8 then .error .nonzeroField
  else .error .unassignedOpcode

/-- The decoder on a row of spec/opcode_table.json: an instruction whose low `nbits` bits are those of `w`. -/
def decodeTableWord (nbits w : Nat) : Option Instr :=
  match decode (Frame.ofNat (w % 2 ^ nbits)) with
  | .ok i => some i
  | .error _ => none

/-! ## Encoding: formats Z, S, M, Q and N of R72 -/

/-- The opcode of a command (R70). -/
def Instr.opcode : Instr → Byte
  | .nop => 0x00#8
  | .decReset => 0x01#8
  | .decSample _ _ => 0x02#8
  | .encLoad _ _ _ _ => 0x03#8
  | .encStep => 0x04#8
  | .info _ _ => 0x05#8
  | .findName _ _ _ => 0x06#8

/-- The frame of a command (R72). -/
def encode : Instr → Frame
  | .nop => { w0 := packW0 0x00#8 0#8 0#8 false, w1 := 0#32, w2 := 0#32, w3 := 0#32 }
  | .decReset => { w0 := packW0 0x01#8 0#8 0#8 false, w1 := 0#32, w2 := 0#32, w3 := 0#32 }
  | .decSample level duration => { w0 := packW0 0x02#8 0#8 0#8 level, w1 := duration, w2 := 0#32, w3 := 0#32 }
  | .encLoad protocol address command rep =>
    { w0 := packW0 0x03#8 protocol 0#8 rep, w1 := address, w2 := command, w3 := 0#32 }
  | .encStep => { w0 := packW0 0x04#8 0#8 0#8 false, w1 := 0#32, w2 := 0#32, w3 := 0#32 }
  | .info pid sel => { w0 := packW0 0x05#8 pid sel false, w1 := 0#32, w2 := 0#32, w3 := 0#32 }
  | .findName n1 n2 n3 => { w0 := packW0 0x06#8 0#8 0#8 false, w1 := n1, w2 := n2, w3 := n3 }

end Sys2Proof
end

