-- ==== Sys2Proof/Config.lean ====
section
/-! DEFINITION. Config.lean: the form of the timing-spec ROM (20_memory.md R40, R41), which is the model's configuration
argument `P_ROM` (00_scope.md R5), and the free functions that stand for the adapters of extension rows (R6). The ROM
itself is a field of State that no step writes (notes/assumptions/1.md). -/

namespace Sys2Proof

/-- Which bit codec a row uses (R41). -/
inductive Codec where
  | pdwm
  | manchester
deriving DecidableEq, Repr

/-- Which interpret and pack functions a row uses (R41). `ext k` is adapter `k` of an extension row (R6, R146): its
functions are the opaque constants below. -/
inductive Layout where
  | nec
  | necExt
  | samsung32
  | rc6
  | ext (adapter : Nat)
deriving DecidableEq, Repr

/-- Whether a repeat element is matched with the relative or the absolute tolerance (R41, R126). -/
inductive RepKind where
  | rel
  | abs
deriving DecidableEq, Repr

/-- Element `i >= 1` of the repeat pattern: `rep_kind[i]` and `rep_t[i]` (R41). -/
structure RepElem where
  kind : RepKind
  nominal : Duration
deriving DecidableEq, Repr

/-- One ROM row (R41). `repTail` holds the elements 1.. of the repeat pattern, element `i` at place `i - 1`; element 0 is
the gap (`repGap`, `repGapMin`, `repGapMax`). -/
structure RomRow where
  name : List Byte
  preambleMark : Duration
  preambleSpace : Duration
  preambleTolPm : Nat
  bit1Mark : Duration
  bit1Space : Duration
  bit0Mark : Duration
  bit0Space : Duration
  bitTol : Duration
  silence : Duration
  databitLen : Nat
  carrierFreq : Word
  dutyCycle : Word
  addressLength : Word
  commandLength : Word
  codec : Codec
  layout : Layout
  bitUnit : Duration
  manInv : Bool
  dblIndex : Option Nat
  repLen : Nat
  repGap : Duration
  repGapMin : Duration
  repGapMax : Duration
  repTail : List RepElem
deriving DecidableEq, Repr

/-- The registry: row `p` is protocol id `p` (R42, R190). -/
abbrev Rom := List RomRow

/-- The interpret function of extension adapter `k` (R6, R140, R146): from the accumulated bits and the held message, the
address, command and repeat flag, or `none` for a failure. Nothing constrains it (DESIGN CHOICE, notes/assumptions/5.md;
safe). -/
opaque Config.extInterpret : (adapter : Nat) → (data : Nat) → (held : Message) → Option (Word × Word × Bool)

/-- The pack function of extension adapter `k` (R6, R149): the payload bits of an address and a command, cut to
`databit_len` bits by the caller. Nothing constrains it (DESIGN CHOICE, notes/assumptions/5.md; safe). -/
opaque Config.extPack : (adapter : Nat) → (address : Word) → (command : Word) → Nat

end Sys2Proof
end

