-- ==== Sys2Proof/Machine/Rom.lean ====
section
/-! DEFINITION. Rom.lean: when a ROM can be built (20_memory.md R45, R42, R43) and the reference ROM of R44. -/

namespace Sys2Proof.Machine

/-- `AbsDiff(a, b)` of 40_matchers_and_codecs.md R90; never wraps (R91). -/
def absDiff (a b : Nat) : Nat := if b ≤ a then a - b else b - a

/-! ## Well-formedness of a row (R45) -/

/-- The durations that only a row of this codec reads; the other codec's fields hold any value (R41, I12). -/
def codecDurations (r : RomRow) : List Duration :=
  match r.codec with
  | .pdwm => [r.bit1Mark, r.bit1Space, r.bit0Mark, r.bit0Space]
  | .manchester => [r.bitUnit]

/-- The durations of the repeat pattern. No rule exempts them on a row without one. -/
def repeatDurations (r : RomRow) : List Duration :=
  [r.repGap, r.repGapMin, r.repGapMax] ++ r.repTail.map RepElem.nominal

/-- Every duration of a row but the other codec's, for the bound of R45 (a) (DEDUCED, notes/assumptions/3.md; safe). -/
def rowDurations (r : RomRow) : List Duration :=
  [r.preambleMark, r.preambleSpace, r.bitTol, r.silence] ++ codecDurations r ++ repeatDurations r

/-- R45 (a). -/
def timingOk (r : RomRow) : Bool :=
  decide (0 < r.preambleMark.toNat) && decide (0 < r.preambleSpace.toNat)
    && decide (1 ≤ r.preambleTolPm) && decide (r.preambleTolPm ≤ 999)
    && decide (0 < r.bitTol.toNat) && decide (1 ≤ r.databitLen)
    && (rowDurations r).all (fun d => decide (d.toNat < 2 ^ 31))

/-- R45 (b): the 1 pair and the 0 pair of a PDWM row cannot both match one input. -/
def pdwmOk (r : RomRow) : Bool :=
  decide (0 < r.bit1Mark.toNat) && decide (0 < r.bit1Space.toNat)
    && decide (0 < r.bit0Mark.toNat) && decide (0 < r.bit0Space.toNat)
    && (decide (2 * r.bitTol.toNat ≤ absDiff r.bit1Mark.toNat r.bit0Mark.toNat)
      || decide (2 * r.bitTol.toNat ≤ absDiff r.bit1Space.toNat r.bit0Space.toNat))

/-- R45 (c): the width windows of a Manchester row are disjoint and the double bit is a payload bit. -/
def manchesterOk (r : RomRow) : Bool :=
  decide (0 < r.bitUnit.toNat) && decide (2 * r.bitTol.toNat ≤ r.bitUnit.toNat)
    && (match r.dblIndex with
      | none => true
      | some i => decide (i < r.databitLen))

/-- R45 (b) or (c), by the codec. -/
def codecOk (r : RomRow) : Bool :=
  match r.codec with
  | .pdwm => pdwmOk r
  | .manchester => manchesterOk r

/-- R45 (d), with the number of elements that `rep_t[1..rep_len-1]` of R41 has. -/
def repeatOk (r : RomRow) : Bool :=
  decide (r.repLen = 0)
    || ((decide (r.repLen = 2) || decide (r.repLen = 4) || decide (r.repLen = 6))
      && decide (r.repGapMin.toNat < r.repGap.toNat) && decide (r.repGap.toNat < r.repGapMax.toNat)
      && decide (r.repTail.length = r.repLen - 1)
      && r.repTail.all (fun e => decide (0 < e.nominal.toNat)))

/-- R45 (e). An extension layout fixes no length. -/
def layoutOk (r : RomRow) : Bool :=
  match r.layout with
  | .nec => decide (r.databitLen = 32)
  | .necExt => decide (r.databitLen = 32)
  | .samsung32 => decide (r.databitLen = 32)
  | .rc6 => decide (r.databitLen = 21)
  | .ext _ => true

/-- R45 (f), for one row, with the type "ASCII string" of R41: every byte is 1 to 127. -/
def nameOk (r : RomRow) : Bool :=
  decide (1 ≤ r.name.length) && decide (r.name.length ≤ 12) && r.name.all (fun c => decide (c ≠ 0#8) && decide (c.toNat < 128))

/-- Well-formedness of one row (R45). -/
def rowOk (r : RomRow) : Bool :=
  timingOk r && codecOk r && repeatOk r && layoutOk r && nameOk r

/-! ## The registry (R42, R43, and the fixed values of R44) -/

/-- The names of R43 in ASCII. -/
def necName : List Byte := [0x4E#8, 0x45#8, 0x43#8]
def necExtName : List Byte := [0x4E#8, 0x45#8, 0x43#8, 0x65#8, 0x78#8, 0x74#8]
def samsung32Name : List Byte := [0x53#8, 0x61#8, 0x6D#8, 0x73#8, 0x75#8, 0x6E#8, 0x67#8, 0x33#8, 0x32#8]
def rc6Name : List Byte := [0x52#8, 0x43#8, 0x36#8]

/-- One line of the table of R43. -/
def identifiedAs (r : RomRow) (name : List Byte) (aLen cLen : Word) (codec : Codec) (layout : Layout) (len : Nat) : Bool :=
  decide (r.name = name) && decide (r.addressLength = aLen) && decide (r.commandLength = cLen)
    && decide (r.codec = codec) && decide (r.layout = layout) && decide (r.databitLen = len)

/-- NEC and NECext have the same timing fields (R44 "NECext shares NEC's timing", 42_protocol_adapters.md R145, D10). -/
def sameTiming (a b : RomRow) : Bool :=
  decide (a.preambleMark = b.preambleMark) && decide (a.preambleSpace = b.preambleSpace)
    && decide (a.preambleTolPm = b.preambleTolPm)
    && decide (a.bit1Mark = b.bit1Mark) && decide (a.bit1Space = b.bit1Space)
    && decide (a.bit0Mark = b.bit0Mark) && decide (a.bit0Space = b.bit0Space)
    && decide (a.bitTol = b.bitTol) && decide (a.silence = b.silence)
    && decide (a.repLen = b.repLen) && decide (a.repGap = b.repGap)
    && decide (a.repGapMin = b.repGapMin) && decide (a.repGapMax = b.repGapMax) && decide (a.repTail = b.repTail)

/-- Rows 0 to 3 are NEC, NECext, Samsung32 and RC6 with the values the source fixes (R5, R42, R43, R44). -/
def baseRowsOk : Rom → Bool
  | nec :: necExt :: samsung32 :: rc6 :: _ =>
    identifiedAs nec necName 2#32 2#32 .pdwm .nec 32
      && identifiedAs necExt necExtName 4#32 2#32 .pdwm .necExt 32
      && identifiedAs samsung32 samsung32Name 2#32 2#32 .pdwm .samsung32 32
      && identifiedAs rc6 rc6Name 2#32 2#32 .manchester .rc6 21
      && decide (nec.preambleMark = 9000#32) && decide (nec.preambleSpace = 4500#32) && decide (nec.bit1Mark = 560#32)
      && sameTiming necExt nec
      && decide (rc6.dblIndex = some 4) && decide (rc6.repLen = 0)
  | _ => false

/-- No two rows have the same name (R45 (f)). -/
def namesDistinct : Rom → Bool
  | [] => true
  | r :: rest => rest.all (fun q => decide (q.name ≠ r.name)) && namesDistinct rest

/-- A ROM the hardware can be built with: the base rows, every row well-formed, distinct names, and `N_ROWS <= 255`
(R5, R6, R42, R45). -/
def romOk (rom : Rom) : Bool :=
  baseRowsOk rom && rom.all rowOk && namesDistinct rom && decide (rom.length ≤ 255)

/-! ## The reference ROM (R43, R44)

PRESUMED (unsafe for a claim that rests on a number): every number but NEC's 9000, 4500, 560 and the widths is "from general
knowledge, not in source" by R44 itself; notes/assumptions/2.md. Fields R44 calls unused hold 0 and `none`
(notes/assumptions/4.md). -/

def necRow : RomRow where
  name := necName
  preambleMark := 9000#32
  preambleSpace := 4500#32
  preambleTolPm := 70
  bit1Mark := 560#32
  bit1Space := 1690#32
  bit0Mark := 560#32
  bit0Space := 560#32
  bitTol := 120#32
  silence := 110000#32
  databitLen := 32
  carrierFreq := 38000#32
  dutyCycle := 33#32
  addressLength := 2#32
  commandLength := 2#32
  codec := .pdwm
  layout := .nec
  bitUnit := 0#32
  manInv := false
  dblIndex := none
  repLen := 4
  repGap := 46000#32
  repGapMin := 30000#32
  repGapMax := 150000#32
  repTail := [⟨.rel, 9000#32⟩, ⟨.rel, 2250#32⟩, ⟨.abs, 560#32⟩]

def necExtRow : RomRow :=
  { necRow with name := necExtName, addressLength := 4#32, layout := .necExt }

def samsung32Row : RomRow where
  name := samsung32Name
  preambleMark := 4500#32
  preambleSpace := 4500#32
  preambleTolPm := 70
  bit1Mark := 550#32
  bit1Space := 1650#32
  bit0Mark := 550#32
  bit0Space := 550#32
  bitTol := 120#32
  silence := 145000#32
  databitLen := 32
  carrierFreq := 38000#32
  dutyCycle := 33#32
  addressLength := 2#32
  commandLength := 2#32
  codec := .pdwm
  layout := .samsung32
  bitUnit := 0#32
  manInv := false
  dblIndex := none
  repLen := 6
  repGap := 46000#32
  repGapMin := 30000#32
  repGapMax := 140000#32
  repTail := [⟨.rel, 4500#32⟩, ⟨.rel, 4500#32⟩, ⟨.abs, 550#32⟩, ⟨.abs, 1650#32⟩, ⟨.abs, 550#32⟩]

def rc6Row : RomRow where
  name := rc6Name
  preambleMark := 2666#32
  preambleSpace := 889#32
  preambleTolPm := 70
  bit1Mark := 0#32
  bit1Space := 0#32
  bit0Mark := 0#32
  bit0Space := 0#32
  bitTol := 120#32
  silence := 2700#32
  databitLen := 21
  carrierFreq := 36000#32
  dutyCycle := 33#32
  addressLength := 2#32
  commandLength := 2#32
  codec := .manchester
  layout := .rc6
  bitUnit := 444#32
  manInv := false
  dblIndex := some 4
  repLen := 0
  repGap := 0#32
  repGapMin := 0#32
  repGapMax := 0#32
  repTail := []

/-- `P_ROM` of R44 with `EXT_ROWS = []`. -/
def referenceRom : Rom := [necRow, necExtRow, samsung32Row, rc6Row]

end Sys2Proof.Machine
end

