-- ==== Sys2Proof/Machine/State.lean ====
section
/-! DEFINITION. State.lean: the state of 10_state.md, the reasons a step can stop, and reset (R31). -/

namespace Sys2Proof.Machine

/-! ## Sequencing states, statuses and causes -/

/-- `dec[p].state` (R11). -/
inductive DecState where
  | waitPreamble
  | decode
  | processRepeat
deriving DecidableEq, Repr

/-- `enc.state` (R16). -/
inductive EncState where
  | space
  | preamble
  | encode
  | encodeRepeat
deriving DecidableEq, Repr

/-- The result of a bit codec or of `DecodeRepeat` (00_scope.md R9; 40_matchers_and_codecs.md R100, 41_decode_engine.md
R126). -/
inductive CodecStatus where
  | ok
  | ready
  | error
deriving DecidableEq, Repr

/-- The causes of 60_exceptions.md R220. -/
inductive FaultCause where
  | unknownProtocol
  | timingOverflow
  | encoderUnbound
  | protocolMismatch
deriving DecidableEq, Repr

/-- The status codes of 30_encoding.md R76, by name. -/
inductive Status where
  | ok
  | msg
  | done
  | errIllegal
  | errBadPid
  | fault
deriving DecidableEq, Repr

/-- The fields of a response (30_encoding.md R75, R77). The defaults are "no result". -/
structure Response where
  status : Status
  level : Level := false
  rep : Bool := false
  pid : Pid := 0xFF#8
  cause : Byte := 0#8
  r1 : Word := 0#32
  r2 : Word := 0#32
  r3 : Word := 0#32
deriving DecidableEq, Repr

/-- One result `(duration, level, status)` of `EncodeStep`; `done` is the status `Done` (43_encode_engine.md R171). -/
structure Timing where
  duration : Duration
  level : Level
  done : Bool
deriving DecidableEq, Repr

/-! ## Contexts -/

/-- A decoder context `dec[p]` (R10 to R14, R20 to R22). `timings` is the pending-timings buffer, oldest entry first:
`timings_cnt` is its length, and slot `i` of the hardware's six is entry `i`, or 0 where there is none (R12, D32;
notes/assumptions/9.md). `data` is the accumulator, bit `i` of the number being bit `i` of the register (R13;
notes/assumptions/10.md). -/
structure DecCtx where
  state : DecState
  timings : List Duration
  data : Nat
  databitCnt : Nat
  switchDetect : Bool
  lastLevel : Level
  message : Message
  prevToggle : Bool
deriving DecidableEq, Repr

/-- The encoder context `enc` (R15 to R18, R23). -/
structure EncCtx where
  state : EncState
  timingsEncoded : Nat
  bitsEncoded : Nat
  data : Nat
  toggle : Bool
deriving DecidableEq, Repr

/-- One turn of an engine or codec loop: the loop goes on with a context, or ends with a result and a context. -/
inductive Turn (α : Type) where
  | again (c : DecCtx)
  | stop (a : α) (c : DecCtx)
deriving DecidableEq, Repr

/-- What the host does at the block's boundary (30_encoding.md R78, 70_reset_and_hazards.md R250). -/
inductive HostEvent where
  /-- One command frame at the command port. -/
  | command (f : Frame)
  /-- Hardware reset, between commands. -/
  | hardwareReset
deriving DecidableEq, Repr

/-! ## The state -/

/-- The whole machine (10_state.md section 1), and three fields of the model's own: `rom`, the configuration argument
`P_ROM`, never written (R5, R46; notes/assumptions/1.md); `port`, the host's actions not yet taken, first one first; and
`response`, the frame last presented at the response port (R78; notes/assumptions/6.md). -/
structure State where
  rom : Rom
  fault : Bool
  faultCause : Byte
  dec : List DecCtx
  encBound : Pid
  enc : EncCtx
  port : List HostEvent
  response : Option Frame
deriving DecidableEq, Repr

/-! ## Why a step stops -/

/-- The model's own stops. Both are safe, and no run from a well-formed ROM reaches either (notes/assumptions/11.md). The
four faults of the block itself (R220) are next states: see `raiseFault`. -/
inductive Fault where
  /-- Raised by `ENC_STEP` when `enc_bound` is neither `PID_NONE` nor a registered pid: ROM row `Rom(enc_bound)` does not
  exist (R15, R52). Safe. -/
  | unregisteredRow
  /-- Raised by `ENC_STEP` when the encoder's counters name a payload bit or a pattern element that does not exist (R17,
  R174, R179). Safe. -/
  | encoderOutOfRange
deriving DecidableEq, Repr

/-- Why a step has no meaning. -/
inductive Refusal where
  /-- An instruction that has no meaning in this model; no arm of `exec` answers it. Safe. -/
  | notModelled (mnemonic : String)
  /-- Raised by every command when the ROM is one the hardware cannot be built with (20_memory.md R45: "A row that fails a
  condition is refused by the model"; notes/assumptions/3.md). Safe. -/
  | illFormedRom
deriving DecidableEq, Repr

/-- The outcome of a step of this machine. -/
abbrev StepResult := Host.Outcome State Fault Refusal

/-! ## Reset values (R31) -/

/-- The reset value of a message: `{0xFF, 0, 0, 0}`. -/
def Message.reset : Message := { protocol := pidNone, address := 0#32, command := 0#32, rep := false }

/-- The reset value of a decoder context (R31). -/
def DecCtx.reset : DecCtx where
  state := .waitPreamble
  timings := []
  data := 0
  databitCnt := 0
  switchDetect := false
  lastLevel := true
  message := Message.reset
  prevToggle := false

/-- The reset value of the encoder context (R31). -/
def EncCtx.reset : EncCtx where
  state := .space
  timingsEncoded := 0
  bitsEncoded := 0
  data := 0
  toggle := false

/-- The block built with `rom`, after hardware reset, with nothing at its ports (R31, R250). -/
def State.resetWith (rom : Rom) : State where
  rom := rom
  fault := false
  faultCause := 0#8
  dec := rom.map (fun _ => DecCtx.reset)
  encBound := pidNone
  enc := EncCtx.reset
  port := []
  response := none

/-- The machine right after reset, built with the reference ROM of R44. -/
def State.reset : State := State.resetWith referenceRom

end Sys2Proof.Machine
end

