-- ==== Sys2Proof/Machine/Operands.lean ====
section
/-! DEFINITION. Operands.lean: the operand and result forms: bytes of the accumulator, `rev8`, packed names, status and
cause codes, the words of a response frame, the buffer slots. -/

namespace Sys2Proof.Machine

/-! ## Bit fields (00_scope.md R8, 10_state.md R13) -/

/-- Byte `k` of a 32-bit accumulator, `d[8k+7 : 8k]` (R13, R47). -/
def accByte (d : Word) (k : Nat) : Byte := d.extractLsb' (8 * k) 8

/-- `rev8(v)[i] = v[7-i]` (R8). -/
def rev8 (v : Byte) : Byte :=
  BitVec.ofBool (v.getLsbD 0) ++ BitVec.ofBool (v.getLsbD 1) ++ BitVec.ofBool (v.getLsbD 2) ++ BitVec.ofBool (v.getLsbD 3)
    ++ BitVec.ofBool (v.getLsbD 4) ++ BitVec.ofBool (v.getLsbD 5) ++ BitVec.ofBool (v.getLsbD 6) ++ BitVec.ofBool (v.getLsbD 7)

/-- `d[i] <- b` on an accumulator held as a number. -/
def writeBit (d i : Nat) (b : Bool) : Nat := if d.testBit i = b then d else d ^^^ (1 <<< i)

/-- The protocol id of row `p` (20_memory.md R42: "The row number is the protocol id"). -/
def pidOf (p : Nat) : Pid := BitVec.ofNat 8 p

/-! ## Buffer slots (10_state.md R12) -/

/-- `timings_cnt` (R12). -/
def DecCtx.timingsCnt (c : DecCtx) : Nat := c.timings.length

/-- `timings[i]` of the six slots: 0 at and above `timings_cnt` (R12, D32). -/
def DecCtx.slot (c : DecCtx) (i : Nat) : Duration := c.timings.getD i 0#32

/-! ## Names (20_memory.md R48 (b), 45_system_and_info.md R211) -/

/-- Character `k` of a name, 0 past its end. -/
def nameByte (s : List Byte) (k : Nat) : Byte := s.getD k 0#8

/-- Word `w` of a packed name: characters `4w .. 4w+3`, the first in the low byte (R48 (b)). -/
def nameWord (s : List Byte) (w : Nat) : Word :=
  nameByte s (4 * w + 3) ++ nameByte s (4 * w + 2) ++ nameByte s (4 * w + 1) ++ nameByte s (4 * w)

/-- `PackName` (R211). -/
def packName (s : List Byte) : Word × Word × Word := (nameWord s 0, nameWord s 1, nameWord s 2)

/-! ## Codes -/

/-- The code of a status (30_encoding.md R76). -/
def Status.code : Status → Byte
  | .ok => 0x00#8
  | .msg => 0x01#8
  | .done => 0x02#8
  | .errIllegal => 0x80#8
  | .errBadPid => 0x81#8
  | .fault => 0xFF#8

/-- The code of a fault cause (60_exceptions.md R220). -/
def FaultCause.code : FaultCause → Byte
  | .unknownProtocol => 0x01#8
  | .timingOverflow => 0x02#8
  | .encoderUnbound => 0x03#8
  | .protocolMismatch => 0x04#8

/-! ## Response frames (30_encoding.md R75, R77) -/

/-- `R0 = {cause, pid, 0 (15:10), repeat, level, status}` (R75). -/
def packR0 (cause pid : Byte) (rep level : Bool) (status : Byte) : Word :=
  cause ++ pid ++ 0#6 ++ BitVec.ofBool rep ++ BitVec.ofBool level ++ status

/-- The frame of a response (R75). -/
def Response.frame (r : Response) : Frame :=
  { w0 := packR0 r.cause r.pid r.rep r.level r.status.code, w1 := r.r1, w2 := r.r2, w3 := r.r3 }

/-- The fault response: everything else "no result" (R77). -/
def faultResponse (cause : Byte) : Response := { status := .fault, cause := cause }

/-- The response to a `DEC_SAMPLE`: no message, or the four fields of one (R77, R192). -/
def sampleResponse : Option Message → Response
  | none => { status := .ok }
  | some m => { status := .msg, rep := m.rep, pid := m.protocol, r1 := m.address, r2 := m.command }

/-- The response to an `ENC_STEP` (R77, R198). -/
def timingResponse (t : Timing) : Response :=
  { status := if t.done then .done else .ok, level := t.level, r1 := t.duration }

/-- The response of `INFO` on a registered row, by selector (R211, R77); a selector above 4 is illegal (R73). -/
def infoResponse (r : RomRow) (sel : Byte) : Response :=
  if sel = 0#8 then { status := .ok, r1 := (packName r.name).1, r2 := (packName r.name).2.1, r3 := (packName r.name).2.2 }
  else if sel = 1#8 then { status := .ok, r1 := r.addressLength }
  else if sel = 2#8 then { status := .ok, r1 := r.commandLength }
  else if sel = 3#8 then { status := .ok, r1 := r.carrierFreq }
  else if sel = 4#8 then { status := .ok, r1 := r.dutyCycle }
  else { status := .errIllegal }

end Sys2Proof.Machine
end

