-- ==== Sys2Proof/Machine/Flags.lean ====
section
/-! DEFINITION. Flags.lean: every one-bit computation the spec gives (10_state.md R20 to R23): the level of a buffered
timing, the Manchester bit and level, the RC6 repeat flag, the toggle, the last level. -/

namespace Sys2Proof.Machine

/-- `Level(ctx, i) = last_level XOR ((timings_cnt - 1 - i) mod 2)` (40_matchers_and_codecs.md R94). -/
def DecCtx.level (c : DecCtx) (i : Nat) : Level := c.lastLevel ^^ decide ((c.timingsCnt - 1 - i) % 2 = 1)

/-- `last_level <- level` (41_decode_engine.md R120). -/
def DecCtx.setLastLevel (c : DecCtx) (l : Level) : DecCtx := { c with lastLevel := l }

/-- `switch_detect <- b` (R104, R122). -/
def DecCtx.setSwitch (c : DecCtx) (b : Bool) : DecCtx := { c with switchDetect := b }

/-- The value of a Manchester bit from the level of its first half: `level XOR man_inv` (R103). -/
def manchesterBit (r : RomRow) (l : Level) : Bool := l ^^ r.manInv

/-- The level of half `j` of a bit: `j XOR b XOR man_inv` (43_encode_engine.md R177). -/
def halfLevel (r : RomRow) (j : Nat) (b : Bool) : Level := decide (j % 2 = 1) ^^ b ^^ r.manInv

/-- The repeat flag of an RC6 frame: the held message has this pid, address and command, and the toggle is unchanged
(42_protocol_adapters.md R144). -/
def rc6Repeat (c : DecCtx) (pid : Pid) (address command : Word) (tog : Bool) : Bool :=
  decide (c.message.protocol = pid) && decide (c.message.address = address) && decide (c.message.command = command)
    && decide (c.prevToggle = tog)

/-- `message.repeat <- 1` (41_decode_engine.md R127). -/
def DecCtx.markRepeat (c : DecCtx) : DecCtx := { c with message := { c.message with rep := true } }

/-- `enc.toggle <- enc.toggle XOR 1` (R153). -/
def EncCtx.flipToggle (e : EncCtx) : EncCtx := { e with toggle := !e.toggle }

end Sys2Proof.Machine
end

