-- ==== Sys2Proof/Machine/Ops.lean ====
section
/-! DEFINITION. Ops.lean: the named operations over the stores and the block registers: ROM lookup, the buffer and
accumulator primitives (40_matchers_and_codecs.md R95 to R97), the response port, fault entry (60_exceptions.md R224),
dispatch (30_encoding.md R73), and hardware reset, the only return from a fault (R226, R250). -/

namespace Sys2Proof.Machine

/-! ## The ROM -/

/-- `Rom(pid)`: the row of a registered pid, `none` for an unregistered one (20_memory.md R42, R52). -/
def romRow (s : State) (p : Pid) : Option RomRow := s.rom[p.toNat]?

/-! ## Buffer and accumulator primitives -/

/-- `Consume(ctx, n)`: the `n` oldest timings leave (R95). -/
def DecCtx.consume (c : DecCtx) (n : Nat) : DecCtx := { c with timings := c.timings.drop n }

/-- `Append(ctx, d)`: the bounds check comes before the write (R96). -/
def DecCtx.append (c : DecCtx) (d : Duration) : Except FaultCause DecCtx :=
  if c.timingsCnt < maxTimings then .ok { c with timings := c.timings ++ [d] } else .error .timingOverflow

/-- `Accumulate(ctx, b)`: the next bit, least significant first (R97, R47). -/
def DecCtx.accumulate (c : DecCtx) (b : Bool) : DecCtx :=
  { c with data := writeBit c.data c.databitCnt b, databitCnt := c.databitCnt + 1 }

/-! ## Loops

The loops of R101, R104, R121 and R123 are one turn each, iterated with a bound that the spec gives or that follows from
each turn consuming a timing (R128; notes/assumptions/14.md). -/

/-- Iterate a loop's turn at most `n` times; `dflt` is the result if the bound were reached. -/
def iterate {α : Type} (turn : DecCtx → Turn α) (dflt : α) : Nat → DecCtx → α × DecCtx
  | 0, c => (dflt, c)
  | n + 1, c =>
    match turn c with
    | .again c' => iterate turn dflt n c'
    | .stop a c' => (a, c')

/-! ## The response port -/

/-- Present a response frame (R75, R78). -/
def State.respond (s : State) (r : Response) : State := { s with response := some r.frame }

/-! ## Faults and dispatch -/

/-- `raise Fault(cause)` (R224), applied to the state the command started from: every other write of the command is
discarded, `FAULT` and `FAULT_CAUSE` are written, and the fault response is given. -/
def raiseFault (cause : FaultCause) (s : State) : StepResult :=
  .next (({ s with fault := true, faultCause := cause.code }).respond (faultResponse cause.code))

/-- Dispatch (R73): a block whose ROM fails R45 is refused; while `FAULT = 1` every command is answered with the fault
response and changes nothing (R224, R226); otherwise the command's own rule runs. -/
def dispatch (s : State) (rule : State → StepResult) : StepResult :=
  if romOk s.rom then
    if s.fault then .next (s.respond (faultResponse s.faultCause)) else rule s
  else .refused .illFormedRom

/-- An illegal frame: `ERR_ILLEGAL`, every other field "no result", no state change (R73 (3), R225). -/
def illegalFrame (s : State) : StepResult :=
  dispatch s (fun s => .next (s.respond { status := .errIllegal }))

/-- Hardware reset (R250, R251): every piece of state takes its reset value. The ROM is not affected; the host's later
actions still stand at the port, and no response is presented (notes/assumptions/7.md). -/
def hardwareReset (s : State) : State :=
  { State.resetWith s.rom with port := s.port }

end Sys2Proof.Machine
end

