-- ==== Sys2Proof/Machine/Matchers.lean ====
section
/-! DEFINITION. Matchers.lean: the timing matchers (40_matchers_and_codecs.md R90 to R93), over the natural numbers as R91
allows, so that no product wraps. -/

namespace Sys2Proof.Machine

/-- `MatchRel(x, nominal, tol_pm)`: `AbsDiff * 1000 < nominal * tol_pm`, strict (R90). -/
def matchRel (x nominal tolPm : Nat) : Bool := decide (absDiff x nominal * 1000 < nominal * tolPm)

/-- `MatchAbs(x, nominal, tol)`: `AbsDiff < tol`, strict (R92). -/
def matchAbs (x nominal tol : Nat) : Bool := decide (absDiff x nominal < tol)

/-- `MatchUnits(x, n, r)`: the width matcher, the tolerance not scaled by `n` (R93). -/
def matchUnits (x n : Nat) (r : RomRow) : Bool := matchAbs x (n * r.bitUnit.toNat) r.bitTol.toNat

/-- `h(r, i)`: the half-width of payload bit `i` in units of `bit_unit` (R102). -/
def halfWidth (r : RomRow) (i : Nat) : Nat := if r.dblIndex = some i then 2 else 1

/-- A bit-level match of a PDWM row (R101). -/
def matchBit (r : RomRow) (x nominal : Duration) : Bool := matchAbs x.toNat nominal.toNat r.bitTol.toNat

/-- A preamble-level match (R121). -/
def matchPreamble (r : RomRow) (x nominal : Duration) : Bool := matchRel x.toNat nominal.toNat r.preambleTolPm

/-- A match of repeat element `e` (R126). -/
def matchRepElem (r : RomRow) (x : Duration) (e : RepElem) : Bool :=
  match e.kind with
  | .rel => matchPreamble r x e.nominal
  | .abs => matchBit r x e.nominal

end Sys2Proof.Machine
end

