-- ==== Sys2Proof/Machine/Adapters.lean ====
section
/-! DEFINITION. Adapters.lean: the interpret and pack functions of each layout (42_protocol_adapters.md R140 to R153). -/

namespace Sys2Proof.Machine

/-! ## Interpret (R140 to R144)

Each function answers the context with its message (and, for RC6, its `prev_toggle`) written, or `none` for a failure,
which writes nothing. -/

/-- `ctx.message <- {pid, address, command, rep}`. -/
def DecCtx.setMessage (c : DecCtx) (pid : Pid) (address command : Word) (rep : Bool) : DecCtx :=
  { c with message := { protocol := pid, address := address, command := command, rep := rep } }

/-- The 32-bit accumulator of the NEC, NECEXT and SAMSUNG32 layouts. -/
def DecCtx.acc32 (c : DecCtx) : BitVec 32 := BitVec.ofNat 32 c.data

/-- The 21-bit accumulator of the RC6 layout. -/
def DecCtx.acc21 (c : DecCtx) : BitVec 21 := BitVec.ofNat 21 c.data

/-- `b2 = ~b3`, the command check (R141 to R143). -/
def commandChecks (d : Word) : Bool := decide (accByte d 2 = ~~~ accByte d 3)

/-- `InterpretNec` (R141). -/
def interpretNec (pid : Pid) (c : DecCtx) : Option DecCtx :=
  let d := c.acc32
  if commandChecks d && decide (accByte d 0 = ~~~ accByte d 1) then
    some (c.setMessage pid ((accByte d 0).setWidth 32) ((accByte d 2).setWidth 32) false)
  else none

/-- `InterpretNecExt` (R142). -/
def interpretNecExt (pid : Pid) (c : DecCtx) : Option DecCtx :=
  let d := c.acc32
  if commandChecks d && decide (accByte d 0 ≠ ~~~ accByte d 1) then
    some (c.setMessage pid ((accByte d 1 ++ accByte d 0).setWidth 32) ((accByte d 2).setWidth 32) false)
  else none

/-- `InterpretSamsung32` (R143). -/
def interpretSamsung32 (pid : Pid) (c : DecCtx) : Option DecCtx :=
  let d := c.acc32
  if commandChecks d && decide (accByte d 0 = accByte d 1) then
    some (c.setMessage pid ((accByte d 0).setWidth 32) ((accByte d 2).setWidth 32) false)
  else none

/-- `InterpretRc6` (R144): start bit 1, mode 0, toggle, address and command reversed. -/
def interpretRc6 (pid : Pid) (c : DecCtx) : Option DecCtx :=
  let d := c.acc21
  let tog := d.getLsbD 4
  let address : Word := (rev8 (d.extractLsb' 5 8)).setWidth 32
  let command : Word := (rev8 (d.extractLsb' 13 8)).setWidth 32
  if d.getLsbD 0 && decide (d.extractLsb' 1 3 = 0#3) then
    some (({ c with prevToggle := tog }).setMessage pid address command (rc6Repeat c pid address command tog))
  else none

/-- The interpret function of extension adapter `k`, within the contract of R140 (R146; notes/assumptions/5.md). -/
def interpretExt (k : Nat) (pid : Pid) (c : DecCtx) : Option DecCtx :=
  match Config.extInterpret k c.data c.message with
  | some (address, command, rep) => some (c.setMessage pid address command rep)
  | none => none

/-- `Interpret(ctx)` (R140). -/
def interpret (r : RomRow) (pid : Pid) (c : DecCtx) : Option DecCtx :=
  match r.layout with
  | .nec => interpretNec pid c
  | .necExt => interpretNecExt pid c
  | .samsung32 => interpretSamsung32 pid c
  | .rc6 => interpretRc6 pid c
  | .ext k => interpretExt k pid c

/-! ## Pack (R149 to R153) -/

/-- `PackNec` (R150): `{~c, c, ~a, a}`. -/
def packNec (address command : Word) : BitVec 32 :=
  let a := accByte address 0
  let c := accByte command 0
  ~~~ c ++ c ++ ~~~ a ++ a

/-- `PackNecExt` (R151): `{~c, c, a[15:8], a[7:0]}`. -/
def packNecExt (address command : Word) : BitVec 32 :=
  let c := accByte command 0
  ~~~ c ++ c ++ accByte address 1 ++ accByte address 0

/-- `PackSamsung32` (R152): `{~c, c, a, a}`. -/
def packSamsung32 (address command : Word) : BitVec 32 :=
  let a := accByte address 0
  let c := accByte command 0
  ~~~ c ++ c ++ a ++ a

/-- The word of `PackRc6` (R153): `{rev8(c), rev8(a), toggle, 0b000, 0b1}`. -/
def packRc6 (toggle : Bool) (address command : Word) : BitVec 21 :=
  rev8 (accByte command 0) ++ rev8 (accByte address 0) ++ BitVec.ofBool toggle ++ 0#3 ++ 1#1

/-- `Pack(e, msg)` with the write of its result into `e.data` (R149, R170): only the RC6 pack changes `toggle` (R153);
`msg.repeat` is not read; bits above the fields are dropped. -/
def packInto (r : RomRow) (e : EncCtx) (msg : Message) : EncCtx :=
  match r.layout with
  | .nec => { e with data := (packNec msg.address msg.command).toNat }
  | .necExt => { e with data := (packNecExt msg.address msg.command).toNat }
  | .samsung32 => { e with data := (packSamsung32 msg.address msg.command).toNat }
  | .rc6 => ({ e with data := (packRc6 e.toggle msg.address msg.command).toNat }).flipToggle
  | .ext k => { e with data := Config.extPack k msg.address msg.command % 2 ^ r.databitLen }

end Sys2Proof.Machine
end

