-- ==== Sys2Proof/Machine/Codecs.lean ====
section
/-! DEFINITION. Codecs.lean: the two demodulators (40_matchers_and_codecs.md R100 to R104). -/

namespace Sys2Proof.Machine

/-- The bit a (Mark, Space) pair stands for: the 1 pair is tried before the 0 pair (R101, D42). -/
def pdwmBit (r : RomRow) (t0 t1 : Duration) : Option Bool :=
  if matchBit r t0 r.bit1Mark && matchBit r t1 r.bit1Space then some true
  else if matchBit r t0 r.bit0Mark && matchBit r t1 r.bit0Space then some false
  else none

/-- One turn of the loop of `DecodePdwm` (R101). -/
def pdwmTurn (r : RomRow) (c : DecCtx) : Turn CodecStatus :=
  if c.databitCnt = r.databitLen then
    match c.timings with
    | [] => .stop .ok c
    | t0 :: _ => if c.level 0 && matchBit r t0 r.bit1Mark then .stop .ready (c.consume 1) else .stop .error c
  else
    match c.timings with
    | t0 :: t1 :: _ =>
      if c.level 0 then
        match pdwmBit r t0 t1 with
        | some b => .again ((c.accumulate b).consume 2)
        | none => .stop .error c
      else .stop .error c
    | _ => .stop .ok c

/-- `DecodePdwm(ctx)` (R101). Each turn consumes two timings or returns. -/
def decodePdwm (r : RomRow) (c : DecCtx) : CodecStatus × DecCtx :=
  iterate (pdwmTurn r) .ok (c.timingsCnt + 1) c

/-- The first half of the next bit has been seen: consume the timing, accumulate the bit, and be ready at once if it was
the last bit and its first half a Mark (R104, first and third `return Ready`). -/
def manchesterFirstHalf (r : RomRow) (l : Level) (c : DecCtx) : Turn CodecStatus :=
  let c' := ((c.consume 1).accumulate (manchesterBit r l)).setSwitch true
  if c'.databitCnt = r.databitLen ∧ l = true then .stop .ready c' else .again c'

/-- The closing half of a bit has been seen alone: consume it, and be ready if the bit was the last (R104, second
`return Ready`). -/
def manchesterSecondHalf (r : RomRow) (c : DecCtx) : Turn CodecStatus :=
  let c' := (c.consume 1).setSwitch false
  if c'.databitCnt = r.databitLen then .stop .ready c' else .again c'

/-- One turn of the loop of `DecodeManchester` (R103, R104). -/
def manchesterTurn (r : RomRow) (c : DecCtx) : Turn CodecStatus :=
  match c.timings with
  | [] => .stop .ok c
  | x :: _ =>
    if c.switchDetect then
      let k := c.databitCnt - 1
      if matchUnits x.toNat (halfWidth r k) r then manchesterSecondHalf r c
      else if c.databitCnt < r.databitLen ∧ matchUnits x.toNat (halfWidth r k + halfWidth r (k + 1)) r = true then
        manchesterFirstHalf r (c.level 0) c
      else .stop .error c
    else if matchUnits x.toNat (halfWidth r c.databitCnt) r then manchesterFirstHalf r (c.level 0) c
    else .stop .error c

/-- `DecodeManchester(ctx)` (R104). Each turn consumes a timing or returns. -/
def decodeManchester (r : RomRow) (c : DecCtx) : CodecStatus × DecCtx :=
  iterate (manchesterTurn r) .ok (c.timingsCnt + 1) c

/-- `DecodeBits(ctx)` (R100). -/
def decodeBits (r : RomRow) (c : DecCtx) : CodecStatus × DecCtx :=
  match r.codec with
  | .pdwm => decodePdwm r c
  | .manchester => decodeManchester r c

end Sys2Proof.Machine
end

