-- ==== Sys2Proof/Machine/DecodeEngine.lean ====
section
/-! DEFINITION. DecodeEngine.lean: the common decode engine (41_decode_engine.md R120 to R128). -/

namespace Sys2Proof.Machine

/-! ## WaitPreamble (R121, R122) -/

/-- The first line of `CheckPreamble`: a leading Space is dropped (R121, D14). -/
def alignToMark (c : DecCtx) : DecCtx :=
  match c.timings with
  | [] => c
  | _ :: _ => if c.level 0 then c else c.consume 1

/-- One turn of the loop of `CheckPreamble`: the pair is consumed, match or not (R121). -/
def preambleTurn (r : RomRow) (c : DecCtx) : Turn Bool :=
  match c.timings with
  | t0 :: t1 :: _ =>
    if matchPreamble r t0 r.preambleMark && matchPreamble r t1 r.preambleSpace then .stop true (c.consume 2)
    else .again (c.consume 2)
  | _ => .stop false c

/-- `CheckPreamble(ctx)` (R121). -/
def checkPreamble (r : RomRow) (c : DecCtx) : Bool × DecCtx :=
  iterate (preambleTurn r) false (c.timingsCnt + 1) (alignToMark c)

/-- `ctx.state <- S`. -/
def DecCtx.goTo (c : DecCtx) (st : DecState) : DecCtx := { c with state := st }

/-- `EnterDecode(ctx)` (R122). -/
def enterDecode (c : DecCtx) : DecCtx :=
  { c with data := 0, databitCnt := 0, switchDetect := false, state := .decode }

/-! ## ProcessRepeat (R126) -/

/-- The elements 1.. of the repeat pattern, one by one (R126). -/
def tailMatches (r : RomRow) : List Duration → List RepElem → Bool
  | [], [] => true
  | t :: ts, e :: es => matchRepElem r t e && tailMatches r ts es
  | _, _ => false

/-- The gap and the rest of the pattern on the oldest `rep_len` timings; both gap comparisons strict (R126). -/
def repeatMatches (r : RomRow) (c : DecCtx) : Bool :=
  match c.timings.take r.repLen with
  | [] => false
  | gap :: rest =>
    !c.level 0 && decide (r.repGapMin.toNat < gap.toNat) && decide (gap.toNat < r.repGapMax.toNat)
      && tailMatches r rest r.repTail

/-- `DecodeRepeat(ctx)` (R126). -/
def decodeRepeat (r : RomRow) (c : DecCtx) : CodecStatus × DecCtx :=
  if c.timingsCnt < r.repLen then (.ok, c)
  else if repeatMatches r c then (.ready, c.consume r.repLen)
  else (.error, c)

/-! ## The state machine (R123 to R127) -/

/-- The state after a successful interpret: a row with no repeat pattern skips ProcessRepeat (R125, D20). -/
def afterMessage (r : RomRow) : DecState := if 0 < r.repLen then .processRepeat else .waitPreamble

/-- One turn of the loop of `Run` (R123): state WaitPreamble. -/
def waitTurn (r : RomRow) (c : DecCtx) : Turn (Option Message) :=
  match checkPreamble r c with
  | (true, c') => .again (enterDecode c')
  | (false, c') => .stop none c'

/-- One turn of the loop of `Run`: state Decode (R123, R124, R125). -/
def decodeTurn (r : RomRow) (pid : Pid) (c : DecCtx) : Turn (Option Message) :=
  match decodeBits r c with
  | (.ok, c') => .stop none c'
  | (.error, c') => .again (c'.goTo .waitPreamble)
  | (.ready, c') =>
    match interpret r pid c' with
    | some c'' => .stop (some c''.message) (c''.goTo (afterMessage r))
    | none => .stop none (c'.goTo .waitPreamble)

/-- One turn of the loop of `Run`: state ProcessRepeat (R123, R127). -/
def repeatTurn (r : RomRow) (c : DecCtx) : Turn (Option Message) :=
  match decodeRepeat r c with
  | (.ok, c') => .stop none c'
  | (.error, c') => .again (c'.goTo .waitPreamble)
  | (.ready, c') => .stop (some c'.markRepeat.message) c'.markRepeat

/-- One turn of the loop of `Run` (R123). -/
def engineTurn (r : RomRow) (pid : Pid) (c : DecCtx) : Turn (Option Message) :=
  match c.state with
  | .waitPreamble => waitTurn r c
  | .decode => decodeTurn r pid c
  | .processRepeat => repeatTurn r c

/-- The loop of `Run` makes at most 8 turns (R128). -/
def maxTurns : Nat := 8

/-- `Run(ctx)` (R123). -/
def run (r : RomRow) (pid : Pid) (c : DecCtx) : Option Message × DecCtx :=
  iterate (engineTurn r pid) none maxTurns c

/-! ## DecodeStep (R120) -/

/-- A repeated level drops every pending timing and nothing else (R120, D13). -/
def dropOnRepeatedLevel (l : Level) (c : DecCtx) : DecCtx :=
  if l = c.lastLevel then c.consume c.timingsCnt else c

/-- `DecodeStep(ctx, level, duration)` (R120): the message returned, if any, is a copy (44_handler_commands.md R195). -/
def decodeStep (r : RomRow) (pid : Pid) (c : DecCtx) (l : Level) (d : Duration) :
    Except FaultCause (Option Message × DecCtx) :=
  match ((dropOnRepeatedLevel l c).setLastLevel l).append d with
  | .ok c' => .ok (run r pid c')
  | .error cause => .error cause

end Sys2Proof.Machine
end

