-- ==== Sys2Proof/Machine/Decoder.lean ====
section
/-! DEFINITION. Decoder.lean: the Decoder Handler commands (44_handler_commands.md R191 to R195). -/

namespace Sys2Proof.Machine

/-- `DEC_RESET` (R191): every decoder context takes its reset value (R31), and nothing else changes. -/
def execDecReset (s : State) : StepResult :=
  dispatch s (fun s => .next (({ s with dec := s.rom.map (fun _ => DecCtx.reset) }).respond { status := .ok }))

/-- The fan-out of one sample over the rows from row `p` on, in table order (R192, R194): every row is stepped, the first
message is kept, and a fault in any row is the whole command's. -/
def sampleRows (l : Level) (d : Duration) : Nat → Rom → List DecCtx → Except FaultCause (Option Message × List DecCtx)
  | _, [], cs => .ok (none, cs)
  | _, _ :: _, [] => .ok (none, [])
  | p, r :: rest, c :: cs =>
    match decodeStep r (pidOf p) c l d with
    | .error cause => .error cause
    | .ok (m, c') =>
      match sampleRows l d (p + 1) rest cs with
      | .error cause => .error cause
      | .ok (m', cs') => .ok (m.or m', c' :: cs')

/-- `DEC_SAMPLE` (R192). -/
def execDecSample (level : Level) (duration : Duration) (s : State) : StepResult :=
  dispatch s (fun s =>
    match sampleRows level duration 0 s.rom s.dec with
    | .ok (m, dec) => .next (({ s with dec := dec }).respond (sampleResponse m))
    | .error cause => raiseFault cause s)

end Sys2Proof.Machine
end

