-- ==== Sys2Proof/Machine/EncodeEngine.lean ====
section
/-! DEFINITION. EncodeEngine.lean: the common encode engine and the two modulators (43_encode_engine.md R170 to R180).
`none` stands for counters that name a bit or an element that does not exist, which no run reaches
(notes/assumptions/11.md). -/

namespace Sys2Proof.Machine

/-! ## Engine reset (R170) -/

/-- `EncReset(e, msg)` with `e` bound to `bound`, whose row is `r` (R170). -/
def encReset (bound : Pid) (r : RomRow) (e : EncCtx) (msg : Message) : Except FaultCause EncCtx :=
  if msg.protocol = bound then
    .ok { packInto r e msg with timingsEncoded := 0, bitsEncoded := 0, state := .space }
  else .error .protocolMismatch

/-! ## One timing per step (R171 to R179) -/

/-- State `Space` (R172). -/
def encodeSpace (r : RomRow) (e : EncCtx) : EncCtx × Timing :=
  ({ e with timingsEncoded := 1, state := .preamble }, { duration := r.silence, level := false, done := false })

/-- State `Preamble` (R173, R174). -/
def encodePreamble (r : RomRow) (e : EncCtx) : Option (EncCtx × Timing) :=
  if e.timingsEncoded = 1 then
    some ({ e with timingsEncoded := 2 }, { duration := r.preambleMark, level := true, done := false })
  else if e.timingsEncoded = 2 then
    some ({ e with timingsEncoded := 3, bitsEncoded := 0, state := .encode },
      { duration := r.preambleSpace, level := false, done := false })
  else none

/-- Completion of the payload, in the step whose status is `Done` (R178). -/
def completePayload (r : RomRow) (e : EncCtx) : EncCtx :=
  { e with timingsEncoded := 0, bitsEncoded := 0, state := if 0 < r.repLen then .encodeRepeat else .space }

/-- `EncodePdwm(e)` (R176), with R178 on `Done`. `k` counts the payload's timings from 0 (R175). -/
def encodePdwm (r : RomRow) (e : EncCtx) : Option (EncCtx × Timing) :=
  if e.timingsEncoded < 3 then none
  else if e.bitsEncoded = r.databitLen then
    some (completePayload r e, { duration := r.bit1Mark, level := true, done := true })
  else if e.bitsEncoded < r.databitLen then
    let b := e.data.testBit e.bitsEncoded
    let k := e.timingsEncoded - 3
    if k % 2 = 0 then
      some ({ e with timingsEncoded := e.timingsEncoded + 1 },
        { duration := if b then r.bit1Mark else r.bit0Mark, level := true, done := false })
    else
      some ({ e with timingsEncoded := e.timingsEncoded + 1, bitsEncoded := e.bitsEncoded + 1 },
        { duration := if b then r.bit1Space else r.bit0Space, level := false, done := false })
  else none

/-- The duration of one half of payload bit `i`: `h(r, i) * bit_unit` (R177, R102). -/
def halfDuration (r : RomRow) (i : Nat) : Duration := BitVec.ofNat 32 (halfWidth r i * r.bitUnit.toNat)

/-- `EncodeManchester(e)` (R177), with R178 on `Done`. -/
def encodeManchester (r : RomRow) (e : EncCtx) : Option (EncCtx × Timing) :=
  if e.timingsEncoded < 3 then none
  else if e.bitsEncoded < r.databitLen then
    let i := e.bitsEncoded
    let j := (e.timingsEncoded - 3) % 2
    let l := halfLevel r j (e.data.testBit i)
    if j = 0 then
      some ({ e with timingsEncoded := e.timingsEncoded + 1 }, { duration := halfDuration r i, level := l, done := false })
    else if i + 1 = r.databitLen then
      some (completePayload r e, { duration := halfDuration r i, level := l, done := true })
    else
      some ({ e with timingsEncoded := e.timingsEncoded + 1, bitsEncoded := i + 1 },
        { duration := halfDuration r i, level := l, done := false })
  else none

/-- State `Encode` (R175). -/
def encodePayload (r : RomRow) (e : EncCtx) : Option (EncCtx × Timing) :=
  match r.codec with
  | .pdwm => encodePdwm r e
  | .manchester => encodeManchester r e

/-- The nominal duration of element `q` of the repeat pattern (R179). -/
def repeatElement (r : RomRow) (q : Nat) : Option Duration :=
  if q = 0 then some r.repGap
  else match r.repTail[q - 1]? with
    | some e => some e.nominal
    | none => none

/-- State `EncodeRepeat` (R179): the pattern is emitted cyclically, `Done` on its last element. -/
def encodeRepeat (r : RomRow) (e : EncCtx) : Option (EncCtx × Timing) :=
  let q := e.timingsEncoded
  match repeatElement r q with
  | none => none
  | some d =>
    if q + 1 = r.repLen then
      some ({ e with timingsEncoded := 0 }, { duration := d, level := decide (q % 2 = 1), done := true })
    else if q + 1 < r.repLen then
      some ({ e with timingsEncoded := q + 1 }, { duration := d, level := decide (q % 2 = 1), done := false })
    else none

/-- `EncodeStep(e)`: exactly one timing per call (R171). -/
def encodeStep (r : RomRow) (e : EncCtx) : Option (EncCtx × Timing) :=
  match e.state with
  | .space => some (encodeSpace r e)
  | .preamble => encodePreamble r e
  | .encode => encodePayload r e
  | .encodeRepeat => encodeRepeat r e

end Sys2Proof.Machine
end

