-- ==== Sys2Proof/Machine/Encoder.lean ====
section
/-! DEFINITION. Encoder.lean: the Encoder Handler commands (44_handler_commands.md R196 to R198). -/

namespace Sys2Proof.Machine

/-- `Rebind(p)` (R197): a fresh context, its toggle 0. -/
def rebind (p : Pid) (s : State) : State :=
  { s with
    encBound := p
    enc := { state := .space, timingsEncoded := 0, bitsEncoded := 0, data := 0, toggle := false } }

/-- Bind the encoder to `p` only if it is bound to another protocol (R196, R197). -/
def bindFor (p : Pid) (s : State) : State := if s.encBound = p then s else rebind p s

/-- `ENC_LOAD` (R196). The `repeat` operand is carried into the message and then ignored (D26). -/
def execEncLoad (protocol : Pid) (address command : Word) (rep : Bool) (s : State) : StepResult :=
  dispatch s (fun s =>
    match romRow s protocol with
    | none => raiseFault .unknownProtocol s
    | some r =>
      match encReset (bindFor protocol s).encBound r (bindFor protocol s).enc
          { protocol := protocol, address := address, command := command, rep := rep } with
      | .ok e => .next (({ bindFor protocol s with enc := e }).respond { status := .ok })
      | .error cause => raiseFault cause s)

/-- `ENC_STEP` (R198). -/
def execEncStep (s : State) : StepResult :=
  dispatch s (fun s =>
    if s.encBound = pidNone then raiseFault .encoderUnbound s
    else
      match romRow s s.encBound with
      | none => .fault .unregisteredRow
      | some r =>
        match encodeStep r s.enc with
        | none => .fault .encoderOutOfRange
        | some (e, t) => .next (({ s with enc := e }).respond (timingResponse t)))

end Sys2Proof.Machine
end

