-- ==== Sys2Proof/Machine/System.lean ====
section
/-! DEFINITION. System.lean: the three commands that change no state (45_system_and_info.md R210 to R212). -/

namespace Sys2Proof.Machine

/-- `NOP` (R210). -/
def execNop (s : State) : StepResult :=
  dispatch s (fun s => .next (s.respond { status := .ok }))

/-- `INFO` (R211). The selector check is part of dispatch (R73 (3), R228), so it comes before the pid check. -/
def execInfo (pid : Pid) (sel : Byte) (s : State) : StepResult :=
  if maxSelector < sel then illegalFrame s
  else dispatch s (fun s =>
    match romRow s pid with
    | none => .next (s.respond { status := .errBadPid })
    | some r => .next (s.respond (infoResponse r sel)))

/-- The search of `FIND_NAME` from row `p` on: the pid of the first row whose packed name is `w`, else `PID_NONE` (R212). -/
def findRow (w : Word × Word × Word) : Nat → Rom → Pid
  | _, [] => pidNone
  | p, r :: rest => if w = packName r.name then pidOf p else findRow w (p + 1) rest

/-- `FIND_NAME` (R212). "Not found" is not an error. -/
def execFindName (n1 n2 n3 : Word) (s : State) : StepResult :=
  dispatch s (fun s => .next (s.respond { status := .ok, pid := findRow (n1, n2, n3) 0 s.rom }))

end Sys2Proof.Machine
end

