-- ==== Sys2Proof/Machine/Dispatch.lean ====
section
/-! DEFINITION. Dispatch.lean: one arm per command (30_encoding.md R70). -/

namespace Sys2Proof.Machine

def exec (i : Instr) (s : State) : Host.Outcome State Fault Refusal :=
  match i with
  | .nop => Sys2Proof.Machine.execNop s
  | .decReset => Sys2Proof.Machine.execDecReset s
  | .decSample level duration => Sys2Proof.Machine.execDecSample level duration s
  | .encLoad protocol address command rep => Sys2Proof.Machine.execEncLoad protocol address command rep s
  | .encStep => Sys2Proof.Machine.execEncStep s
  | .info pid sel => Sys2Proof.Machine.execInfo pid sel s
  | .findName n1 n2 n3 => Sys2Proof.Machine.execFindName n1 n2 n3 s

end Sys2Proof.Machine
end

