-- ==== Sys2Proof/Machine/Port.lean ====
section
/-! DEFINITION. Port.lean: the command port: how a frame becomes a command (30_encoding.md R73, R78) and what each of the
host's actions does (70_reset_and_hazards.md R250). -/

namespace Sys2Proof.Machine

/-- Take a command frame: the command it selects, or an illegal frame (R73). -/
def takeFrame (f : Frame) (s : State) : StepResult :=
  match decode f with
  | .ok i => exec i s
  | .error _ => illegalFrame s

/-- The host's next action: none, and the block holds its state (60_exceptions.md, H6); a hardware reset (R250); or a frame,
which is taken off the port, executed and answered (R55, R78). -/
def takeEvent (s : State) : StepResult :=
  match s.port with
  | [] => .next s
  | .hardwareReset :: rest => .next (hardwareReset { s with port := rest })
  | .command f :: rest => takeFrame f { s with port := rest }

end Sys2Proof.Machine
end

