-- ==== Sys2Proof/Machine/Step.lean ====
section
/-! DEFINITION. Step.lean: one step takes the host's next action. -/

namespace Sys2Proof.Machine

/-- One step of the block (30_encoding.md R55, R78; 70_reset_and_hazards.md R250). -/
def step (s : State) : Host.Outcome State Fault Refusal := takeEvent s

/-- `s` with the instruction whose low `nbits` bits are those of `w` as the next frame at the command port. -/
def State.withFetchWord (s : State) (nbits w : Nat) : State :=
  { s with port := .command (Frame.ofNat (w % 2 ^ nbits)) :: s.port }

end Sys2Proof.Machine
end

