-- ==== Sys2Proof/Machine/Channel.lean ====
section
/-! DEFINITION. Channel.lean: what stands between encoder output and decoder input: the emitted sequence
(43_encode_engine.md R181), `Merge` (R182), and the feeding of one context (R183). None of it is part of the block; the
round trip is stated with it. -/

namespace Sys2Proof.Machine

/-- One pulse on the channel: its duration in microseconds and its level. Sums of durations do not wrap here. -/
structure Pulse where
  duration : Nat
  level : Level
deriving DecidableEq, Repr

/-- The pulse of an emitted timing. -/
def Timing.pulse (t : Timing) : Pulse := { duration := t.duration.toNat, level := t.level }

/-- `Merge` with the pulse `(d, l)` still open (R182). -/
def mergeOpen (d : Nat) (l : Level) : List Pulse → List Pulse
  | [] => [{ duration := d, level := l }]
  | p :: rest =>
    if p.level = l then mergeOpen (d + p.duration) l rest
    else { duration := d, level := l } :: mergeOpen p.duration p.level rest

/-- `Merge`: neighbouring timings of equal level are joined (R182). -/
def merge : List Pulse → List Pulse
  | [] => []
  | p :: rest => mergeOpen p.duration p.level rest

/-- The results of `n` consecutive `EncodeStep`s (R181), with the context after them. -/
def emit (r : RomRow) : Nat → EncCtx → Option (List Timing × EncCtx)
  | 0, e => some ([], e)
  | n + 1, e =>
    match encodeStep r e with
    | none => none
    | some (e', t) =>
      match emit r n e' with
      | none => none
      | some (ts, e'') => some (t :: ts, e'')

/-- The messages a context returns on a sequence of samples, in order, and the context after it (R183). -/
def feed (r : RomRow) (pid : Pid) : List Pulse → DecCtx → Except FaultCause (List Message × DecCtx)
  | [], c => .ok ([], c)
  | p :: rest, c =>
    match decodeStep r pid c p.level (BitVec.ofNat 32 p.duration) with
    | .error cause => .error cause
    | .ok (m, c') =>
      match feed r pid rest c' with
      | .error cause => .error cause
      | .ok (ms, c'') => .ok (m.toList ++ ms, c'')

/-- The payload timings of a PDWM frame (R181): bit `i` of the packed data gives a Mark and a Space. -/
def pdwmPayload (r : RomRow) (data : Nat) : Nat → Nat → List Timing
  | _, 0 => []
  | i, n + 1 =>
    { duration := if data.testBit i then r.bit1Mark else r.bit0Mark, level := true, done := false }
      :: { duration := if data.testBit i then r.bit1Space else r.bit0Space, level := false, done := false }
      :: pdwmPayload r data (i + 1) n

/-- The payload timings of a Manchester frame (R181): two halves per bit, the last with `Done`. -/
def manchesterPayload (r : RomRow) (data : Nat) : Nat → Nat → List Timing
  | _, 0 => []
  | i, n + 1 =>
    { duration := halfDuration r i, level := data.testBit i ^^ r.manInv, done := false }
      :: { duration := halfDuration r i, level := !(data.testBit i) ^^ r.manInv, done := decide (i + 1 = r.databitLen) }
      :: manchesterPayload r data (i + 1) n

/-- The silence and the preamble that begin every cycle (R172 to R174, R181). -/
def frameHead (r : RomRow) : List Timing :=
  [{ duration := r.silence, level := false, done := false },
    { duration := r.preambleMark, level := true, done := false },
    { duration := r.preambleSpace, level := false, done := false }]

/-- The first cycle of a row after `EncReset`, in closed form (R181). -/
def frameTimings (r : RomRow) (data : Nat) : List Timing :=
  match r.codec with
  | .pdwm => frameHead r ++ pdwmPayload r data 0 r.databitLen ++ [{ duration := r.bit1Mark, level := true, done := true }]
  | .manchester => frameHead r ++ manchesterPayload r data 0 r.databitLen

/-- The messages the round trip is over, per layout: fields within their widths and, for NECext, an address that does not
self-complement (42_protocol_adapters.md R154). An extension adapter promises nothing. -/
def validMessage (r : RomRow) (m : Message) : Prop :=
  match r.layout with
  | .nec => m.address.toNat < 256 ∧ m.command.toNat < 256
  | .necExt => m.address.toNat < 65536 ∧ m.command.toNat < 256 ∧ accByte m.address 0 ≠ ~~~ accByte m.address 1
  | .samsung32 => m.address.toNat < 256 ∧ m.command.toNat < 256
  | .rc6 => m.address.toNat < 256 ∧ m.command.toNat < 256
  | .ext _ => False

/-- The repeat code of a row as timings: the gap, then the other elements, odd ones Marks, the last with `Done` (R179). -/
def repeatTimings (r : RomRow) : List Timing :=
  { duration := r.repGap, level := false, done := false }
    :: r.repTail.mapIdx (fun i e =>
      { duration := e.nominal, level := decide ((i + 1) % 2 = 1), done := decide (i + 2 = r.repLen) })

/-- How many timings the first cycle has (R180). -/
def frameLength (r : RomRow) : Nat :=
  match r.codec with
  | .pdwm => 2 * r.databitLen + 4
  | .manchester => 2 * r.databitLen + 3

end Sys2Proof.Machine
end

