-- ==== Sys2Proof/Safety.lean ====
section
/-! DEFINITION. Safety.lean: the invariants of 10_state.md R25 and of the registers' stated ranges, and the terms in which
the statements speak of outcomes. -/

namespace Sys2Proof.Machine

/-- The most timings a context of row `r` holds between commands: `max(1, rep_len - 1)` (R25 (f)). -/
def pendingBound (r : RomRow) : Nat := max 1 (r.repLen - 1)

/-- The invariant of context `p` of row `r` (R25 (a), (e), (f); R13, R14, R20, R22, R97). -/
structure CtxInv (p : Nat) (r : RomRow) (c : DecCtx) : Prop where
  /-- R25 (f); with `rep_len <= 6` it gives R25 (a). -/
  pending : c.timings.length ≤ pendingBound r
  /-- R13. -/
  count : c.databitCnt ≤ r.databitLen
  /-- R97: bits above `databit_cnt` are 0. -/
  data : c.data < 2 ^ c.databitCnt
  /-- R25 (e). -/
  boundary : c.state = .decode → r.codec = .manchester → c.switchDetect = false → c.databitCnt < r.databitLen
  /-- R103: in the middle of bit `databit_cnt - 1`. -/
  middle : c.state = .decode → r.codec = .manchester → c.switchDetect = true → 0 < c.databitCnt
  /-- R125, R127: ProcessRepeat is entered with a message of this row, on a row with a repeat pattern. -/
  holding : c.state = .processRepeat → 0 < r.repLen ∧ c.message.protocol = pidOf p
  /-- R14: a pid of this context or `PID_NONE`. -/
  protocol : c.message.protocol = pidNone ∨ c.message.protocol = pidOf p
  /-- R20: the PDWM codec does not write the flag. -/
  switchIdle : r.codec = .pdwm → c.switchDetect = false
  /-- R22: only the RC6 layout writes the register. -/
  toggleIdle : r.layout ≠ .rc6 → c.prevToggle = false

/-- The contexts at which one call of `Run` on `p` evaluates its state (R123): `p` itself; the fresh context after a preamble
(R122); and, back in WaitPreamble, what a demodulator's or a repeat matcher's Error left (R124, R127). -/
inductive Passes (r : RomRow) (p : DecCtx) : DecCtx → Prop where
  | start : Passes r p p
  | preamble {q q' : DecCtx} : Passes r p q → q.state = .waitPreamble → checkPreamble r q = (true, q') →
      Passes r p { q' with state := .decode, data := 0, databitCnt := 0, switchDetect := false }
  | decodeError {q q' : DecCtx} : Passes r p q → q.state = .decode → decodeBits r q = (.error, q') →
      Passes r p { q' with state := .waitPreamble }
  | repeatError {q q' : DecCtx} : Passes r p q → q.state = .processRepeat → decodeRepeat r q = (.error, q') →
      Passes r p { q' with state := .waitPreamble }

/-- Where the encoder's counters stand in each state (R17, R172 to R179). -/
def encPosition (r : RomRow) (e : EncCtx) : Prop :=
  match e.state with
  | .space => e.timingsEncoded = 0 ∧ e.bitsEncoded = 0
  | .preamble => (e.timingsEncoded = 1 ∨ e.timingsEncoded = 2) ∧ e.bitsEncoded = 0
  | .encode =>
    match r.codec with
    | .pdwm =>
      (e.bitsEncoded < r.databitLen ∧ (e.timingsEncoded = 3 + 2 * e.bitsEncoded ∨ e.timingsEncoded = 4 + 2 * e.bitsEncoded))
        ∨ (e.bitsEncoded = r.databitLen ∧ e.timingsEncoded = 3 + 2 * e.bitsEncoded)
    | .manchester =>
      e.bitsEncoded < r.databitLen ∧ (e.timingsEncoded = 3 + 2 * e.bitsEncoded ∨ e.timingsEncoded = 4 + 2 * e.bitsEncoded)
  | .encodeRepeat => 0 < r.repLen ∧ e.timingsEncoded < r.repLen ∧ e.bitsEncoded = 0

/-- The invariant of the encoder context bound to row `r` (R17, R18, R23). -/
structure EncInv (r : RomRow) (e : EncCtx) : Prop where
  position : encPosition r e
  /-- R18: `databit_len` bits. -/
  data : e.data < 2 ^ r.databitLen
  /-- R23: other layouts do not write the toggle. -/
  toggleIdle : r.layout ≠ .rc6 → e.toggle = false

/-- The invariant of the machine: the ROM can be built (R45), one context per row (R10), each in its range, the encoder
unbound at its reset value or bound to a registered row (R15, R24), and `FAULT_CAUSE` 0 while `FAULT = 0` (R24) and else one
of the two reachable causes (R221, R223: the other two cannot be raised). -/
structure State.Inv (s : State) : Prop where
  rom : romOk s.rom = true
  contexts : s.dec.length = s.rom.length
  ctx : ∀ p r c, s.rom[p]? = some r → s.dec[p]? = some c → CtxInv p r c
  enc : (s.encBound = pidNone ∧ s.enc = EncCtx.reset) ∨ ∃ r, romRow s s.encBound = some r ∧ EncInv r s.enc
  noFault : s.fault = false → s.faultCause = 0#8
  faulted : s.fault = true →
    s.faultCause = FaultCause.unknownProtocol.code ∨ s.faultCause = FaultCause.encoderUnbound.code

/-- The commands of the decoder path (20_memory.md R57). -/
def decoderCommand : Instr → Bool
  | .nop => false
  | .decReset => true
  | .decSample _ _ => true
  | .encLoad _ _ _ _ => false
  | .encStep => false
  | .info _ _ => false
  | .findName _ _ _ => false

/-- The commands of the encoder path (20_memory.md R57). -/
def encoderCommand : Instr → Bool
  | .nop => false
  | .decReset => false
  | .decSample _ _ => false
  | .encLoad _ _ _ _ => true
  | .encStep => true
  | .info _ _ => false
  | .findName _ _ _ => false

/-- The state a step ends in, if it is a next state. -/
def stateAfter (o : StepResult) : Option State :=
  match o with
  | .next s => some s
  | .fault _ => none
  | .refused _ => none

/-- A block that serves commands: its ROM can be built and no fault has happened (R73 (1)). -/
def State.serving (s : State) : Bool := romOk s.rom && !s.fault

/-- `s` and `t` agree on everything but the response last presented. -/
def sameButResponse (s t : State) : Prop := { s with response := none } = { t with response := none }

end Sys2Proof.Machine
end

