-- ==== Sys2Proof/Certificates/Slice0/Obligations.lean ====
section
/-! DEFINITION. Obligations.lean: the statements about the model, from the numbered rules of spec/. Where a statement says that
a command answers a next state by an equation, that equation is its whole frame: every field not written in it is the
field of the state before. -/

open Sys2Proof Sys2Proof.Machine

/-! ## Encoding and decoding (30_encoding.md) -/

/-- R71, R72: decoding the frame of a well-formed command gives the command back, for every operand value. -/
def Obligations.DecodeInvertsEncode : Prop :=
  ∀ i : Instr, i.wf = true → decode (encode i) = .ok i

/-- R73, R74: every legal frame is the frame of the well-formed command it selects, so each command has exactly one frame and
any non-zero must-be-zero field makes a frame illegal. -/
def Obligations.EncodeInvertsDecode : Prop :=
  ∀ (f : Frame) (i : Instr), decode f = .ok i → i.wf = true ∧ encode i = f

/-- R73 (2), (3): a frame is legal exactly when one of the seven pairs of R72 selects it and, for `INFO`, its selector is at
most 4. -/
def Obligations.LegalFramesAreTheSelectedOnes : Prop :=
  ∀ f : Frame, (∃ i, decode f = .ok i) ↔
    ∃ p, p ∈ patterns ∧ p.selects f = true ∧ (p = infoPattern → f.sel.toNat ≤ 4)

/-- R79, and 95_test_vectors.md V1, V90: worked encodings of the spec, word for word. -/
def Obligations.WorkedEncodingsDecode : Prop :=
  decode ⟨0x00000000#32, 0#32, 0#32, 0#32⟩ = .ok .nop
    ∧ decode ⟨0x01000000#32, 0#32, 0#32, 0#32⟩ = .ok .decReset
    ∧ decode ⟨0x02000001#32, 0x00002328#32, 0#32, 0#32⟩ = .ok (.decSample true 9000#32)
    ∧ decode ⟨0x03030000#32, 0x00000004#32, 0x00000021#32, 0#32⟩ = .ok (.encLoad 3#8 4#32 0x21#32 false)
    ∧ decode ⟨0x04000000#32, 0#32, 0#32, 0#32⟩ = .ok .encStep
    ∧ decode ⟨0x05030300#32, 0#32, 0#32, 0#32⟩ = .ok (.info 3#8 3#8)
    ∧ decode ⟨0x06000000#32, 0x736D6153#32, 0x33676E75#32, 0x00000032#32⟩
        = .ok (.findName 0x736D6153#32 0x33676E75#32 0x00000032#32)
    ∧ decode ⟨0x05000500#32, 0#32, 0#32, 0#32⟩ = .error .badSelector
    ∧ decode ⟨0x03000100#32, 0#32, 0x0000000C#32, 0#32⟩ = .error .nonzeroField
    ∧ decode ⟨0x07000000#32, 0#32, 0#32, 0#32⟩ = .error .unassignedOpcode

/-- R75, R76, R77: where the fields of a response lie in `R0`, and its other words; the code of each of the six statuses; and "no
result": a response that carries only a status has pid `0xFF` and every other field 0. -/
def Obligations.ResponseFieldsLieAsStated : Prop :=
  (∀ r : Response,
    r.frame.w0.extractLsb' 0 8 = r.status.code ∧ r.frame.w0.getLsbD 8 = r.level ∧ r.frame.w0.getLsbD 9 = r.rep
      ∧ r.frame.w0.extractLsb' 10 6 = 0#6 ∧ r.frame.w0.extractLsb' 16 8 = r.pid ∧ r.frame.w0.extractLsb' 24 8 = r.cause
      ∧ r.frame.w1 = r.r1 ∧ r.frame.w2 = r.r2 ∧ r.frame.w3 = r.r3)
  ∧ (Status.ok.code = 0x00#8 ∧ Status.msg.code = 0x01#8 ∧ Status.done.code = 0x02#8 ∧ Status.errIllegal.code = 0x80#8
    ∧ Status.errBadPid.code = 0x81#8 ∧ Status.fault.code = 0xFF#8)
  ∧ ∀ status : Status, ({ status := status } : Response).frame
      = { w0 := 0x00FF00#24 ++ status.code, w1 := 0#32, w2 := 0#32, w3 := 0#32 }

/-! ## The port, illegal frames and reset (30_encoding.md R73, R78; 70_reset_and_hazards.md R250) -/

/-- R73, R78: when the frame at the port decodes to a command, the step takes the frame off the port and is that command's
`exec`; nothing else is added around it. -/
def Obligations.StepRunsTheDecodedCommand : Prop :=
  ∀ (s : State) (f : Frame) (rest : List HostEvent) (i : Instr),
    s.port = .command f :: rest → decode f = .ok i → step s = exec i { s with port := rest }

/-- R73 (3), R225 (2): an illegal frame is answered `ERR_ILLEGAL` with no other result, and no state changes. The second clause,
`exec` of an `INFO` with a selector above 4, which no legal frame decodes to, is the model's choice (DEDUCED,
notes/assumptions/16.md): it answers as the frame would. -/
def Obligations.IllegalFramesChangeNothing : Prop :=
  ∀ s : State, s.serving = true →
    (∀ (f : Frame) (rest : List HostEvent), s.port = .command f :: rest → (∀ i, decode f ≠ .ok i) →
      step s = .next (({ s with port := rest }).respond { status := .errIllegal }))
    ∧ (∀ (pid : Pid) (sel : Byte), 4 < sel.toNat → exec (.info pid sel) s = .next (s.respond { status := .errIllegal }))

/-- R31, R250: after hardware reset every piece of state has the value of the table of R31; the ROM is not affected. That the
host's later actions stay at the port and that no response is presented is the model's choice (entry 7). -/
def Obligations.HardwareResetGivesTheResetTable : Prop :=
  ∀ (s : State) (rest : List HostEvent), s.port = .hardwareReset :: rest →
    ∃ t, step s = .next t ∧ t.fault = false ∧ t.faultCause = 0#8 ∧ t.encBound = 0xFF#8
      ∧ t.enc.state = .space ∧ t.enc.timingsEncoded = 0 ∧ t.enc.bitsEncoded = 0 ∧ t.enc.data = 0 ∧ t.enc.toggle = false
      ∧ t.dec.length = s.rom.length
      ∧ (∀ c ∈ t.dec, c.state = .waitPreamble ∧ c.timingsCnt = 0 ∧ (∀ i, i < 6 → c.slot i = 0#32) ∧ c.data = 0
          ∧ c.databitCnt = 0 ∧ c.switchDetect = false ∧ c.lastLevel = true
          ∧ c.message = { protocol := 0xFF#8, address := 0#32, command := 0#32, rep := false } ∧ c.prevToggle = false)
      ∧ t.rom = s.rom ∧ t.port = rest ∧ t.response = none

/-- R75, R76: every command that answers a next state presents a response frame; its status is one of the six codes and its
bits 15:10 are zero. -/
def Obligations.EveryCommandIsAnswered : Prop :=
  ∀ (i : Instr) (s t : State), exec i s = .next t →
    ∃ f, t.response = some f ∧ f.w0.extractLsb' 10 6 = 0#6
      ∧ f.w0.extractLsb' 0 8 ∈ [0x00#8, 0x01#8, 0x02#8, 0x80#8, 0x81#8, 0xFF#8]

/-! ## Faults (60_exceptions.md) -/

/-- R73 (1), R224, R226: while `FAULT = 1` every command, and every frame at the port, legal or not, is answered with the
fault response and changes nothing. -/
def Obligations.FaultedBlockOnlyReportsItsFault : Prop :=
  ∀ s : State, romOk s.rom = true → s.fault = true →
    (∀ i : Instr, exec i s = .next (s.respond { status := .fault, cause := s.faultCause }))
    ∧ (∀ (f : Frame) (rest : List HostEvent), s.port = .command f :: rest →
        step s = .next (({ s with port := rest }).respond { status := .fault, cause := s.faultCause }))

/-- R226: only hardware reset clears `FAULT`. -/
def Obligations.OnlyHardwareResetClearsFault : Prop :=
  ∀ s t : State, step s = .next t → s.fault = true → t.fault = false → ∃ rest, s.port = .hardwareReset :: rest

/-- R220, R222, R223, R224: exactly when a command raises a fault: `ENC_LOAD` with an unregistered protocol, `ENC_STEP` with
no encoder bound, `DEC_SAMPLE` with a context that alternates its level while it holds 6 timings. `NOP`, `DEC_RESET`, `INFO`
and `FIND_NAME` raise none. -/
def Obligations.WhenCommandsFault : Prop :=
  ∀ (i : Instr) (s : State), s.serving = true → s.dec.length = s.rom.length →
    ((∃ t, exec i s = .next t ∧ t.fault = true) ↔
      (∃ protocol address command rep, i = .encLoad protocol address command rep ∧ s.rom.length ≤ protocol.toNat)
      ∨ (i = .encStep ∧ s.encBound = 0xFF#8)
      ∨ (∃ level duration c, i = .decSample level duration ∧ c ∈ s.dec ∧ level ≠ c.lastLevel ∧ 6 ≤ c.timingsCnt))

/-- R224: faults are precise: a command that faults changes only `FAULT` and `FAULT_CAUSE`, and answers the fault response.
The cause is that of R220 for the command, and never `PROTOCOL_MISMATCH` (R223). -/
def Obligations.FaultsArePrecise : Prop :=
  ∀ (i : Instr) (s t : State), exec i s = .next t → s.fault = false → t.fault = true →
    t = ({ s with fault := true, faultCause := t.faultCause }).respond { status := .fault, cause := t.faultCause }
      ∧ ((∃ protocol address command rep, i = .encLoad protocol address command rep ∧ t.faultCause = 0x01#8)
        ∨ (∃ level duration, i = .decSample level duration ∧ t.faultCause = 0x02#8)
        ∨ (i = .encStep ∧ t.faultCause = 0x03#8))

/-- R222: `ENC_LOAD` of an unregistered pid, `0xFF` included, raises `UNKNOWN_PROTOCOL` before anything is written. -/
def Obligations.EncLoadOfUnknownProtocolFaults : Prop :=
  ∀ (s : State) (protocol : Pid) (address command : Word) (rep : Bool), s.serving = true →
    (s.rom.length ≤ protocol.toNat ∨ protocol = 0xFF#8) →
    exec (.encLoad protocol address command rep) s
      = .next (({ s with fault := true, faultCause := 0x01#8 }).respond { status := .fault, cause := 0x01#8 })

/-- R223, R198: `ENC_STEP` while the encoder is unbound raises `ENCODER_UNBOUND`. -/
def Obligations.EncStepWhileUnboundFaults : Prop :=
  ∀ s : State, s.serving = true → s.encBound = 0xFF#8 →
    exec .encStep s
      = .next (({ s with fault := true, faultCause := 0x03#8 }).respond { status := .fault, cause := 0x03#8 })

/-- R221, R96: a sample that alternates the level of a context already holding 6 timings faults the whole command with
`TIMING_OVERFLOW`, and every context is left as it was. -/
def Obligations.DecSampleOverflowFaults : Prop :=
  ∀ (s : State) (level : Level) (duration : Duration) (p : Nat) (c : DecCtx), s.serving = true →
    s.dec.length = s.rom.length → s.dec[p]? = some c → level ≠ c.lastLevel → 6 ≤ c.timingsCnt →
    exec (.decSample level duration) s
      = .next (({ s with fault := true, faultCause := 0x02#8 }).respond { status := .fault, cause := 0x02#8 })

/-! ## The commands that change no state (45_system_and_info.md) -/

/-- R210: `NOP` answers `OK` while `FAULT = 0` and the fault status while `FAULT = 1`, and changes nothing. -/
def Obligations.NopReadsTheFaultStatus : Prop :=
  ∀ s : State, romOk s.rom = true →
    exec .nop s = .next (s.respond
      (if s.fault then { status := .fault, cause := s.faultCause } else { status := .ok }))

/-- R211: `INFO` of a registered pid answers the field its selector names, the name packed little-endian; of an unregistered
pid, `ERR_BADPID`; nothing changes. -/
def Obligations.InfoReadsTheRom : Prop :=
  ∀ (s : State) (pid : Pid), s.serving = true →
    (∀ r, s.rom[pid.toNat]? = some r →
      exec (.info pid 0#8) s = .next (s.respond
        { status := .ok, r1 := nameWord r.name 0, r2 := nameWord r.name 1, r3 := nameWord r.name 2 })
      ∧ exec (.info pid 1#8) s = .next (s.respond { status := .ok, r1 := r.addressLength })
      ∧ exec (.info pid 2#8) s = .next (s.respond { status := .ok, r1 := r.commandLength })
      ∧ exec (.info pid 3#8) s = .next (s.respond { status := .ok, r1 := r.carrierFreq })
      ∧ exec (.info pid 4#8) s = .next (s.respond { status := .ok, r1 := r.dutyCycle }))
    ∧ (∀ sel : Byte, sel.toNat ≤ 4 → s.rom.length ≤ pid.toNat →
      exec (.info pid sel) s = .next (s.respond { status := .errBadPid }))

/-- R48 (b), R211: character `k` of a name of at most 12 bytes is in word `k div 4`, bits `8*(k mod 4)+7 : 8*(k mod 4)`;
every other byte is 0. -/
def Obligations.NamesArePackedLittleEndian : Prop :=
  ∀ (name : List Byte) (k : Nat), k < 12 →
    (nameWord name (k / 4)).extractLsb' (8 * (k % 4)) 8 = if h : k < name.length then name[k] else 0#8

/-- R212: `FIND_NAME` of the packed name of row `p` answers `p`, whichever row that is, since names are unique; of a name
that no row has, `PID_NONE` with status `OK`; nothing changes. -/
def Obligations.FindNameFindsTheRow : Prop :=
  ∀ (s : State) (n1 n2 n3 : Word), s.serving = true →
    (∀ p r, s.rom[p]? = some r → (n1, n2, n3) = packName r.name →
      exec (.findName n1 n2 n3) s = .next (s.respond { status := .ok, pid := pidOf p }))
    ∧ ((∀ r ∈ s.rom, (n1, n2, n3) ≠ packName r.name) →
      exec (.findName n1 n2 n3) s = .next (s.respond { status := .ok, pid := 0xFF#8 }))

/-- R51: `NOP`, `INFO` and `FIND_NAME` change no state and give the same response every time; `DEC_RESET` is idempotent. -/
def Obligations.ReadingCommandsRepeat : Prop :=
  ∀ (i : Instr) (s t : State), exec i s = .next t →
    ((i = .nop ∨ (∃ pid sel, i = .info pid sel) ∨ ∃ n1 n2 n3, i = .findName n1 n2 n3) →
      t = { s with response := t.response } ∧ exec i t = .next t)
    ∧ (i = .decReset → exec i t = .next t)

/-! ## Decoder Handler commands (44_handler_commands.md) -/

/-- R191: `DEC_RESET` gives every context, one per ROM row, its reset value, and changes nothing else. -/
def Obligations.DecResetRestoresEveryContext : Prop :=
  ∀ (s : State) (fresh : DecCtx), s.serving = true →
    fresh.state = .waitPreamble → fresh.timings = [] → fresh.data = 0 → fresh.databitCnt = 0 →
    fresh.switchDetect = false → fresh.lastLevel = true →
    fresh.message = { protocol := 0xFF#8, address := 0#32, command := 0#32, rep := false } → fresh.prevToggle = false →
    exec .decReset s = .next (({ s with dec := List.replicate s.rom.length fresh }).respond { status := .ok })

/-- R192, R194, R195: when no context overflows, `DEC_SAMPLE` completes: every context takes its `DecodeStep`, the message of
the smallest pid that produced one is answered, and nothing but the contexts changes. -/
def Obligations.DecSampleStepsEveryContext : Prop :=
  ∀ (s : State) (level : Level) (duration : Duration), s.serving = true → s.dec.length = s.rom.length →
    (∀ c ∈ s.dec, level = c.lastLevel ∨ c.timingsCnt < 6) →
    ∃ m t, exec (.decSample level duration) s = .next t
      ∧ t = ({ s with dec := t.dec }).respond (match m with
          | none => { status := .ok }
          | some msg =>
            { status := .msg, rep := msg.rep, pid := msg.protocol, r1 := msg.address, r2 := msg.command })
      ∧ t.dec.length = s.rom.length
      ∧ (∀ p r c, s.rom[p]? = some r → s.dec[p]? = some c →
          ∃ m' c', decodeStep r (pidOf p) c level duration = .ok (m', c') ∧ t.dec[p]? = some c')
      ∧ (∀ msg, m = some msg ↔
          ∃ p r c c', s.rom[p]? = some r ∧ s.dec[p]? = some c
            ∧ decodeStep r (pidOf p) c level duration = .ok (some msg, c')
            ∧ ∀ q r' b, q < p → s.rom[q]? = some r' → s.dec[q]? = some b →
                ∃ b', decodeStep r' (pidOf q) b level duration = .ok (none, b'))

/-- R10: the contexts are separate: what a sample does to context `p` depends on that context and the ROM alone. -/
def Obligations.ContextsAreSeparate : Prop :=
  ∀ (s s' t t' : State) (level : Level) (duration : Duration) (p : Nat),
    s.fault = false → s'.fault = false → s.rom = s'.rom → s.dec[p]? = s'.dec[p]? →
    exec (.decSample level duration) s = .next t → exec (.decSample level duration) s' = .next t' →
    t.fault = false → t'.fault = false → t.dec[p]? = t'.dec[p]?

/-- R25 (f), R221: in every state that meets the invariant a `DEC_SAMPLE` completes without a fault, whatever the sample. -/
def Obligations.SamplesNeverOverflow : Prop :=
  ∀ (s : State) (level : Level) (duration : Duration), s.Inv → s.fault = false →
    ∃ t, exec (.decSample level duration) s = .next t ∧ t.fault = false

/-! ## The decode engine (40_matchers_and_codecs.md, 41_decode_engine.md) -/

/-- R90, R92, R93, R102: the matchers are strict inequalities on the exact difference, and which tolerance each match uses: a
bit's timing the absolute `bit_tol` (R101), a preamble's timing the relative `preamble_tol_pm` (R121), a Manchester width the
unscaled `bit_tol` around `n` units, of which at most one `n` can match, and a repeat element the one or the other by its kind
(R126). `h(r, i)` is 2 at `dbl_index` and 1 elsewhere. -/
def Obligations.MatchersAreStrict : Prop :=
  ∀ x nominal : Duration,
    (∀ tolPm : Nat, matchRel x.toNat nominal.toNat tolPm = true ↔
      |(x.toNat : Int) - nominal.toNat| * 1000 < nominal.toNat * tolPm)
    ∧ (∀ tol : Nat, matchAbs x.toNat nominal.toNat tol = true ↔ |(x.toNat : Int) - nominal.toNat| < tol)
    ∧ ∀ r : RomRow,
      (matchBit r x nominal = true ↔ |(x.toNat : Int) - nominal.toNat| < r.bitTol.toNat)
      ∧ (matchPreamble r x nominal = true ↔ |(x.toNat : Int) - nominal.toNat| * 1000 < nominal.toNat * r.preambleTolPm)
      ∧ (∀ e : RepElem,
        (e.kind = .rel → (matchRepElem r x e = true ↔
          |(x.toNat : Int) - e.nominal.toNat| * 1000 < e.nominal.toNat * r.preambleTolPm))
        ∧ (e.kind = .abs → (matchRepElem r x e = true ↔ |(x.toNat : Int) - e.nominal.toNat| < r.bitTol.toNat)))
      ∧ (∀ n : Nat, matchUnits x.toNat n r = true ↔ |(x.toNat : Int) - n * r.bitUnit.toNat| < r.bitTol.toNat)
      ∧ (rowOk r = true → r.codec = .manchester → ∀ m n : Nat,
        matchUnits x.toNat m r = true → matchUnits x.toNat n r = true → m = n)
      ∧ (∀ i : Nat, halfWidth r i = if r.dblIndex = some i then 2 else 1)

/-- R101, on a well-formed PDWM row: with bits still to come, fewer than two timings wait; a pair on a Mark that matches the
pair of bit `b` is consumed, stores `b` and the demodulator goes on; any other pair is an error. With all bits in, a stop Mark
is consumed and the payload is ready, any other timing is an error, and an empty buffer waits. An error changes nothing. -/
def Obligations.PdwmDemodulator : Prop :=
  ∀ (r : RomRow) (c : DecCtx), rowOk r = true → r.codec = .pdwm →
    (c.databitCnt < r.databitLen → c.timingsCnt < 2 → decodeBits r c = (.ok, c))
    ∧ (c.databitCnt < r.databitLen → ∀ t0 t1 rest, c.timings = t0 :: t1 :: rest →
        (∀ b : Bool, c.level 0 = true → matchBit r t0 (if b then r.bit1Mark else r.bit0Mark) = true →
          matchBit r t1 (if b then r.bit1Space else r.bit0Space) = true →
          decodeBits r c = decodeBits r
            { c with timings := rest, data := (c.accumulate b).data, databitCnt := c.databitCnt + 1 })
        ∧ ((c.level 0 = false ∨ ∀ b : Bool, ¬ (matchBit r t0 (if b then r.bit1Mark else r.bit0Mark) = true
            ∧ matchBit r t1 (if b then r.bit1Space else r.bit0Space) = true)) →
          decodeBits r c = (.error, c)))
    ∧ (c.databitCnt = r.databitLen → c.timings = [] → decodeBits r c = (.ok, c))
    ∧ (c.databitCnt = r.databitLen → ∀ t0 rest, c.timings = t0 :: rest →
        decodeBits r c = if c.level 0 = true ∧ matchBit r t0 r.bit1Mark = true then (.ready, { c with timings := rest })
          else (.error, c))

/-- R102, R103, R104, on a well-formed Manchester row: at a bit boundary the timing must be the half of the next bit, whose
value its level gives; in the middle of a bit it is the closing half alone, or that half joined with the first half of the next
bit. The payload is ready with the closing half of the last bit, or with its first half if that is a Mark. Any other width is
an error, which changes nothing. -/
def Obligations.ManchesterDemodulator : Prop :=
  ∀ (r : RomRow) (c : DecCtx), rowOk r = true → r.codec = .manchester →
    (c.timings = [] → decodeBits r c = (.ok, c))
    ∧ ∀ (x : Duration) (rest : List Duration) (first closing : DecCtx), c.timings = x :: rest →
      first = { c with
        timings := rest, data := (c.accumulate (c.level 0 ^^ r.manInv)).data, databitCnt := c.databitCnt + 1,
        switchDetect := true } →
      closing = { c with timings := rest, switchDetect := false } →
      ((c.switchDetect = false ∧ matchUnits x.toNat (halfWidth r c.databitCnt) r = true)
          ∨ (c.switchDetect = true ∧ c.databitCnt < r.databitLen
            ∧ matchUnits x.toNat (halfWidth r (c.databitCnt - 1) + halfWidth r c.databitCnt) r = true ∧ 0 < c.databitCnt) →
        decodeBits r c = if c.databitCnt + 1 = r.databitLen ∧ c.level 0 = true then (.ready, first) else decodeBits r first)
      ∧ (c.switchDetect = true ∧ matchUnits x.toNat (halfWidth r (c.databitCnt - 1)) r = true →
        decodeBits r c = if c.databitCnt = r.databitLen then (.ready, closing) else decodeBits r closing)
      ∧ (c.switchDetect = false ∧ matchUnits x.toNat (halfWidth r c.databitCnt) r = false →
        decodeBits r c = (.error, c))
      ∧ (c.switchDetect = true ∧ 0 < c.databitCnt ∧ matchUnits x.toNat (halfWidth r (c.databitCnt - 1)) r = false
          ∧ (c.databitCnt < r.databitLen →
            matchUnits x.toNat (halfWidth r (c.databitCnt - 1) + halfWidth r c.databitCnt) r = false) →
        decodeBits r c = (.error, c))

/-- R94, R95, R96, R97: `Consume` moves slot `i + n` to slot `i`, zeroes the rest and leaves the levels of the remaining
timings; `Append` writes slot `timings_cnt` and is refused at 6; `Accumulate` writes bit `databit_cnt` of `data`, no other bit,
and counts it. None writes another register. -/
def Obligations.BufferAndAccumulatorPrimitives : Prop :=
  ∀ (c : DecCtx) (n : Nat) (d : Duration) (b : Bool), c.timingsCnt ≤ 6 → n ≤ c.timingsCnt →
    ((c.consume n).timingsCnt = c.timingsCnt - n
      ∧ (∀ i, i < 6 → (c.consume n).slot i = if i + n ≤ 5 ∧ i + n < c.timingsCnt then c.slot (i + n) else 0#32)
      ∧ (∀ i, i + n < c.timingsCnt → (c.consume n).level i = c.level (i + n))
      ∧ c.consume n = { c with timings := (c.consume n).timings })
    ∧ (c.timingsCnt = 6 → c.append d = .error .timingOverflow)
    ∧ (c.timingsCnt < 6 → ∃ c', c.append d = .ok c' ∧ c'.timingsCnt = c.timingsCnt + 1
        ∧ (∀ i, i < 6 → c'.slot i = if i = c.timingsCnt then d else c.slot i)
        ∧ c' = { c with timings := c'.timings })
    ∧ ((∀ i, (c.accumulate b).data.testBit i = if i = c.databitCnt then b else c.data.testBit i)
      ∧ c.accumulate b = { c with data := (c.accumulate b).data, databitCnt := c.databitCnt + 1 })

/-- R120: a repeated level discards every pending timing and nothing else: what the sample does is what it does to the same
context with an empty buffer. An alternating level discards nothing: the state machine runs on the pending timings and the
new one. -/
def Obligations.RepeatedLevelDropsPendingTimings : Prop :=
  ∀ (r : RomRow) (pid : Pid) (c : DecCtx) (duration : Duration),
    decodeStep r pid c c.lastLevel duration = decodeStep r pid { c with timings := [] } c.lastLevel duration
    ∧ decodeStep r pid c c.lastLevel duration = .ok (run r pid { c with timings := [duration] })
    ∧ (c.timingsCnt < 6 → decodeStep r pid c (!c.lastLevel) duration
        = .ok (run r pid { c with timings := c.timings ++ [duration], lastLevel := !c.lastLevel }))

/-- R121: `CheckPreamble` writes only the buffer. On a match, the pair it found is the first one that starts on a Mark and
matches the preamble within the relative tolerance, and it and everything before it is consumed. It answers no only if no pair
that starts on a Mark matches; then a newest Mark stays alone in the buffer, waiting for its Space, and a newest Space leaves
nothing. -/
def Obligations.PreambleWindow : Prop :=
  ∀ (r : RomRow) (c c' : DecCtx) (found : Bool), checkPreamble r c = (found, c') →
    c' = { c with timings := c'.timings }
    ∧ (found = true → ∃ before mark space, c.timings = before ++ mark :: space :: c'.timings
        ∧ c.level before.length = true
        ∧ matchPreamble r mark r.preambleMark = true ∧ matchPreamble r space r.preambleSpace = true
        ∧ ∀ i m s, i < before.length → c.timings[i]? = some m → c.timings[i + 1]? = some s → c.level i = true →
            ¬ (matchPreamble r m r.preambleMark = true ∧ matchPreamble r s r.preambleSpace = true))
    ∧ (found = false →
        (∀ i m s, c.timings[i]? = some m → c.timings[i + 1]? = some s → c.level i = true →
          ¬ (matchPreamble r m r.preambleMark = true ∧ matchPreamble r s r.preambleSpace = true))
        ∧ c'.timings = if c.lastLevel then c.timings.drop (c.timings.length - 1) else [])

/-- R100: on `Error` a demodulator has consumed nothing of the timings it rejects: run again on what it left, it rejects them
again and changes nothing. -/
def Obligations.ErrorsConsumeNothing : Prop :=
  ∀ (r : RomRow) (c c' : DecCtx), decodeBits r c = (.error, c') → decodeBits r c' = (.error, c')

/-- R123 to R127: what the state machine does in each state, with at most 6 pending timings. `WaitPreamble`: a preamble clears
the accumulator, the count and the flag and goes on in `Decode`. `Decode`: an error goes on in `WaitPreamble`; a complete
payload that interprets is the message returned, and the row's repeat pattern decides between `ProcessRepeat` and
`WaitPreamble`; one that does not interpret returns nothing, in `WaitPreamble`. `ProcessRepeat`: a repeat code returns the held
message with `repeat = 1`; an error goes on in `WaitPreamble`. -/
def Obligations.RunFollowsTheStateMachine : Prop :=
  ∀ (r : RomRow) (pid : Pid) (c : DecCtx), c.timingsCnt ≤ 6 →
    (c.state = .waitPreamble → ∀ found c1, checkPreamble r c = (found, c1) →
      run r pid c = if found then run r pid { c1 with data := 0, databitCnt := 0, switchDetect := false, state := .decode }
        else (none, c1))
    ∧ (c.state = .decode → ∀ st c1, decodeBits r c = (st, c1) →
      (st = .ok → run r pid c = (none, c1))
      ∧ (st = .error → run r pid c = run r pid { c1 with state := .waitPreamble })
      ∧ (st = .ready → interpret r pid c1 = none → run r pid c = (none, { c1 with state := .waitPreamble }))
      ∧ (st = .ready → ∀ c2, interpret r pid c1 = some c2 →
        run r pid c = (some c2.message, { c2 with state := if 0 < r.repLen then .processRepeat else .waitPreamble })))
    ∧ (c.state = .processRepeat → ∀ st c1, decodeRepeat r c = (st, c1) →
      (st = .ok → run r pid c = (none, c1))
      ∧ (st = .error → run r pid c = run r pid { c1 with state := .waitPreamble })
      ∧ (st = .ready → run r pid c
        = (some { c1.message with rep := true }, { c1 with message := { c1.message with rep := true } })))

/-- R129, R124, R127, R258: a Space of any length and the row's preamble bring a context to the first bit of a new frame. On a
PDWM row whose preamble Mark is no bit's Mark, and outside ProcessRepeat, nothing is returned and the held message stays. On a
Manchester row without a repeat pattern whose preamble Mark matches no width, only the Space can return a message, by closing
the frame that was under way. In ProcessRepeat, on a row whose pattern the preamble does not match, the decision waits for
`rep_len` timings, and the frame's timings after its preamble are then run from its first bit: it is recognised late, and not
lost. -/
def Obligations.PreambleResynchronises : Prop :=
  ∀ (r : RomRow) (pid : Pid) (c : DecCtx) (silence : Duration) (lead : List Pulse), rowOk r = true →
    lead = [{ duration := silence.toNat, level := false }, { duration := r.preambleMark.toNat, level := true },
      { duration := r.preambleSpace.toNat, level := false }] →
    (r.codec = .pdwm →
      matchBit r r.preambleMark r.bit1Mark = false → matchBit r r.preambleMark r.bit0Mark = false →
      c.state ≠ .processRepeat → c.timingsCnt ≤ 1 →
      (c.state = .decode → c.databitCnt = r.databitLen → c.timings = []) →
      ∃ c', feed r pid lead c = .ok ([], c')
        ∧ c'.state = .decode ∧ c'.timings = [] ∧ c'.data = 0 ∧ c'.databitCnt = 0 ∧ c'.switchDetect = false
        ∧ c'.message = c.message ∧ c'.prevToggle = c.prevToggle)
    ∧ (r.codec = .manchester → r.repLen = 0 →
      (∀ n, 1 ≤ n → n ≤ 4 → matchUnits r.preambleMark.toNat n r = false) →
      c.state ≠ .processRepeat → c.timingsCnt ≤ 1 → (c.state = .decode → c.timings = []) →
      ∃ m c1 c', decodeStep r pid c false silence = .ok (m, c1) ∧ (c.state = .waitPreamble → m = none)
        ∧ feed r pid lead c = .ok (m.toList, c')
        ∧ c'.state = .decode ∧ c'.timings = [] ∧ c'.data = 0 ∧ c'.databitCnt = 0 ∧ c'.switchDetect = false
        ∧ c'.message = c1.message ∧ c'.prevToggle = c1.prevToggle)
    ∧ (c.state = .processRepeat → 0 < r.repLen → (c.timings = [] ∨ c.lastLevel = false) →
      ¬ (∀ i e x, i < r.repLen - 1 → r.repTail[i]? = some e → [r.preambleMark, r.preambleSpace][i]? = some x →
        matchRepElem r x e = true) →
      ∀ (rest : List Duration) (fresh : DecCtx), rest.length = r.repLen - 3 →
        fresh = { c with
          state := .decode, timings := rest, data := 0, databitCnt := 0, switchDetect := false,
          lastLevel := decide (rest ≠ []) } →
        feed r pid (lead ++ rest.mapIdx (fun i d => { duration := d.toNat, level := decide (i % 2 = 0) })) c
          = .ok ((run r pid fresh).1.toList, (run r pid fresh).2))

/-- R128: with at most 6 pending timings the loop of `Run` ends, by a turn that returns, within 8 turns: what it answers does not
depend on the result `dflt` that stands for a bound reached, and allowing more turns changes nothing. -/
def Obligations.RunEndsWithinEightTurns : Prop :=
  ∀ (r : RomRow) (pid : Pid) (c : DecCtx) (n : Nat) (dflt : Option Message), c.timingsCnt ≤ 6 → 8 ≤ n →
    iterate (engineTurn r pid) dflt n c = iterate (engineTurn r pid) none 8 c

/-- R25 (c), R122, R125, R127, R140: where a message comes from. Let `p` be the context with the sample taken in (R120). Either
the context was in ProcessRepeat, `DecodeRepeat` recognised a repeat code in `p`, and the message is the held one with
`repeat = 1`; or the demodulator was ready with all `databit_len` bits in and the message is what `Interpret` wrote of them. It
ran on `p` in state Decode, or after `CheckPreamble` had found a preamble, in `p` or in what an Error left of it in the same
call, on what the preamble left: the newest timings of `p`, and a cleared accumulator. -/
def Obligations.MessagesComeFromInterpret : Prop :=
  ∀ (r : RomRow) (pid : Pid) (c p c' : DecCtx) (level : Level) (duration : Duration) (m : Message),
    p = { c with
      timings := (if level = c.lastLevel then [] else c.timings) ++ [duration]
      lastLevel := level } →
    decodeStep r pid c level duration = .ok (some m, c') →
    c'.message = m
      ∧ ((c.state = .processRepeat ∧ ∃ c1, decodeRepeat r p = (.ready, c1) ∧ m = { c.message with rep := true }
            ∧ c' = { c1 with message := m })
        ∨ ∃ c1 c2 c3, ((c.state = .decode ∧ c1 = p)
              ∨ ∃ q q' n, Passes r p q ∧ q.state = .waitPreamble ∧ checkPreamble r q = (true, q')
                ∧ q'.timings = p.timings.drop n
                ∧ c1 = { p with
                  state := .decode, timings := q'.timings, data := 0, databitCnt := 0, switchDetect := false })
            ∧ decodeBits r c1 = (.ready, c2) ∧ c2.databitCnt = r.databitLen
            ∧ interpret r pid c2 = some c3 ∧ c3.message = m
            ∧ c' = { c3 with state := if 0 < r.repLen then .processRepeat else .waitPreamble })

/-- R125, R140: a sample that returns no message writes neither the held message nor the toggle: a failed decode never
surfaces a partially populated message. -/
def Obligations.NoMessageNoWrite : Prop :=
  ∀ (r : RomRow) (pid : Pid) (c c' : DecCtx) (level : Level) (duration : Duration),
    decodeStep r pid c level duration = .ok (none, c') →
    c'.message = c.message ∧ c'.prevToggle = c.prevToggle
      ∧ (c'.state = .processRepeat → c.state = .processRepeat)

/-! ## Protocol adapters (42_protocol_adapters.md) -/

/-- R141, R142, R143: the three 32-bit interprets, in arithmetic: `b k` is byte `k` of the accumulator; two bytes are
complements when their sum is 255. On success only the message is written; on failure nothing is. -/
def Obligations.ByteInterprets : Prop :=
  ∀ (pid : Pid) (c : DecCtx) (b : Nat → Nat) (message : Word → Message), (∀ k, b k = c.data / 2 ^ (8 * k) % 256) →
    (∀ address, message address =
      { protocol := pid, address := address, command := BitVec.ofNat 32 (b 2), rep := false }) →
    interpretNec pid c = (if b 2 + b 3 = 255 ∧ b 0 + b 1 = 255 then
        some { c with message := message (BitVec.ofNat 32 (b 0)) }
      else none)
    ∧ interpretNecExt pid c = (if b 2 + b 3 = 255 ∧ b 0 + b 1 ≠ 255 then
        some { c with message := message (BitVec.ofNat 32 (256 * b 1 + b 0)) }
      else none)
    ∧ interpretSamsung32 pid c = (if b 2 + b 3 = 255 ∧ b 0 = b 1 then
        some { c with message := message (BitVec.ofNat 32 (b 0)) }
      else none)

/-- R144: the RC6 interpret, bit by bit: it succeeds when bit 0 is 1 and bits 1 to 3 are 0; address and command are bits 12
down to 5 and 20 down to 13 in reversed order; the repeat flag compares the held message and the previous toggle, which is
then bit 4. On failure nothing is written. -/
def Obligations.Rc6Interpret : Prop :=
  ∀ (pid : Pid) (c : DecCtx),
    (¬ (c.data.testBit 0 = true ∧ c.data.testBit 1 = false ∧ c.data.testBit 2 = false ∧ c.data.testBit 3 = false) →
      interpretRc6 pid c = none)
    ∧ (c.data.testBit 0 = true → c.data.testBit 1 = false → c.data.testBit 2 = false → c.data.testBit 3 = false →
      ∃ c', interpretRc6 pid c = some c'
        ∧ c' = { c with message := c'.message, prevToggle := c.data.testBit 4 }
        ∧ c'.message.protocol = pid
        ∧ (∀ i, c'.message.address.getLsbD i = (decide (i < 8) && c.data.testBit (12 - i)))
        ∧ (∀ i, c'.message.command.getLsbD i = (decide (i < 8) && c.data.testBit (20 - i)))
        ∧ (c'.message.rep = true ↔ c.message.protocol = pid ∧ c.message.address = c'.message.address
            ∧ c.message.command = c'.message.command ∧ c.prevToggle = c.data.testBit 4))

/-- R145, R142: of the NEC and NECext interprets on one payload, exactly one succeeds when the command check holds, and none
otherwise. -/
def Obligations.NecAndNecExtAreExclusive : Prop :=
  ∀ (p q : Pid) (a b : DecCtx), a.data = b.data →
    (commandChecks a.acc32 = true → (interpretNec p a).isSome ≠ (interpretNecExt q b).isSome)
    ∧ (commandChecks a.acc32 = false → interpretNec p a = none ∧ interpretNecExt q b = none)

/-- R150, R151, R152: the three 32-bit packs, in arithmetic; upper bits of the operands are dropped. -/
def Obligations.BytePacks : Prop :=
  ∀ address command : Word,
    (packNec address command).toNat = address.toNat % 256 + 256 * (255 - address.toNat % 256)
        + 65536 * (command.toNat % 256) + 16777216 * (255 - command.toNat % 256)
    ∧ (packNecExt address command).toNat = address.toNat % 65536
        + 65536 * (command.toNat % 256) + 16777216 * (255 - command.toNat % 256)
    ∧ (packSamsung32 address command).toNat = address.toNat % 256 + 256 * (address.toNat % 256)
        + 65536 * (command.toNat % 256) + 16777216 * (255 - command.toNat % 256)

/-- R153: the RC6 pack, bit by bit: start 1, mode 0, the toggle, address and command reversed; the register is then
inverted. -/
def Obligations.Rc6Pack : Prop :=
  ∀ (r : RomRow) (e : EncCtx) (msg : Message), r.layout = .rc6 →
    packInto r e msg = { e with data := (packInto r e msg).data, toggle := !e.toggle }
    ∧ (∀ i, (packInto r e msg).data.testBit i =
        if i = 0 then true
        else if i < 4 then false
        else if i = 4 then e.toggle
        else if i < 13 then msg.address.getLsbD (12 - i)
        else if i < 21 then msg.command.getLsbD (20 - i)
        else false)

/-- R154: interpret of a packed valid message succeeds and gives its address and command back, for every base layout. -/
def Obligations.InterpretInvertsPack : Prop :=
  ∀ (r : RomRow) (pid : Pid) (c : DecCtx) (e : EncCtx) (msg : Message), validMessage r msg →
    ∃ c', interpret r pid { c with data := (packInto r e msg).data } = some c'
      ∧ c'.message.protocol = pid ∧ c'.message.address = msg.address ∧ c'.message.command = msg.command
      ∧ (r.layout ≠ .rc6 → c'.message.rep = false ∧ c'.prevToggle = c.prevToggle)

/-! ## Encoder Handler commands and the encode engine (43_encode_engine.md, 44_handler_commands.md) -/

/-- R196, R197, R170, R149: `ENC_LOAD` of a registered protocol binds the encoder to it, resets the engine, packs the
message, and changes nothing else; the toggle is 0 after a rebind, else what it was, and inverted by an RC6 pack. What an
extension layout packs is the model's choice (DESIGN CHOICE, notes/assumptions/5.md): a free function of address and command,
cut to `databit_len` bits, with the toggle kept. -/
def Obligations.EncLoadBindsAndPacks : Prop :=
  ∀ (s : State) (r : RomRow) (protocol : Pid) (address command : Word) (rep : Bool), s.serving = true →
    s.rom[protocol.toNat]? = some r →
    ∃ e, exec (.encLoad protocol address command rep) s
        = .next (({ s with encBound := protocol, enc := e }).respond { status := .ok })
      ∧ e.state = .space ∧ e.timingsEncoded = 0 ∧ e.bitsEncoded = 0
      ∧ (∀ tog : Bool, tog = (if s.encBound = protocol then s.enc.toggle else false) →
        match r.layout with
        | .nec => e.data = (packNec address command).toNat ∧ e.toggle = tog
        | .necExt => e.data = (packNecExt address command).toNat ∧ e.toggle = tog
        | .samsung32 => e.data = (packSamsung32 address command).toNat ∧ e.toggle = tog
        | .rc6 => e.data = (packRc6 tog address command).toNat ∧ e.toggle = !tog
        | .ext k => e.data = Config.extPack k address command % 2 ^ r.databitLen ∧ e.toggle = tog)

/-- R51, R153, R256: loading the same message twice gives the same state for every base layout but RC6, and for RC6 a state
that differs in the toggle and in bit 4 of the data, and in nothing else, so that a third load gives the state of the first.
That an extension layout is idempotent too is the model's choice (DESIGN CHOICE, notes/assumptions/5.md). -/
def Obligations.ReloadingFlipsOnlyTheRc6Toggle : Prop :=
  ∀ (s t u v : State) (r : RomRow) (protocol : Pid) (address command : Word) (rep : Bool), s.serving = true →
    s.rom[protocol.toNat]? = some r →
    exec (.encLoad protocol address command rep) s = .next t →
    exec (.encLoad protocol address command rep) t = .next u →
    exec (.encLoad protocol address command rep) u = .next v →
    (r.layout ≠ .rc6 → u = t)
    ∧ (r.layout = .rc6 →
        u = { t with enc := { t.enc with data := u.enc.data, toggle := !t.enc.toggle } }
        ∧ (∀ i, u.enc.data.testBit i = if i = 4 then !t.enc.data.testBit 4 else t.enc.data.testBit i)
        ∧ v = t)

/-- R198, R77: `ENC_STEP` of a bound encoder whose counters are in range completes: it emits the engine's one timing, writes
the engine's registers, and changes nothing else. -/
def Obligations.EncStepEmitsOneTiming : Prop :=
  ∀ (s : State) (r : RomRow), s.serving = true → s.encBound ≠ 0xFF#8 → s.rom[s.encBound.toNat]? = some r →
    EncInv r s.enc →
    ∃ e t, encodeStep r s.enc = some (e, t) ∧ e.data = s.enc.data ∧ e.toggle = s.enc.toggle
      ∧ exec .encStep s = .next (({ s with enc := e }).respond
          { status := if t.done then .done else .ok, level := t.level, r1 := t.duration })

/-- R172, R173, R174: the silence, the preamble Mark and the preamble Space, each with status `Ok`. The silence comes first: the
first timing after an `ENC_LOAD` is that Space, and a row without a repeat pattern stands in state Space after every `Done`. A
step that ends in state Preamble has emitted one timing or two. -/
def Obligations.SilenceAndPreamble : Prop :=
  ∀ (r : RomRow) (e : EncCtx),
    (e.state = .space → encodeStep r e = some ({ e with timingsEncoded := 1, state := .preamble },
      { duration := r.silence, level := false, done := false }))
    ∧ (e.state = .preamble → e.timingsEncoded = 1 → encodeStep r e = some ({ e with timingsEncoded := 2 },
      { duration := r.preambleMark, level := true, done := false }))
    ∧ (e.state = .preamble → e.timingsEncoded = 2 →
      encodeStep r e = some ({ e with timingsEncoded := 3, bitsEncoded := 0, state := .encode },
        { duration := r.preambleSpace, level := false, done := false }))
    ∧ (∀ e' t, encodeStep r e = some (e', t) →
      (e'.state = .preamble → e'.timingsEncoded = 1 ∨ e'.timingsEncoded = 2)
      ∧ (r.repLen = 0 → t.done = true → e'.state = .space))
    ∧ ∀ (s t : State) (protocol : Pid) (address command : Word) (rep : Bool), s.serving = true →
      s.rom[protocol.toNat]? = some r → exec (.encLoad protocol address command rep) s = .next t →
      exec .encStep t = .next (({ t with enc := { t.enc with timingsEncoded := 1, state := .preamble } }).respond
        { status := .ok, level := false, r1 := r.silence })

/-- R180, R178, R25 (d), R259: `Done` comes only from `Encode` or `EncodeRepeat`; after it the counters are 0 and the next
timing, the first of a new cycle, is the silence of a row without a repeat pattern, else the gap: a Space in both cases. -/
def Obligations.DoneEndsACycle : Prop :=
  ∀ (r : RomRow) (e e' : EncCtx) (t : Timing), rowOk r = true → encodeStep r e = some (e', t) → t.done = true →
    (e.state = .encode ∨ e.state = .encodeRepeat)
    ∧ e'.timingsEncoded = 0 ∧ e'.data = e.data ∧ e'.toggle = e.toggle
    ∧ (e.state = .encode → e'.bitsEncoded = 0 ∧ e'.state = if 0 < r.repLen then .encodeRepeat else .space)
    ∧ (e.state = .encodeRepeat → e'.state = .encodeRepeat)
    ∧ ∃ e'' t', encodeStep r e' = some (e'', t') ∧ t'.level = false ∧ t'.done = false
        ∧ t'.duration = if e'.state = .space then r.silence else r.repGap

/-- R181, R180, R176, R177: after `EncReset` the first cycle is the closed form: silence, preamble, the payload of the row's
codec, and for PDWM the stop Mark; `2N + 4` or `2N + 3` timings, the last and only the last with `Done`; then the engine
stands at the beginning of the next cycle with its data and toggle unchanged. On a Manchester row a half of payload bit `i`
lasts `h(r, i) * bit_unit` exactly (R102, R177). -/
def Obligations.FirstCycleClosedForm : Prop :=
  ∀ (r : RomRow) (bound : Pid) (e0 e : EncCtx) (msg : Message), rowOk r = true → encReset bound r e0 msg = .ok e →
    emit r (frameLength r) e = some (frameTimings r e.data,
      { e with state := if 0 < r.repLen then .encodeRepeat else .space, timingsEncoded := 0, bitsEncoded := 0 })
    ∧ (frameTimings r e.data).length = frameLength r
    ∧ (∀ i t, (frameTimings r e.data)[i]? = some t → (t.done = true ↔ i + 1 = frameLength r))
    ∧ (r.codec = .manchester → ∀ i, (halfDuration r i).toNat = (if r.dblIndex = some i then 2 else 1) * r.bitUnit.toNat)

/-- R179: from the start of its cycle, `EncodeRepeat` emits the row's repeat pattern, the gap first, odd elements Marks, the
last with `Done`, and is back where it was. -/
def Obligations.RepeatPatternCycles : Prop :=
  ∀ (r : RomRow) (e : EncCtx), rowOk r = true → 0 < r.repLen → e.state = .encodeRepeat → e.timingsEncoded = 0 →
    emit r r.repLen e = some (repeatTimings r, e)

/-! ## The channel and the round trip (43_encode_engine.md R182 to R184) -/

/-- R182: `Merge` gives strictly alternating levels, keeps the total duration, and changes nothing that alternates already. -/
def Obligations.MergeAlternates : Prop :=
  ∀ ps : List Pulse,
    List.IsChain (fun a b : Pulse => a.level ≠ b.level) (merge ps)
    ∧ ((merge ps).map Pulse.duration).sum = (ps.map Pulse.duration).sum
    ∧ (List.IsChain (fun a b : Pulse => a.level ≠ b.level) ps → merge ps = ps)

/-- R183 for PDWM rows, over every well-formed row: a context fed the first cycle of a valid message returns exactly one
message, with the stop Mark and not before, and it is that message with `repeat = 0`. It is then held, with an empty buffer
after a Mark, as RepeatCodesReemitTheMessage takes it up. -/
def Obligations.PdwmRoundTrip : Prop :=
  ∀ (r : RomRow) (pid : Pid) (e0 e e1 : EncCtx) (msg : Message) (ts : List Timing), rowOk r = true → r.codec = .pdwm →
    pid ≠ 0xFF#8 → validMessage r msg → encReset msg.protocol r e0 msg = .ok e →
    emit r (frameLength r) e = some (ts, e1) →
    ∃ c0 c, ts.getLast? = some { duration := r.bit1Mark, level := true, done := true }
      ∧ feed r pid (ts.dropLast.map Timing.pulse) DecCtx.reset = .ok ([], c0)
      ∧ decodeStep r pid c0 true r.bit1Mark
        = .ok (some { protocol := pid, address := msg.address, command := msg.command, rep := false }, c)
      ∧ feed r pid (ts.map Timing.pulse) DecCtx.reset
        = .ok ([{ protocol := pid, address := msg.address, command := msg.command, rep := false }], c)
      ∧ c.state = (if 0 < r.repLen then .processRepeat else .waitPreamble) ∧ c.timings = [] ∧ c.lastLevel = true
      ∧ c.message = { protocol := pid, address := msg.address, command := msg.command, rep := false }

/-- R183, R184 for Manchester rows of the RC6 layout whose 1 bit is Mark then Space (with the other inversion the start bit would
merge with the preamble Space) and whose joined pulses fit 32 bits. The merged first cycle and the first timing of the next
give exactly the message back, with the last Mark of the payload and not before. On a row without a repeat pattern a second
cycle without a new `ENC_LOAD` is decoded as the same message with `repeat = 1`, and one after a new `ENC_LOAD` of the message,
which flips the toggle, with `repeat = 0`. -/
def Obligations.Rc6RoundTrip : Prop :=
  ∀ (r : RomRow) (pid : Pid) (e0 e : EncCtx) (msg : Message) (decoded : Bool → Message), rowOk r = true →
    r.codec = .manchester → r.layout = .rc6 → r.manInv = false → r.bitUnit.toNat < 2 ^ 30 →
    pid ≠ 0xFF#8 → validMessage r msg → encReset msg.protocol r e0 msg = .ok e →
    (∀ rep, decoded rep = { protocol := pid, address := msg.address, command := msg.command, rep := rep }) →
    (∀ ts e1, emit r (frameLength r + 1) e = some (ts, e1) →
      ∃ before mark space c0 c1 c, merge (ts.map Timing.pulse)
          = before ++ [{ duration := mark, level := true }, { duration := space, level := false }]
        ∧ feed r pid before DecCtx.reset = .ok ([], c0)
        ∧ decodeStep r pid c0 true (BitVec.ofNat 32 mark) = .ok (some (decoded false), c1)
        ∧ decodeStep r pid c1 false (BitVec.ofNat 32 space) = .ok (none, c)
        ∧ feed r pid (merge (ts.map Timing.pulse)) DecCtx.reset = .ok ([decoded false], c))
    ∧ (r.repLen = 0 → ∀ ts e1, emit r (2 * frameLength r + 1) e = some (ts, e1) →
      ∃ c, feed r pid (merge (ts.map Timing.pulse)) DecCtx.reset = .ok ([decoded false, decoded true], c))
    ∧ (r.repLen = 0 → ∀ ts ts' e1 e2 e3, emit r (frameLength r) e = some (ts, e1) → encReset msg.protocol r e1 msg = .ok e2 →
      emit r (frameLength r + 1) e2 = some (ts', e3) →
      ∃ c, feed r pid (merge ((ts ++ ts').map Timing.pulse)) DecCtx.reset = .ok ([decoded false, decoded false], c))

/-- R126, R127, R184: when `DecodeRepeat` recognises a repeat code: it waits for `rep_len` timings; then the first must be a Space
strictly inside the gap window and every further element within its own tolerance, relative or absolute by its kind; a
recognised code is consumed, anything else is an error that changes nothing. A context in ProcessRepeat with an empty buffer
after a Mark recognises the row's own repeat code: it re-emits the held message with `repeat = 1` once, and is ready for the
next. -/
def Obligations.RepeatCodesReemitTheMessage : Prop :=
  ∀ (r : RomRow) (pid : Pid) (c : DecCtx), rowOk r = true → 0 < r.repLen →
    (c.timingsCnt < r.repLen → decodeRepeat r c = (.ok, c))
    ∧ (∀ recognised : Prop,
        (recognised ↔ c.level 0 = false
          ∧ r.repGapMin.toNat < (c.slot 0).toNat ∧ (c.slot 0).toNat < r.repGapMax.toNat
          ∧ ∀ i e, r.repTail[i]? = some e →
            (e.kind = .rel →
              |((c.slot (i + 1)).toNat : Int) - e.nominal.toNat| * 1000 < e.nominal.toNat * r.preambleTolPm)
            ∧ (e.kind = .abs → |((c.slot (i + 1)).toNat : Int) - e.nominal.toNat| < r.bitTol.toNat)) →
        r.repLen ≤ c.timingsCnt →
        (recognised → decodeRepeat r c = (.ready, { c with timings := c.timings.drop r.repLen }))
        ∧ (¬ recognised → decodeRepeat r c = (.error, c)))
    ∧ (c.state = .processRepeat → c.timings = [] → c.lastLevel = true →
        feed r pid ((repeatTimings r).map Timing.pulse) c
          = .ok ([{ c.message with rep := true }], { c with message := { c.message with rep := true } }))

/-! ## The whole machine -/

/-- R31, R25: the reset state of every ROM that can be built, the reference ROM among them, meets the invariant. -/
def Obligations.ResetMeetsTheInvariant : Prop :=
  (∀ rom : Rom, romOk rom = true → (State.resetWith rom).Inv) ∧ State.reset.Inv

/-- R25, R24, R221, R223: every step, command, reset or idle, keeps the invariant. -/
def Obligations.StepKeepsTheInvariant : Prop :=
  ∀ s t : State, s.Inv → step s = .next t → t.Inv

/-- In every state that meets the invariant, every command and every step answers a next state: the model's own stops are
unreachable. -/
def Obligations.NothingStopsTheMachine : Prop :=
  ∀ s : State, s.Inv → (∀ i : Instr, ∃ t, exec i s = .next t) ∧ ∃ t, step s = .next t

/-- R46: the ROM is immutable, whatever the step. The second clause is the model's choice (DEDUCED, notes/assumptions/3.md): a
block whose ROM fails the model's reading of R45, with the fixed values of the base rows, executes no command. -/
def Obligations.TheRomNeverChanges : Prop :=
  (∀ s t : State, step s = .next t → t.rom = s.rom)
  ∧ (∀ (s : State) (i : Instr), romOk s.rom = false → exec i s = .refused .illFormedRom)

/-- R26, R57: frames: decoder commands touch neither the encoder nor its binding, encoder commands no decoder context, and
no command the ROM or the port. -/
def Obligations.CommandFrames : Prop :=
  ∀ (i : Instr) (s t : State), exec i s = .next t →
    t.rom = s.rom ∧ t.port = s.port
    ∧ (decoderCommand i = false → t.dec = s.dec)
    ∧ (encoderCommand i = false → t.enc = s.enc ∧ t.encBound = s.encBound)
    ∧ (i = .encStep → t.encBound = s.encBound ∧ t.enc.data = s.enc.data ∧ t.enc.toggle = s.enc.toggle)
    ∧ (s.fault = true → t = { s with response := t.response })

/-- R57: as long as neither faults, a decoder command and an encoder command commute: either order gives the same final state
and the same two responses. -/
def Obligations.DecoderAndEncoderCommute : Prop :=
  ∀ (s t1 t2 u1 u2 : State) (a b : Instr), decoderCommand a = true → encoderCommand b = true →
    exec a s = .next t1 → exec b t1 = .next t2 → exec b s = .next u1 → exec a u1 = .next u2 →
    t2.fault = false → u2.fault = false →
    sameButResponse t2 u2 ∧ t1.response = u2.response ∧ t2.response = u1.response
end

