-- ==== Sys2Proof/Laws/State.lean ====
section
/-! SUPPORT. Laws/State.lean: one lemma per field per update of the records, true by `rfl`, so that no later proof unfolds a
record update. -/

namespace Sys2Proof.Machine

/-! ### `DecCtx.consume` -/

@[simp] theorem DecCtx.consume_state (c : DecCtx) (n : Nat) : (c.consume n).state = c.state := rfl
@[simp] theorem DecCtx.consume_timings (c : DecCtx) (n : Nat) : (c.consume n).timings = c.timings.drop n := rfl
@[simp] theorem DecCtx.consume_data (c : DecCtx) (n : Nat) : (c.consume n).data = c.data := rfl
@[simp] theorem DecCtx.consume_databitCnt (c : DecCtx) (n : Nat) : (c.consume n).databitCnt = c.databitCnt := rfl
@[simp] theorem DecCtx.consume_switchDetect (c : DecCtx) (n : Nat) : (c.consume n).switchDetect = c.switchDetect := rfl
@[simp] theorem DecCtx.consume_lastLevel (c : DecCtx) (n : Nat) : (c.consume n).lastLevel = c.lastLevel := rfl
@[simp] theorem DecCtx.consume_message (c : DecCtx) (n : Nat) : (c.consume n).message = c.message := rfl
@[simp] theorem DecCtx.consume_prevToggle (c : DecCtx) (n : Nat) : (c.consume n).prevToggle = c.prevToggle := rfl

/-! ### `DecCtx.accumulate` -/

@[simp] theorem DecCtx.accumulate_state (c : DecCtx) (b : Bool) : (c.accumulate b).state = c.state := rfl
@[simp] theorem DecCtx.accumulate_timings (c : DecCtx) (b : Bool) : (c.accumulate b).timings = c.timings := rfl
@[simp] theorem DecCtx.accumulate_data (c : DecCtx) (b : Bool) : (c.accumulate b).data = writeBit c.data c.databitCnt b := rfl
@[simp] theorem DecCtx.accumulate_databitCnt (c : DecCtx) (b : Bool) : (c.accumulate b).databitCnt = c.databitCnt + 1 := rfl
@[simp] theorem DecCtx.accumulate_switchDetect (c : DecCtx) (b : Bool) : (c.accumulate b).switchDetect = c.switchDetect := rfl
@[simp] theorem DecCtx.accumulate_lastLevel (c : DecCtx) (b : Bool) : (c.accumulate b).lastLevel = c.lastLevel := rfl
@[simp] theorem DecCtx.accumulate_message (c : DecCtx) (b : Bool) : (c.accumulate b).message = c.message := rfl
@[simp] theorem DecCtx.accumulate_prevToggle (c : DecCtx) (b : Bool) : (c.accumulate b).prevToggle = c.prevToggle := rfl

/-! ### `DecCtx.setLastLevel` -/

@[simp] theorem DecCtx.setLastLevel_state (c : DecCtx) (l : Level) : (c.setLastLevel l).state = c.state := rfl
@[simp] theorem DecCtx.setLastLevel_timings (c : DecCtx) (l : Level) : (c.setLastLevel l).timings = c.timings := rfl
@[simp] theorem DecCtx.setLastLevel_data (c : DecCtx) (l : Level) : (c.setLastLevel l).data = c.data := rfl
@[simp] theorem DecCtx.setLastLevel_databitCnt (c : DecCtx) (l : Level) : (c.setLastLevel l).databitCnt = c.databitCnt := rfl
@[simp] theorem DecCtx.setLastLevel_switchDetect (c : DecCtx) (l : Level) : (c.setLastLevel l).switchDetect = c.switchDetect := rfl
@[simp] theorem DecCtx.setLastLevel_lastLevel (c : DecCtx) (l : Level) : (c.setLastLevel l).lastLevel = l := rfl
@[simp] theorem DecCtx.setLastLevel_message (c : DecCtx) (l : Level) : (c.setLastLevel l).message = c.message := rfl
@[simp] theorem DecCtx.setLastLevel_prevToggle (c : DecCtx) (l : Level) : (c.setLastLevel l).prevToggle = c.prevToggle := rfl

/-! ### `DecCtx.setSwitch` -/

@[simp] theorem DecCtx.setSwitch_state (c : DecCtx) (b : Bool) : (c.setSwitch b).state = c.state := rfl
@[simp] theorem DecCtx.setSwitch_timings (c : DecCtx) (b : Bool) : (c.setSwitch b).timings = c.timings := rfl
@[simp] theorem DecCtx.setSwitch_data (c : DecCtx) (b : Bool) : (c.setSwitch b).data = c.data := rfl
@[simp] theorem DecCtx.setSwitch_databitCnt (c : DecCtx) (b : Bool) : (c.setSwitch b).databitCnt = c.databitCnt := rfl
@[simp] theorem DecCtx.setSwitch_switchDetect (c : DecCtx) (b : Bool) : (c.setSwitch b).switchDetect = b := rfl
@[simp] theorem DecCtx.setSwitch_lastLevel (c : DecCtx) (b : Bool) : (c.setSwitch b).lastLevel = c.lastLevel := rfl
@[simp] theorem DecCtx.setSwitch_message (c : DecCtx) (b : Bool) : (c.setSwitch b).message = c.message := rfl
@[simp] theorem DecCtx.setSwitch_prevToggle (c : DecCtx) (b : Bool) : (c.setSwitch b).prevToggle = c.prevToggle := rfl

/-! ### `DecCtx.goTo` -/

@[simp] theorem DecCtx.goTo_state (c : DecCtx) (st : DecState) : (c.goTo st).state = st := rfl
@[simp] theorem DecCtx.goTo_timings (c : DecCtx) (st : DecState) : (c.goTo st).timings = c.timings := rfl
@[simp] theorem DecCtx.goTo_data (c : DecCtx) (st : DecState) : (c.goTo st).data = c.data := rfl
@[simp] theorem DecCtx.goTo_databitCnt (c : DecCtx) (st : DecState) : (c.goTo st).databitCnt = c.databitCnt := rfl
@[simp] theorem DecCtx.goTo_switchDetect (c : DecCtx) (st : DecState) : (c.goTo st).switchDetect = c.switchDetect := rfl
@[simp] theorem DecCtx.goTo_lastLevel (c : DecCtx) (st : DecState) : (c.goTo st).lastLevel = c.lastLevel := rfl
@[simp] theorem DecCtx.goTo_message (c : DecCtx) (st : DecState) : (c.goTo st).message = c.message := rfl
@[simp] theorem DecCtx.goTo_prevToggle (c : DecCtx) (st : DecState) : (c.goTo st).prevToggle = c.prevToggle := rfl

/-! ### `DecCtx.markRepeat` -/

@[simp] theorem DecCtx.markRepeat_state (c : DecCtx) : (c.markRepeat).state = c.state := rfl
@[simp] theorem DecCtx.markRepeat_timings (c : DecCtx) : (c.markRepeat).timings = c.timings := rfl
@[simp] theorem DecCtx.markRepeat_data (c : DecCtx) : (c.markRepeat).data = c.data := rfl
@[simp] theorem DecCtx.markRepeat_databitCnt (c : DecCtx) : (c.markRepeat).databitCnt = c.databitCnt := rfl
@[simp] theorem DecCtx.markRepeat_switchDetect (c : DecCtx) : (c.markRepeat).switchDetect = c.switchDetect := rfl
@[simp] theorem DecCtx.markRepeat_lastLevel (c : DecCtx) : (c.markRepeat).lastLevel = c.lastLevel := rfl
@[simp] theorem DecCtx.markRepeat_message (c : DecCtx) : (c.markRepeat).message = { c.message with rep := true } := rfl
@[simp] theorem DecCtx.markRepeat_prevToggle (c : DecCtx) : (c.markRepeat).prevToggle = c.prevToggle := rfl

/-! ### `DecCtx.setMessage` -/

@[simp] theorem DecCtx.setMessage_state (c : DecCtx) (p : Pid) (a m : Word) (b : Bool) : (c.setMessage p a m b).state = c.state := rfl
@[simp] theorem DecCtx.setMessage_timings (c : DecCtx) (p : Pid) (a m : Word) (b : Bool) : (c.setMessage p a m b).timings = c.timings := rfl
@[simp] theorem DecCtx.setMessage_data (c : DecCtx) (p : Pid) (a m : Word) (b : Bool) : (c.setMessage p a m b).data = c.data := rfl
@[simp] theorem DecCtx.setMessage_databitCnt (c : DecCtx) (p : Pid) (a m : Word) (b : Bool) : (c.setMessage p a m b).databitCnt = c.databitCnt := rfl
@[simp] theorem DecCtx.setMessage_switchDetect (c : DecCtx) (p : Pid) (a m : Word) (b : Bool) : (c.setMessage p a m b).switchDetect = c.switchDetect := rfl
@[simp] theorem DecCtx.setMessage_lastLevel (c : DecCtx) (p : Pid) (a m : Word) (b : Bool) : (c.setMessage p a m b).lastLevel = c.lastLevel := rfl
@[simp] theorem DecCtx.setMessage_message (c : DecCtx) (p : Pid) (a m : Word) (b : Bool) : (c.setMessage p a m b).message = { protocol := p, address := a, command := m, rep := b } := rfl
@[simp] theorem DecCtx.setMessage_prevToggle (c : DecCtx) (p : Pid) (a m : Word) (b : Bool) : (c.setMessage p a m b).prevToggle = c.prevToggle := rfl

/-! ### `enterDecode` -/

@[simp] theorem enterDecode_state (c : DecCtx) : (enterDecode c).state = .decode := rfl
@[simp] theorem enterDecode_timings (c : DecCtx) : (enterDecode c).timings = c.timings := rfl
@[simp] theorem enterDecode_data (c : DecCtx) : (enterDecode c).data = 0 := rfl
@[simp] theorem enterDecode_databitCnt (c : DecCtx) : (enterDecode c).databitCnt = 0 := rfl
@[simp] theorem enterDecode_switchDetect (c : DecCtx) : (enterDecode c).switchDetect = false := rfl
@[simp] theorem enterDecode_lastLevel (c : DecCtx) : (enterDecode c).lastLevel = c.lastLevel := rfl
@[simp] theorem enterDecode_message (c : DecCtx) : (enterDecode c).message = c.message := rfl
@[simp] theorem enterDecode_prevToggle (c : DecCtx) : (enterDecode c).prevToggle = c.prevToggle := rfl

/-! ### `EncCtx.flipToggle` -/

@[simp] theorem EncCtx.flipToggle_state (e : EncCtx) : (e.flipToggle).state = e.state := rfl
@[simp] theorem EncCtx.flipToggle_timingsEncoded (e : EncCtx) : (e.flipToggle).timingsEncoded = e.timingsEncoded := rfl
@[simp] theorem EncCtx.flipToggle_bitsEncoded (e : EncCtx) : (e.flipToggle).bitsEncoded = e.bitsEncoded := rfl
@[simp] theorem EncCtx.flipToggle_data (e : EncCtx) : (e.flipToggle).data = e.data := rfl
@[simp] theorem EncCtx.flipToggle_toggle (e : EncCtx) : (e.flipToggle).toggle = !e.toggle := rfl

/-! ### `completePayload` -/

@[simp] theorem completePayload_state (e : EncCtx) (r : RomRow) : (completePayload r e).state = if 0 < r.repLen then .encodeRepeat else .space := rfl
@[simp] theorem completePayload_timingsEncoded (e : EncCtx) (r : RomRow) : (completePayload r e).timingsEncoded = 0 := rfl
@[simp] theorem completePayload_bitsEncoded (e : EncCtx) (r : RomRow) : (completePayload r e).bitsEncoded = 0 := rfl
@[simp] theorem completePayload_data (e : EncCtx) (r : RomRow) : (completePayload r e).data = e.data := rfl
@[simp] theorem completePayload_toggle (e : EncCtx) (r : RomRow) : (completePayload r e).toggle = e.toggle := rfl

/-! ### `State.respond` -/

@[simp] theorem State.respond_rom (s : State) (r : Response) : (s.respond r).rom = s.rom := rfl
@[simp] theorem State.respond_fault (s : State) (r : Response) : (s.respond r).fault = s.fault := rfl
@[simp] theorem State.respond_faultCause (s : State) (r : Response) : (s.respond r).faultCause = s.faultCause := rfl
@[simp] theorem State.respond_dec (s : State) (r : Response) : (s.respond r).dec = s.dec := rfl
@[simp] theorem State.respond_encBound (s : State) (r : Response) : (s.respond r).encBound = s.encBound := rfl
@[simp] theorem State.respond_enc (s : State) (r : Response) : (s.respond r).enc = s.enc := rfl
@[simp] theorem State.respond_port (s : State) (r : Response) : (s.respond r).port = s.port := rfl
@[simp] theorem State.respond_response (s : State) (r : Response) : (s.respond r).response = some r.frame := rfl

/-! ### `rebind` -/

@[simp] theorem rebind_rom (s : State) (p : Pid) : (rebind p s).rom = s.rom := rfl
@[simp] theorem rebind_fault (s : State) (p : Pid) : (rebind p s).fault = s.fault := rfl
@[simp] theorem rebind_faultCause (s : State) (p : Pid) : (rebind p s).faultCause = s.faultCause := rfl
@[simp] theorem rebind_dec (s : State) (p : Pid) : (rebind p s).dec = s.dec := rfl
@[simp] theorem rebind_encBound (s : State) (p : Pid) : (rebind p s).encBound = p := rfl
@[simp] theorem rebind_enc (s : State) (p : Pid) : (rebind p s).enc = { state := .space, timingsEncoded := 0, bitsEncoded := 0, data := 0, toggle := false } := rfl
@[simp] theorem rebind_port (s : State) (p : Pid) : (rebind p s).port = s.port := rfl
@[simp] theorem rebind_response (s : State) (p : Pid) : (rebind p s).response = s.response := rfl

/-! ### `hardwareReset` -/

@[simp] theorem hardwareReset_rom (s : State) : (hardwareReset s).rom = s.rom := rfl
@[simp] theorem hardwareReset_fault (s : State) : (hardwareReset s).fault = false := rfl
@[simp] theorem hardwareReset_faultCause (s : State) : (hardwareReset s).faultCause = 0#8 := rfl
@[simp] theorem hardwareReset_dec (s : State) : (hardwareReset s).dec = s.rom.map (fun _ => DecCtx.reset) := rfl
@[simp] theorem hardwareReset_encBound (s : State) : (hardwareReset s).encBound = pidNone := rfl
@[simp] theorem hardwareReset_enc (s : State) : (hardwareReset s).enc = EncCtx.reset := rfl
@[simp] theorem hardwareReset_port (s : State) : (hardwareReset s).port = s.port := rfl
@[simp] theorem hardwareReset_response (s : State) : (hardwareReset s).response = none := rfl

/-! ### `State.resetWith` -/

@[simp] theorem State.resetWith_rom (rom : Rom) : (State.resetWith rom).rom = rom := rfl
@[simp] theorem State.resetWith_fault (rom : Rom) : (State.resetWith rom).fault = false := rfl
@[simp] theorem State.resetWith_faultCause (rom : Rom) : (State.resetWith rom).faultCause = 0#8 := rfl
@[simp] theorem State.resetWith_dec (rom : Rom) : (State.resetWith rom).dec = rom.map (fun _ => DecCtx.reset) := rfl
@[simp] theorem State.resetWith_encBound (rom : Rom) : (State.resetWith rom).encBound = pidNone := rfl
@[simp] theorem State.resetWith_enc (rom : Rom) : (State.resetWith rom).enc = EncCtx.reset := rfl
@[simp] theorem State.resetWith_port (rom : Rom) : (State.resetWith rom).port = [] := rfl
@[simp] theorem State.resetWith_response (rom : Rom) : (State.resetWith rom).response = none := rfl

end Sys2Proof.Machine
end

