-- ==== Sys2Proof/Laws/Ops.lean ====
section
/-! SUPPORT. Laws/Ops.lean: for each shared operation, one lemma that says once what it can do. -/

namespace Sys2Proof.Machine

/-! ## Dispatch and faults (R73, R224) -/

theorem serving_iff (s : State) : s.serving = true ↔ romOk s.rom = true ∧ s.fault = false := by
  simp [State.serving]

/-- What a dispatched command can do: if it answers a next state, the ROM can be built, and either the block had faulted
and only the fault response is given, or the command's own rule ran. -/
theorem dispatch_next {s t : State} {rule : State → StepResult} (h : dispatch s rule = .next t) :
    romOk s.rom = true ∧
      ((s.fault = true ∧ t = s.respond (faultResponse s.faultCause)) ∨ (s.fault = false ∧ rule s = .next t)) := by
  unfold dispatch at h
  split at h
  · rename_i hrom
    split at h
    · rename_i hf
      injection h with h
      exact ⟨hrom, .inl ⟨hf, h.symm⟩⟩
    · rename_i hf
      exact ⟨hrom, .inr ⟨by simpa using hf, h⟩⟩
  · cases h

theorem dispatch_serving {s : State} (rule : State → StepResult) (h : s.serving = true) : dispatch s rule = rule s := by
  obtain ⟨hr, hf⟩ := (serving_iff s).1 h
  simp [dispatch, hr, hf]

theorem dispatch_faulted {s : State} (rule : State → StepResult) (hr : romOk s.rom = true) (hf : s.fault = true) :
    dispatch s rule = .next (s.respond (faultResponse s.faultCause)) := by
  simp [dispatch, hr, hf]

/-- A dispatched command stops with a fault of the model only where its own rule does. -/
theorem dispatch_fault {s : State} {rule : State → StepResult} {r : Fault} (h : dispatch s rule = .fault r) :
    s.serving = true ∧ rule s = .fault r := by
  unfold dispatch at h
  split at h
  · split at h
    · cases h
    · exact ⟨by simp_all [State.serving], h⟩
  · cases h

/-- A dispatched command is refused for its ROM, or where its own rule refuses. -/
theorem dispatch_refused {s : State} {rule : State → StepResult} {r : Refusal} (h : dispatch s rule = .refused r) :
    (romOk s.rom = false ∧ r = .illFormedRom) ∨ (s.serving = true ∧ rule s = .refused r) := by
  unfold dispatch at h
  split at h
  · split at h
    · cases h
    · exact .inr ⟨by simp_all [State.serving], h⟩
  · injection h with h
    exact .inl ⟨by simp_all, h.symm⟩

theorem raiseFault_next {s t : State} {cause : FaultCause} (h : raiseFault cause s = .next t) :
    t = ({ s with fault := true, faultCause := cause.code }).respond (faultResponse cause.code) := by
  injection h with h
  exact h.symm

/-! ## The buffer (R95, R96) in the spec's slots -/

theorem append_ok_iff (c c' : DecCtx) (d : Duration) :
    c.append d = .ok c' ↔ c.timingsCnt < maxTimings ∧ c' = { c with timings := c.timings ++ [d] } := by
  unfold DecCtx.append
  split <;> simp_all [eq_comm]

theorem append_error_iff (c : DecCtx) (d : Duration) (cause : FaultCause) :
    c.append d = .error cause ↔ maxTimings ≤ c.timingsCnt ∧ cause = .timingOverflow := by
  unfold DecCtx.append
  split <;> simp_all [eq_comm]

theorem consume_timingsCnt (c : DecCtx) (n : Nat) : (c.consume n).timingsCnt = c.timingsCnt - n := by
  simp [DecCtx.timingsCnt]

theorem consume_slot (c : DecCtx) (n i : Nat) : (c.consume n).slot i = c.slot (i + n) := by
  simp [DecCtx.slot, List.getD_eq_getElem?_getD, Nat.add_comm]

theorem slot_of_timingsCnt_le (c : DecCtx) (i : Nat) (h : c.timingsCnt ≤ i) : c.slot i = 0#32 := by
  simp only [DecCtx.timingsCnt] at h
  simp [DecCtx.slot, List.getD_eq_getElem?_getD, List.getElem?_eq_none h]

/-- Consuming the oldest timings leaves the levels of the rest (R95). -/
theorem consume_level (c : DecCtx) (n i : Nat) (h : n + i < c.timingsCnt) : (c.consume n).level i = c.level (n + i) := by
  have hi : (c.consume n).timingsCnt - 1 - i = c.timingsCnt - 1 - (n + i) := by
    simp only [consume_timingsCnt]
    omega
  unfold DecCtx.level
  rw [hi]
  rfl

/-! ## The accumulator (R97) -/

theorem writeBit_testBit (d i j : Nat) (b : Bool) : (writeBit d i b).testBit j = if j = i then b else d.testBit j := by
  unfold writeBit
  rw [Nat.one_shiftLeft]
  by_cases hj : j = i
  · subst hj
    split
    · simp_all
    · cases b <;> simp_all [Nat.testBit_xor]
  · have hij : i ≠ j := fun h => hj h.symm
    split <;> simp_all [Nat.testBit_xor]

theorem writeBit_lt (d i : Nat) (b : Bool) (h : d < 2 ^ i) : writeBit d i b < 2 ^ (i + 1) := by
  have hd : d < 2 ^ (i + 1) := Nat.lt_of_lt_of_le h (Nat.pow_le_pow_right (by decide) (by omega))
  unfold writeBit
  split
  · exact hd
  · refine Nat.xor_lt_two_pow hd ?_
    rw [Nat.shiftLeft_eq, Nat.one_mul]
    exact Nat.pow_lt_pow_right (by decide) (by omega)

/-! ## Matchers (R90, R92, R93) -/

/-- `AbsDiff` is the absolute value of the exact difference (R90). -/
theorem absDiff_cast (x y : Nat) : (absDiff x y : Int) = |(x : Int) - y| := by
  unfold absDiff
  split
  · rw [abs_of_nonneg (by omega)]; omega
  · rw [abs_of_neg (by omega)]; omega

theorem matchRel_iff (x nominal tolPm : Nat) :
    matchRel x nominal tolPm = true ↔ absDiff x nominal * 1000 < nominal * tolPm := by
  simp [matchRel]

theorem matchAbs_iff (x nominal tol : Nat) : matchAbs x nominal tol = true ↔ absDiff x nominal < tol := by
  simp [matchAbs]

theorem matchUnits_iff (x n : Nat) (r : RomRow) :
    matchUnits x n r = true ↔ absDiff x (n * r.bitUnit.toNat) < r.bitTol.toNat :=
  matchAbs_iff _ _ _

/-! ## Loops (R128) -/

/-- A property that every turn keeps holds where the loop ends, if each turn that goes on makes a measure smaller and the
bound is above the measure: the bound is never reached. -/
theorem iterate_spec {α : Type} {turn : DecCtx → Turn α} {dflt : α} (P : DecCtx → Prop) (Q : α → DecCtx → Prop)
    (measure : DecCtx → Nat)
    (again : ∀ c c', P c → turn c = .again c' → P c' ∧ measure c' < measure c)
    (stop : ∀ c a c', P c → turn c = .stop a c' → Q a c') :
    ∀ n c, P c → measure c < n → Q (iterate turn dflt n c).1 (iterate turn dflt n c).2
  | 0, _, _, h => absurd h (Nat.not_lt_zero _)
  | n + 1, c, hp, h => by
    simp only [iterate]
    cases ht : turn c with
    | again c' =>
      obtain ⟨hp', hm⟩ := again c c' hp ht
      exact iterate_spec P Q measure again stop n c' hp' (by omega)
    | stop a c' => exact stop c a c' hp ht

/-- Above the measure neither the bound nor the default matters. -/
theorem iterate_stable {α : Type} {turn : DecCtx → Turn α} {dflt dflt' : α} (measure : DecCtx → Nat)
    (again : ∀ c c', turn c = .again c' → measure c' < measure c) :
    ∀ n m c, measure c < n → n ≤ m → iterate turn dflt' m c = iterate turn dflt n c
  | 0, _, _, h, _ => absurd h (Nat.not_lt_zero _)
  | n + 1, 0, _, _, hm => absurd hm (by omega)
  | n + 1, m + 1, c, h, hm => by
    simp only [iterate]
    cases ht : turn c with
    | again c' => exact iterate_stable measure again n m c' (by have := again c c' ht; omega) (by omega)
    | stop a c' => rfl

/-! ## Binding (R196, R197) -/

theorem bindFor_encBound (p : Pid) (s : State) : (bindFor p s).encBound = p := by
  unfold bindFor
  split <;> simp_all

theorem bindFor_of_bound (s : State) : bindFor s.encBound s = s := by
  simp [bindFor]

/-- The reset of the engine cannot mismatch when it is reached through `ENC_LOAD` (R170, R223). -/
theorem encReset_ok_of_bound (r : RomRow) (e : EncCtx) (msg : Message) :
    encReset msg.protocol r e msg = .ok { packInto r e msg with timingsEncoded := 0, bitsEncoded := 0, state := .space } := by
  simp [encReset]

end Sys2Proof.Machine
end

