-- ==== Sys2Proof/Laws/Decoder.lean ====
section
/-! SUPPORT. Laws/Decoder.lean: what one turn of each decoder loop can do, what the codecs, the preamble window and the repeat
matcher leave unchanged, and the ranges they keep. -/

namespace Sys2Proof.Machine

/-! ## What one turn can do -/

theorem pdwmTurn_again {r : RomRow} {c c' : DecCtx} (h : pdwmTurn r c = .again c') :
    c.databitCnt ≠ r.databitLen ∧ ∃ t0 t1 rest b, c.timings = t0 :: t1 :: rest ∧ c.level 0 = true
      ∧ pdwmBit r t0 t1 = some b ∧ c' = (c.accumulate b).consume 2 := by
  unfold pdwmTurn at h
  split at h
  · split at h
    · cases h
    · split at h <;> cases h
  · rename_i hn
    refine ⟨hn, ?_⟩
    split at h
    · rename_i t0 t1 rest ht
      split at h
      · rename_i hl
        split at h
        · rename_i b hb
          injection h with h
          exact ⟨t0, t1, rest, b, ht, hl, hb, h.symm⟩
        · cases h
      · cases h
    · cases h

theorem pdwmTurn_stop {r : RomRow} {c c' : DecCtx} {st : CodecStatus} (h : pdwmTurn r c = .stop st c') :
    (st = .ok ∧ c' = c ∧ c.timings.length ≤ 1)
    ∨ (st = .error ∧ c' = c)
    ∨ (st = .ready ∧ c' = c.consume 1 ∧ c.timings ≠ [] ∧ c.databitCnt = r.databitLen) := by
  unfold pdwmTurn at h
  split at h
  · rename_i hn
    split at h
    · rename_i ht
      injection h with h1 h2
      exact .inl ⟨h1.symm, h2.symm, by simp [ht]⟩
    · rename_i t0 rest ht
      split at h
      · injection h with h1 h2
        exact .inr (.inr ⟨h1.symm, h2.symm, by simp [ht], hn⟩)
      · injection h with h1 h2
        exact .inr (.inl ⟨h1.symm, h2.symm⟩)
  · split at h
    · split at h
      · split at h
        · cases h
        · injection h with h1 h2
          exact .inr (.inl ⟨h1.symm, h2.symm⟩)
      · injection h with h1 h2
        exact .inr (.inl ⟨h1.symm, h2.symm⟩)
    · rename_i hne
      injection h with h1 h2
      refine .inl ⟨h1.symm, h2.symm, ?_⟩
      match ht : c.timings with
      | [] => simp
      | [_] => simp
      | t0 :: t1 :: rest => exact absurd ht (hne t0 t1 rest)

/-- The context after the first half of a bit of level `l` (R104). -/
def afterFirstHalf (r : RomRow) (l : Level) (c : DecCtx) : DecCtx :=
  ((c.consume 1).accumulate (manchesterBit r l)).setSwitch true

/-- The context after the closing half of a bit (R104). -/
def afterSecondHalf (c : DecCtx) : DecCtx := (c.consume 1).setSwitch false

/-- The widths R104 accepts for the next timing: it ends in the middle of the next bit, or at a bit boundary. -/
def firstHalfDue (r : RomRow) (c : DecCtx) : Prop :=
  c.switchDetect = false ∨ (c.switchDetect = true ∧ c.databitCnt < r.databitLen)

theorem manchesterTurn_again {r : RomRow} {c c' : DecCtx} (h : manchesterTurn r c = .again c') :
    c.timings ≠ [] ∧
      ((firstHalfDue r c ∧ c' = afterFirstHalf r (c.level 0) c)
      ∨ (c.switchDetect = true ∧ c' = afterSecondHalf c ∧ c.databitCnt ≠ r.databitLen)) := by
  unfold manchesterTurn at h
  split at h
  · cases h
  · rename_i x rest ht
    refine ⟨by simp [ht], ?_⟩
    have first : ∀ {l}, manchesterFirstHalf r l c = .again c' → c' = afterFirstHalf r l c := by
      intro l hf
      simp only [manchesterFirstHalf] at hf
      split at hf
      · cases hf
      · injection hf with hf
        exact hf.symm
    split at h
    · rename_i hs
      dsimp only at h
      split at h
      · simp only [manchesterSecondHalf] at h
        split at h
        · cases h
        · rename_i hn
          injection h with h
          exact .inr ⟨hs, h.symm, by simpa using hn⟩
      · split at h
        · rename_i hn
          exact .inl ⟨.inr ⟨hs, hn.1⟩, first h⟩
        · cases h
    · rename_i hs
      split at h
      · exact .inl ⟨.inl (by simpa using hs), first h⟩
      · cases h

theorem manchesterTurn_stop {r : RomRow} {c c' : DecCtx} {st : CodecStatus} (h : manchesterTurn r c = .stop st c') :
    (st = .ok ∧ c' = c ∧ c.timings = [])
    ∨ (st = .error ∧ c' = c)
    ∨ (st = .ready ∧ c.timings ≠ [] ∧ c'.databitCnt = r.databitLen
        ∧ ((firstHalfDue r c ∧ c' = afterFirstHalf r (c.level 0) c) ∨ (c.switchDetect = true ∧ c' = afterSecondHalf c))) := by
  unfold manchesterTurn at h
  split at h
  · rename_i ht
    injection h with h1 h2
    exact .inl ⟨h1.symm, h2.symm, ht⟩
  · rename_i x rest ht
    refine .inr ?_
    have first : ∀ {l}, manchesterFirstHalf r l c = .stop st c' →
        st = .ready ∧ c'.databitCnt = r.databitLen ∧ c' = afterFirstHalf r l c := by
      intro l hf
      simp only [manchesterFirstHalf] at hf
      split at hf
      · rename_i hn
        injection hf with h1 h2
        subst h2
        exact ⟨h1.symm, hn.1, rfl⟩
      · cases hf
    have hne : c.timings ≠ [] := by simp [ht]
    split at h
    · rename_i hs
      dsimp only at h
      split at h
      · simp only [manchesterSecondHalf] at h
        split at h
        · rename_i hn
          injection h with h1 h2
          subst h2
          exact .inr ⟨h1.symm, hne, hn, .inr ⟨hs, rfl⟩⟩
        · cases h
      · split at h
        · rename_i hn
          obtain ⟨h1, h2, h3⟩ := first h
          exact .inr ⟨h1, hne, h2, .inl ⟨.inr ⟨hs, hn.1⟩, h3⟩⟩
        · injection h with h1 h2
          exact .inl ⟨h1.symm, h2.symm⟩
    · rename_i hs
      split at h
      · obtain ⟨h1, h2, h3⟩ := first h
        exact .inr ⟨h1, hne, h2, .inl ⟨.inl (by simpa using hs), h3⟩⟩
      · injection h with h1 h2
        exact .inl ⟨h1.symm, h2.symm⟩

/-! ## The loops, one turn unfolded -/

theorem pdwmTurn_shorter {r : RomRow} {c c' : DecCtx} (h : pdwmTurn r c = .again c') :
    c'.timings.length < c.timings.length := by
  obtain ⟨_, t0, t1, rest, _, ht, _, _, rfl⟩ := pdwmTurn_again h
  simp [ht]

theorem manchesterTurn_shorter {r : RomRow} {c c' : DecCtx} (h : manchesterTurn r c = .again c') :
    c'.timings.length < c.timings.length := by
  obtain ⟨hne, h⟩ := manchesterTurn_again h
  have := List.length_pos_iff.2 hne
  obtain ⟨_, rfl⟩ | ⟨_, rfl, _⟩ := h <;> simp [afterFirstHalf, afterSecondHalf] <;> omega

/-- The loop of `DecodePdwm`, one turn unfolded (R101). -/
theorem decodePdwm_eq (r : RomRow) (c : DecCtx) :
    decodePdwm r c = match pdwmTurn r c with
      | .again c' => decodePdwm r c'
      | .stop st c' => (st, c') := by
  conv => lhs; unfold decodePdwm
  simp only [iterate]
  cases ht : pdwmTurn r c with
  | stop st c' => rfl
  | again c' =>
    have := pdwmTurn_shorter ht
    exact iterate_stable (fun b => b.timings.length) (fun b b' hb => pdwmTurn_shorter hb) _ _ c' (Nat.lt_succ_self _) this

/-- The loop of `DecodeManchester`, one turn unfolded (R104). -/
theorem decodeManchester_eq (r : RomRow) (c : DecCtx) :
    decodeManchester r c = match manchesterTurn r c with
      | .again c' => decodeManchester r c'
      | .stop st c' => (st, c') := by
  conv => lhs; unfold decodeManchester
  simp only [iterate]
  cases ht : manchesterTurn r c with
  | stop st c' => rfl
  | again c' =>
    have := manchesterTurn_shorter ht
    exact iterate_stable (fun b => b.timings.length) (fun b b' hb => manchesterTurn_shorter hb) _ _ c' (Nat.lt_succ_self _) this

/-! ## The codecs leave the engine's registers alone (R100, R101, R104) -/

/-- The registers that neither codec, nor the preamble window, nor the repeat matcher writes. -/
structure SameEngine (c c' : DecCtx) : Prop where
  state : c'.state = c.state
  lastLevel : c'.lastLevel = c.lastLevel
  message : c'.message = c.message
  prevToggle : c'.prevToggle = c.prevToggle

theorem SameEngine.refl (c : DecCtx) : SameEngine c c := ⟨rfl, rfl, rfl, rfl⟩

theorem SameEngine.trans {a b c : DecCtx} (h : SameEngine a b) (k : SameEngine b c) : SameEngine a c :=
  ⟨k.state.trans h.state, k.lastLevel.trans h.lastLevel, k.message.trans h.message, k.prevToggle.trans h.prevToggle⟩

theorem drop_step {α : Type} {a b c : List α} {k : Nat} (h : ∃ n, b = a.drop n) (hk : c = b.drop k) : ∃ n, c = a.drop n := by
  obtain ⟨n, rfl⟩ := h
  exact ⟨n + k, by rw [hk, List.drop_drop]⟩

theorem length_le_of_drop {α : Type} {a b : List α} (h : ∃ n, b = a.drop n) : b.length ≤ a.length := by
  obtain ⟨n, rfl⟩ := h
  simp

/-- What a codec's result says about the buffer. -/
structure CodecPost (r : RomRow) (c : DecCtx) (st : CodecStatus) (c' : DecCtx) : Prop where
  same : SameEngine c c'
  /-- Only the oldest timings leave (R95). -/
  suffix : ∃ n, c'.timings = c.timings.drop n
  ok : st = .ok → c'.timings.length ≤ 1
  ready : st = .ready → c'.timings.length < c.timings.length ∧ c'.databitCnt = r.databitLen

theorem CodecPost.shorter {r : RomRow} {c c' : DecCtx} {st : CodecStatus} (h : CodecPost r c st c') :
    c'.timings.length ≤ c.timings.length :=
  length_le_of_drop h.suffix

theorem decodePdwm_post (r : RomRow) (c : DecCtx) : CodecPost r c (decodePdwm r c).1 (decodePdwm r c).2 := by
  refine iterate_spec (P := fun b => SameEngine c b ∧ ∃ n, b.timings = c.timings.drop n)
    (Q := fun st b => CodecPost r c st b) (measure := fun b => b.timings.length) ?_ ?_ _ c
    ⟨SameEngine.refl c, 0, rfl⟩ (Nat.lt_succ_self _)
  · intro b b' hb h
    obtain ⟨_, t0, t1, rest, v, ht, _, _, rfl⟩ := pdwmTurn_again h
    exact ⟨⟨hb.1.trans ⟨rfl, rfl, rfl, rfl⟩, drop_step hb.2 rfl⟩, by simp [ht]⟩
  · intro b st b' hb h
    have hle := length_le_of_drop hb.2
    obtain ⟨rfl, rfl, hl⟩ | ⟨rfl, rfl⟩ | ⟨rfl, rfl, hne, hn⟩ := pdwmTurn_stop h
    · exact ⟨hb.1, hb.2, fun _ => hl, (fun h => by cases h)⟩
    · exact ⟨hb.1, hb.2, (fun h => by cases h), (fun h => by cases h)⟩
    · have := List.length_pos_iff.2 hne
      exact ⟨hb.1.trans ⟨rfl, rfl, rfl, rfl⟩, drop_step hb.2 rfl, (fun h => by cases h), fun _ => ⟨by simp; omega, hn⟩⟩

theorem decodeManchester_post (r : RomRow) (c : DecCtx) :
    CodecPost r c (decodeManchester r c).1 (decodeManchester r c).2 := by
  refine iterate_spec (P := fun b => SameEngine c b ∧ ∃ n, b.timings = c.timings.drop n)
    (Q := fun st b => CodecPost r c st b) (measure := fun b => b.timings.length) ?_ ?_ _ c
    ⟨SameEngine.refl c, 0, rfl⟩ (Nat.lt_succ_self _)
  · intro b b' hb h
    have hlt := manchesterTurn_shorter h
    obtain ⟨_, ⟨_, rfl⟩ | ⟨_, rfl, _⟩⟩ := manchesterTurn_again h
    all_goals exact ⟨⟨hb.1.trans ⟨rfl, rfl, rfl, rfl⟩, drop_step hb.2 rfl⟩, hlt⟩
  · intro b st b' hb h
    have hle := length_le_of_drop hb.2
    obtain ⟨rfl, rfl, hl⟩ | ⟨rfl, rfl⟩ | ⟨rfl, hne, hn, hc⟩ := manchesterTurn_stop h
    · exact ⟨hb.1, hb.2, fun _ => by simp [hl], (fun h => by cases h)⟩
    · exact ⟨hb.1, hb.2, (fun h => by cases h), (fun h => by cases h)⟩
    · have := List.length_pos_iff.2 hne
      obtain ⟨_, rfl⟩ | ⟨_, rfl⟩ := hc
      all_goals
        refine ⟨hb.1.trans ⟨rfl, rfl, rfl, rfl⟩, drop_step hb.2 rfl, (fun h => by cases h), fun _ => ⟨?_, hn⟩⟩
        simp [afterFirstHalf, afterSecondHalf]
        omega

/-- What `DecodeBits` can do to the engine's registers and the buffer (R100). -/
theorem decodeBits_post (r : RomRow) (c : DecCtx) : CodecPost r c (decodeBits r c).1 (decodeBits r c).2 := by
  unfold decodeBits
  split
  · exact decodePdwm_post r c
  · exact decodeManchester_post r c

/-! ## The codecs keep the accumulator in range (R13, R97, R25 (e)) -/

/-- The accumulator's range, whatever the state. -/
structure AccInv (r : RomRow) (c : DecCtx) : Prop where
  count : c.databitCnt ≤ r.databitLen
  data : c.data < 2 ^ c.databitCnt
  switchIdle : r.codec = .pdwm → c.switchDetect = false

/-- The accumulator's range in state Decode of a Manchester row (R25 (e), R103). -/
structure ManchesterInv (r : RomRow) (c : DecCtx) : Prop where
  acc : AccInv r c
  boundary : c.switchDetect = false → c.databitCnt < r.databitLen
  middle : c.switchDetect = true → 0 < c.databitCnt

theorem decodePdwm_keeps {r : RomRow} {c : DecCtx} (h : AccInv r c) : AccInv r (decodePdwm r c).2 := by
  refine iterate_spec (P := AccInv r) (Q := fun _ b => AccInv r b) (measure := fun b => b.timings.length) ?_ ?_ _ c h
    (Nat.lt_succ_self _)
  · intro b b' hb h
    obtain ⟨hn, t0, t1, rest, v, ht, _, _, rfl⟩ := pdwmTurn_again h
    have := hb.count
    refine ⟨⟨?_, ?_, hb.switchIdle⟩, ?_⟩
    · simp; omega
    · exact writeBit_lt _ _ _ hb.data
    · simp [ht]
  · intro b st b' hb h
    obtain ⟨_, rfl, _⟩ | ⟨_, rfl⟩ | ⟨_, rfl, _⟩ := pdwmTurn_stop h
    exacts [hb, hb, ⟨hb.count, hb.data, hb.switchIdle⟩]

theorem afterFirstHalf_acc {r : RomRow} {c : DecCtx} (l : Level) (hm : r.codec = .manchester) (h : AccInv r c)
    (hlt : c.databitCnt < r.databitLen) : AccInv r (afterFirstHalf r l c) :=
  ⟨hlt, writeBit_lt _ _ _ h.data, fun hp => by simp [hm] at hp⟩

theorem afterSecondHalf_acc {r : RomRow} {c : DecCtx} (h : AccInv r c) : AccInv r (afterSecondHalf c) :=
  ⟨h.count, h.data, fun _ => rfl⟩

theorem firstHalfDue_lt {r : RomRow} {c : DecCtx} (h : ManchesterInv r c) (hd : firstHalfDue r c) :
    c.databitCnt < r.databitLen := by
  obtain hs | ⟨_, hs⟩ := hd
  exacts [h.boundary hs, hs]

theorem decodeManchester_keeps {r : RomRow} {c : DecCtx} (hm : r.codec = .manchester) (h : ManchesterInv r c) :
    AccInv r (decodeManchester r c).2 ∧ ((decodeManchester r c).1 = .ok → ManchesterInv r (decodeManchester r c).2) := by
  refine iterate_spec (P := ManchesterInv r) (Q := fun (st : CodecStatus) b => AccInv r b ∧ (st = .ok → ManchesterInv r b))
    (measure := fun b => b.timings.length) ?_ ?_ _ c h (Nat.lt_succ_self _)
  · intro b b' hb h
    obtain ⟨hne, ⟨hd, rfl⟩ | ⟨hs, rfl, hn⟩⟩ := manchesterTurn_again h
    · have := List.length_pos_iff.2 hne
      refine ⟨⟨afterFirstHalf_acc _ hm hb.acc (firstHalfDue_lt hb hd), fun h => ?_, fun _ => ?_⟩, ?_⟩
      · simp [afterFirstHalf] at h
      · simp [afterFirstHalf]
      · simp [afterFirstHalf]; omega
    · have := List.length_pos_iff.2 hne
      have := hb.acc.count
      refine ⟨⟨afterSecondHalf_acc hb.acc, fun _ => ?_, fun h => ?_⟩, ?_⟩
      · simp [afterSecondHalf]; omega
      · simp [afterSecondHalf] at h
      · simp [afterSecondHalf]; omega
  · intro b st b' hb h
    obtain ⟨_, rfl, _⟩ | ⟨rfl, rfl⟩ | ⟨rfl, _, _, ⟨hd, rfl⟩ | ⟨_, rfl⟩⟩ := manchesterTurn_stop h
    · exact ⟨hb.acc, fun _ => hb⟩
    · exact ⟨hb.acc, (fun h => by cases h)⟩
    · exact ⟨afterFirstHalf_acc _ hm hb.acc (firstHalfDue_lt hb hd), (fun h => by cases h)⟩
    · exact ⟨afterSecondHalf_acc hb.acc, (fun h => by cases h)⟩

/-! ## The preamble window and the repeat matcher (R121, R126) -/

theorem alignToMark_eq (c : DecCtx) : alignToMark c = { c with timings := (alignToMark c).timings } := by
  unfold alignToMark
  split
  · rfl
  · split <;> rfl

theorem alignToMark_suffix (c : DecCtx) : ∃ n, (alignToMark c).timings = c.timings.drop n := by
  unfold alignToMark
  split
  · exact ⟨0, rfl⟩
  · split
    · exact ⟨0, rfl⟩
    · exact ⟨1, rfl⟩

/-- What `CheckPreamble` can do to the registers and to the buffer: only the oldest timings leave. -/
theorem checkPreamble_post (r : RomRow) (c : DecCtx) :
    (checkPreamble r c).2 = { c with timings := (checkPreamble r c).2.timings }
      ∧ (∃ n, (checkPreamble r c).2.timings = c.timings.drop n)
      ∧ ((checkPreamble r c).1 = false → (checkPreamble r c).2.timings.length ≤ 1)
      ∧ ((checkPreamble r c).1 = true → (checkPreamble r c).2.timings.length + 2 ≤ c.timings.length) := by
  refine iterate_spec
    (P := fun b => b = { c with timings := b.timings } ∧ ∃ n, b.timings = c.timings.drop n)
    (Q := fun found b => b = { c with timings := b.timings } ∧ (∃ n, b.timings = c.timings.drop n)
      ∧ (found = false → b.timings.length ≤ 1) ∧ (found = true → b.timings.length + 2 ≤ c.timings.length))
    (measure := fun b => b.timings.length) ?_ ?_ _ (alignToMark c)
    ⟨alignToMark_eq c, alignToMark_suffix c⟩ (Nat.lt_succ_of_le (length_le_of_drop (alignToMark_suffix c)))
  · intro b b' hb h
    unfold preambleTurn at h
    split at h
    · rename_i t0 t1 rest ht
      split at h
      · cases h
      · injection h with h
        subst h
        refine ⟨⟨?_, drop_step hb.2 rfl⟩, by simp [ht]⟩
        conv => lhs; rw [hb.1]
        rfl
    · cases h
  · intro b found b' hb h
    have hle := length_le_of_drop hb.2
    unfold preambleTurn at h
    split at h
    · rename_i t0 t1 rest ht
      split at h
      · injection h with h1 h2
        subst h1 h2
        have hlen : b.timings.length = rest.length + 2 := by simp [ht]
        refine ⟨?_, drop_step hb.2 rfl, (fun h => by cases h), fun _ => by simp; omega⟩
        conv => lhs; rw [hb.1]
        rfl
      · cases h
    · rename_i hne
      injection h with h1 h2
      subst h1 h2
      refine ⟨hb.1, hb.2, fun _ => ?_, (fun h => by cases h)⟩
      match ht : b.timings with
      | [] => simp
      | [_] => simp
      | t0 :: t1 :: rest => exact absurd ht (hne t0 t1 rest)

/-- The tail of a pattern matches when every element does (R126). -/
theorem tailMatches_iff (r : RomRow) : ∀ (ts : List Duration) (es : List RepElem), ts.length = es.length →
    (tailMatches r ts es = true ↔ ∀ i e, es[i]? = some e → matchRepElem r (ts.getD i 0#32) e = true)
  | [], [], _ => by simp [tailMatches]
  | [], _ :: _, h => by simp at h
  | _ :: _, [], h => by simp at h
  | t :: ts, e :: es, h => by
    simp only [tailMatches, Bool.and_eq_true, tailMatches_iff r ts es (by simpa using h)]
    refine ⟨fun ⟨ha, hb⟩ i e' hi => ?_, fun h => ⟨by simpa using h 0 e rfl, fun i e' hi => by simpa using h (i + 1) e' (by simpa using hi)⟩⟩
    cases i with
    | zero => simp at hi; subst hi; simpa using ha
    | succ i => simpa using hb i e' (by simpa using hi)

/-- What `DecodeRepeat` can do (R126). -/
theorem decodeRepeat_cases (r : RomRow) (c : DecCtx) :
    (decodeRepeat r c = (.ok, c) ∧ c.timings.length < r.repLen)
    ∨ (decodeRepeat r c = (.ready, c.consume r.repLen) ∧ r.repLen ≤ c.timings.length)
    ∨ (decodeRepeat r c = (.error, c) ∧ r.repLen ≤ c.timings.length) := by
  unfold decodeRepeat DecCtx.timingsCnt
  split
  · rename_i h
    exact .inl ⟨rfl, h⟩
  · rename_i h
    split
    · exact .inr (.inl ⟨rfl, by omega⟩)
    · exact .inr (.inr ⟨rfl, by omega⟩)

/-! ## Interpret (R140) -/

/-- What a successful interpret can do: it writes the message, for this pid, and only the RC6 layout writes the previous
toggle. -/
theorem interpret_some {r : RomRow} {pid : Pid} {c c' : DecCtx} (h : interpret r pid c = some c') :
    c' = { c with message := c'.message, prevToggle := c'.prevToggle } ∧ c'.message.protocol = pid
      ∧ (r.layout ≠ .rc6 → c'.prevToggle = c.prevToggle) := by
  unfold interpret at h
  split at h
  · unfold interpretNec at h
    simp only at h
    split at h
    · injection h with h; subst h; exact ⟨rfl, rfl, fun _ => rfl⟩
    · cases h
  · unfold interpretNecExt at h
    simp only at h
    split at h
    · injection h with h; subst h; exact ⟨rfl, rfl, fun _ => rfl⟩
    · cases h
  · unfold interpretSamsung32 at h
    simp only at h
    split at h
    · injection h with h; subst h; exact ⟨rfl, rfl, fun _ => rfl⟩
    · cases h
  · rename_i hl
    unfold interpretRc6 at h
    simp only at h
    split at h
    · injection h with h; subst h; exact ⟨rfl, rfl, fun hne => absurd hl hne⟩
    · cases h
  · unfold interpretExt at h
    split at h
    · injection h with h; subst h; exact ⟨rfl, rfl, fun _ => rfl⟩
    · cases h

end Sys2Proof.Machine
end

