-- ==== Sys2Proof/Laws/Rom.lean ====
section
/-! SUPPORT. Laws/Rom.lean: what a row and a ROM that meet R45 give, in the forms the engines use. -/

namespace Sys2Proof.Machine

theorem rowOk_iff (r : RomRow) : rowOk r = true ↔
    timingOk r = true ∧ codecOk r = true ∧ repeatOk r = true ∧ layoutOk r = true ∧ nameOk r = true := by
  simp [rowOk, and_assoc]

theorem romOk_iff (rom : Rom) : romOk rom = true ↔
    baseRowsOk rom = true ∧ (∀ r ∈ rom, rowOk r = true) ∧ namesDistinct rom = true ∧ rom.length ≤ 255 := by
  simp [romOk, and_assoc]

theorem romOk_row {rom : Rom} {p : Nat} {r : RomRow} (h : romOk rom = true) (hp : rom[p]? = some r) : rowOk r = true :=
  ((romOk_iff rom).1 h).2.1 r (List.mem_of_getElem? hp)

theorem romOk_lt {rom : Rom} {p : Nat} {r : RomRow} (h : romOk rom = true) (hp : rom[p]? = some r) : p < 255 :=
  Nat.lt_of_lt_of_le (List.getElem?_eq_some_iff.1 hp).1 ((romOk_iff rom).1 h).2.2.2

/-- Every payload has a bit (R45 (a)). -/
theorem rowOk_databitLen {r : RomRow} (h : rowOk r = true) : 1 ≤ r.databitLen := by
  have ht := ((rowOk_iff r).1 h).1
  simp only [timingOk, Bool.and_eq_true, decide_eq_true_eq] at ht
  exact ht.1.2

/-- The repeat pattern: none, or 2, 4 or 6 elements, all but the gap in `repTail` (R45 (d)). -/
theorem rowOk_repeat {r : RomRow} (h : rowOk r = true) :
    r.repLen = 0 ∨ ((r.repLen = 2 ∨ r.repLen = 4 ∨ r.repLen = 6) ∧ r.repGapMin.toNat < r.repGap.toNat
      ∧ r.repGap.toNat < r.repGapMax.toNat ∧ r.repTail.length = r.repLen - 1 ∧ ∀ e ∈ r.repTail, 0 < e.nominal.toNat) := by
  have hr := ((rowOk_iff r).1 h).2.2.1
  simp only [repeatOk, Bool.or_eq_true, Bool.and_eq_true, decide_eq_true_eq, List.all_eq_true, or_assoc, and_assoc] at hr
  exact hr

theorem rowOk_repLen_le {r : RomRow} (h : rowOk r = true) : r.repLen ≤ 6 := by
  have := rowOk_repeat h
  omega

/-- The conditions on a PDWM row (R45 (b)). -/
theorem rowOk_pdwm {r : RomRow} (h : rowOk r = true) (hc : r.codec = .pdwm) :
    0 < r.bit1Mark.toNat ∧ 0 < r.bit1Space.toNat ∧ 0 < r.bit0Mark.toNat ∧ 0 < r.bit0Space.toNat
      ∧ (2 * r.bitTol.toNat ≤ absDiff r.bit1Mark.toNat r.bit0Mark.toNat
        ∨ 2 * r.bitTol.toNat ≤ absDiff r.bit1Space.toNat r.bit0Space.toNat) := by
  have hr := ((rowOk_iff r).1 h).2.1
  simp only [codecOk, hc, pdwmOk, Bool.or_eq_true, Bool.and_eq_true, decide_eq_true_eq, and_assoc] at hr
  exact hr

/-- The conditions on a Manchester row (R45 (c)). -/
theorem rowOk_manchester {r : RomRow} (h : rowOk r = true) (hc : r.codec = .manchester) :
    0 < r.bitUnit.toNat ∧ 2 * r.bitTol.toNat ≤ r.bitUnit.toNat ∧ ∀ i, r.dblIndex = some i → i < r.databitLen := by
  have hr := ((rowOk_iff r).1 h).2.1
  simp only [codecOk, hc, manchesterOk, Bool.and_eq_true, decide_eq_true_eq, and_assoc] at hr
  refine ⟨hr.1, hr.2.1, fun i hi => ?_⟩
  have := hr.2.2
  simpa [hi] using this

/-- The tolerances of a row (R45 (a)). -/
theorem rowOk_timing {r : RomRow} (h : rowOk r = true) :
    0 < r.preambleMark.toNat ∧ 0 < r.preambleSpace.toNat ∧ 1 ≤ r.preambleTolPm ∧ r.preambleTolPm ≤ 999
      ∧ 0 < r.bitTol.toNat := by
  have ht := ((rowOk_iff r).1 h).1
  simp only [timingOk, Bool.and_eq_true, decide_eq_true_eq, and_assoc] at ht
  exact ⟨ht.1, ht.2.1, ht.2.2.1, ht.2.2.2.1, ht.2.2.2.2.1⟩

/-- A name is 1 to 12 bytes of ASCII, none of them zero (R41, R45 (f)). -/
theorem rowOk_name {r : RomRow} (h : rowOk r = true) :
    1 ≤ r.name.length ∧ r.name.length ≤ 12 ∧ ∀ c ∈ r.name, c ≠ 0#8 ∧ c.toNat < 128 := by
  have hn := ((rowOk_iff r).1 h).2.2.2.2
  simp only [nameOk, Bool.and_eq_true, decide_eq_true_eq, List.all_eq_true, and_assoc] at hn
  exact hn

/-- Every duration of a row but the other codec's is below 2^31 (R45 (a)). -/
theorem rowOk_duration {r : RomRow} (h : rowOk r = true) {d : Duration} (hd : d ∈ rowDurations r) : d.toNat < 2 ^ 31 := by
  have ht := ((rowOk_iff r).1 h).1
  simp only [timingOk, Bool.and_eq_true, decide_eq_true_eq, List.all_eq_true] at ht
  exact ht.2 d hd

/-- A half of a Manchester bit fits 32 bits (R45 (a), R102, R177). -/
theorem halfDuration_fits {r : RomRow} (h : rowOk r = true) (hc : r.codec = .manchester) (i : Nat) :
    halfWidth r i * r.bitUnit.toNat < 2 ^ 32 := by
  have hu : r.bitUnit.toNat < 2 ^ 31 := rowOk_duration h (by simp [rowDurations, codecDurations, hc])
  unfold halfWidth
  split <;> omega

/-- The payload length of a base layout (R45 (e)). -/
theorem rowOk_layout {r : RomRow} (h : rowOk r = true) :
    (r.layout = .nec ∨ r.layout = .necExt ∨ r.layout = .samsung32 → r.databitLen = 32) ∧ (r.layout = .rc6 → r.databitLen = 21) := by
  have hl := ((rowOk_iff r).1 h).2.2.2.1
  unfold layoutOk at hl
  refine ⟨fun hh => ?_, fun hh => ?_⟩
  · obtain hh | hh | hh := hh <;> simpa [hh] using hl
  · simpa [hh] using hl

/-- Rows with one name are one row (R45 (f)). -/
theorem namesDistinct_inj : ∀ {rom : Rom}, namesDistinct rom = true → ∀ {p q : Nat} {a b : RomRow},
    rom[p]? = some a → rom[q]? = some b → a.name = b.name → p = q
  | [], _, _, _, _, _, ha, _, _ => by simp at ha
  | r :: rest, h, p, q, a, b, ha, hb, hab => by
    simp only [namesDistinct, Bool.and_eq_true, List.all_eq_true, decide_eq_true_eq] at h
    cases p with
    | zero =>
      cases q with
      | zero => rfl
      | succ q =>
        simp only [List.getElem?_cons_zero, Option.some.injEq, List.getElem?_cons_succ] at ha hb
        exact absurd (ha ▸ hab.symm) (h.1 b (List.mem_of_getElem? hb))
    | succ p =>
      cases q with
      | zero =>
        simp only [List.getElem?_cons_zero, Option.some.injEq, List.getElem?_cons_succ] at ha hb
        exact absurd (hb ▸ hab) (h.1 a (List.mem_of_getElem? ha))
      | succ q =>
        simp only [List.getElem?_cons_succ] at ha hb
        exact congrArg (· + 1) (namesDistinct_inj h.2 ha hb hab)

end Sys2Proof.Machine
end

