-- ==== Sys2Proof/Laws/Encoder.lean ====
section
/-! SUPPORT. Laws/Encoder.lean: what packing and one step of the encode engine can do, and the ranges they keep
(42_protocol_adapters.md R149 to R153, 43_encode_engine.md R170 to R180). -/

namespace Sys2Proof.Machine

/-- Packing writes the data, and the toggle only for the RC6 layout (R149, R153). -/
theorem packInto_eq (r : RomRow) (e : EncCtx) (msg : Message) :
    packInto r e msg = { e with data := (packInto r e msg).data, toggle := (packInto r e msg).toggle }
      ∧ (r.layout ≠ .rc6 → (packInto r e msg).toggle = e.toggle) ∧ (r.layout = .rc6 → (packInto r e msg).toggle = !e.toggle) := by
  unfold packInto
  split <;> rename_i hl <;> simp [EncCtx.flipToggle, hl]

/-- The packed payload fits the row's register (R18, R149). -/
theorem packInto_data_lt {r : RomRow} (hr : rowOk r = true) (e : EncCtx) (msg : Message) :
    (packInto r e msg).data < 2 ^ r.databitLen := by
  obtain ⟨h32, h21⟩ := rowOk_layout hr
  unfold packInto
  split <;> rename_i hl
  · rw [h32 (.inl hl)]; exact BitVec.isLt _
  · rw [h32 (.inr (.inl hl))]; exact BitVec.isLt _
  · rw [h32 (.inr (.inr hl))]; exact BitVec.isLt _
  · rw [h21 hl]; exact BitVec.isLt _
  · exact Nat.mod_lt _ (Nat.two_pow_pos _)

/-- Every step of the engine keeps its data and its toggle (R171 to R179). -/
theorem encodeStep_keeps_data {r : RomRow} {e e' : EncCtx} {t : Timing} (h : encodeStep r e = some (e', t)) :
    e' = { e with state := e'.state, timingsEncoded := e'.timingsEncoded, bitsEncoded := e'.bitsEncoded } := by
  unfold encodeStep encodeSpace encodePreamble encodePayload encodePdwm encodeManchester encodeRepeat completePayload at h
  repeat' (first | (cases h; done) | (injection h with h; injection h with h1 h2; subst h1; rfl) | split at h | simp only at h)

/-- One turn of `EncodePdwm` (R176): a bit's Mark, its Space, or the stop Mark. -/
theorem encodePdwm_cases {r : RomRow} {e e' : EncCtx} {t : Timing} (h : encodePdwm r e = some (e', t)) :
    3 ≤ e.timingsEncoded ∧
    ((e.bitsEncoded = r.databitLen ∧ e' = completePayload r e ∧ t = { duration := r.bit1Mark, level := true, done := true })
    ∨ (e.bitsEncoded < r.databitLen ∧ (e.timingsEncoded - 3) % 2 = 0 ∧ e' = { e with timingsEncoded := e.timingsEncoded + 1 }
        ∧ t = { duration := if e.data.testBit e.bitsEncoded then r.bit1Mark else r.bit0Mark, level := true, done := false })
    ∨ (e.bitsEncoded < r.databitLen ∧ (e.timingsEncoded - 3) % 2 = 1
        ∧ e' = { e with timingsEncoded := e.timingsEncoded + 1, bitsEncoded := e.bitsEncoded + 1 }
        ∧ t = { duration := if e.data.testBit e.bitsEncoded then r.bit1Space else r.bit0Space, level := false, done := false })) := by
  unfold encodePdwm at h
  split at h
  · cases h
  · rename_i h3
    refine ⟨by omega, ?_⟩
    split at h
    · rename_i hb
      injection h with h; injection h with h1 h2
      exact .inl ⟨hb, h1.symm, h2.symm⟩
    · split at h
      · rename_i hb
        dsimp only at h
        split at h
        · rename_i hk
          injection h with h; injection h with h1 h2
          exact .inr (.inl ⟨hb, hk, h1.symm, h2.symm⟩)
        · injection h with h; injection h with h1 h2
          exact .inr (.inr ⟨hb, by omega, h1.symm, h2.symm⟩)
      · cases h

/-- One turn of `EncodeManchester` (R177): the first half of a bit, the second of one that is not the last, or the last. -/
theorem encodeManchester_cases {r : RomRow} {e e' : EncCtx} {t : Timing} (h : encodeManchester r e = some (e', t)) :
    3 ≤ e.timingsEncoded ∧ e.bitsEncoded < r.databitLen ∧ t.duration = halfDuration r e.bitsEncoded
      ∧ t.level = halfLevel r ((e.timingsEncoded - 3) % 2) (e.data.testBit e.bitsEncoded) ∧
    (((e.timingsEncoded - 3) % 2 = 0 ∧ e' = { e with timingsEncoded := e.timingsEncoded + 1 } ∧ t.done = false)
    ∨ ((e.timingsEncoded - 3) % 2 = 1 ∧ e.bitsEncoded + 1 = r.databitLen ∧ e' = completePayload r e ∧ t.done = true)
    ∨ ((e.timingsEncoded - 3) % 2 = 1 ∧ e.bitsEncoded + 1 < r.databitLen
        ∧ e' = { e with timingsEncoded := e.timingsEncoded + 1, bitsEncoded := e.bitsEncoded + 1 } ∧ t.done = false)) := by
  unfold encodeManchester at h
  split at h
  · cases h
  · rename_i h3
    split at h
    · rename_i hb
      dsimp only at h
      refine ⟨by omega, hb, ?_⟩
      split at h
      · rename_i hj
        injection h with h; injection h with h1 h2
        subst h2
        exact ⟨rfl, rfl, .inl ⟨hj, h1.symm, rfl⟩⟩
      · split at h
        · rename_i hl
          injection h with h; injection h with h1 h2
          subst h2
          exact ⟨rfl, rfl, .inr (.inl ⟨by omega, hl, h1.symm, rfl⟩)⟩
        · injection h with h; injection h with h1 h2
          subst h2
          exact ⟨rfl, rfl, .inr (.inr ⟨by omega, by omega, h1.symm, rfl⟩)⟩
    · cases h

/-- Element `q` of the pattern exists for every `q` below its length (R41, R45 (d)). -/
theorem repeatElement_some {r : RomRow} (hr : rowOk r = true) {q : Nat} (hq : q < r.repLen) :
    ∃ d, repeatElement r q = some d := by
  unfold repeatElement
  split
  · exact ⟨_, rfl⟩
  · have := rowOk_repeat hr
    have hlt : q - 1 < r.repTail.length := by omega
    exact ⟨_, by rw [List.getElem?_eq_getElem hlt]⟩

/-- One turn of `EncodeRepeat` (R179). -/
theorem encodeRepeat_cases {r : RomRow} {e e' : EncCtx} {t : Timing} (h : encodeRepeat r e = some (e', t)) :
    repeatElement r e.timingsEncoded = some t.duration ∧ t.level = decide (e.timingsEncoded % 2 = 1)
      ∧ ((e.timingsEncoded + 1 = r.repLen ∧ e' = { e with timingsEncoded := 0 } ∧ t.done = true)
        ∨ (e.timingsEncoded + 1 < r.repLen ∧ e' = { e with timingsEncoded := e.timingsEncoded + 1 } ∧ t.done = false)) := by
  unfold encodeRepeat at h
  dsimp only at h
  split at h
  · cases h
  · rename_i d hd
    split at h
    · rename_i hq
      injection h with h; injection h with h1 h2
      subst h2
      exact ⟨hd, rfl, .inl ⟨hq, h1.symm, rfl⟩⟩
    · split at h
      · rename_i hq
        injection h with h; injection h with h1 h2
        subst h2
        exact ⟨hd, rfl, .inr ⟨hq, h1.symm, rfl⟩⟩
      · cases h

/-- The payload's completion stands at the beginning of a cycle (R178). -/
theorem completePayload_inv {r : RomRow} {e : EncCtx} (h : EncInv r e) : EncInv r (completePayload r e) := by
  refine ⟨?_, h.data, h.toggleIdle⟩
  unfold completePayload encPosition
  by_cases hp : 0 < r.repLen <;> simp [hp]

/-- A step of an encoder in its range gives a timing and keeps the range (R17, R171 to R179). -/
theorem encodeStep_keeps {r : RomRow} {e : EncCtx} (hr : rowOk r = true) (h : EncInv r e) :
    ∃ e' t, encodeStep r e = some (e', t) ∧ EncInv r e' := by
  have hpos := h.position
  have hlen := rowOk_databitLen hr
  unfold encPosition at hpos
  unfold encodeStep
  cases hs : e.state with
  | space =>
    simp only [hs] at hpos
    exact ⟨_, _, rfl, ⟨.inl rfl, hpos.2⟩, h.data, h.toggleIdle⟩
  | preamble =>
    simp only [hs] at hpos
    unfold encodePreamble
    obtain ⟨h1 | h1, h2⟩ := hpos
    · simp only [h1, ↓reduceIte]
      refine ⟨_, _, rfl, ?_, h.data, h.toggleIdle⟩
      simp [encPosition, hs, h2]
    · simp only [h1, Nat.reduceEqDiff, ↓reduceIte]
      refine ⟨_, _, rfl, ?_, h.data, h.toggleIdle⟩
      unfold encPosition
      cases hc : r.codec <;> simp <;> omega
  | encode =>
    simp only [hs] at hpos
    unfold encodePayload
    cases hc : r.codec with
    | pdwm =>
      simp only [hc] at hpos
      unfold encodePdwm
      have h3 : ¬ e.timingsEncoded < 3 := by omega
      simp only [h3, ↓reduceIte]
      by_cases hb : e.bitsEncoded = r.databitLen
      · simp only [hb, ↓reduceIte]
        exact ⟨_, _, rfl, completePayload_inv h⟩
      · have hlt : e.bitsEncoded < r.databitLen := by omega
        simp only [hb, hlt, ↓reduceIte]
        split
        · refine ⟨_, _, rfl, ?_, h.data, h.toggleIdle⟩
          unfold encPosition
          simp only [hs, hc]
          omega
        · refine ⟨_, _, rfl, ?_, h.data, h.toggleIdle⟩
          unfold encPosition
          simp only [hs, hc]
          omega
    | manchester =>
      simp only [hc] at hpos
      unfold encodeManchester
      have h3 : ¬ e.timingsEncoded < 3 := by omega
      simp only [h3, hpos.1, ↓reduceIte]
      split
      · refine ⟨_, _, rfl, ?_, h.data, h.toggleIdle⟩
        unfold encPosition
        simp only [hs, hc]
        omega
      · split
        · exact ⟨_, _, rfl, completePayload_inv h⟩
        · refine ⟨_, _, rfl, ?_, h.data, h.toggleIdle⟩
          unfold encPosition
          simp only [hs, hc]
          omega
  | encodeRepeat =>
    simp only [hs] at hpos
    obtain ⟨d, hd⟩ := repeatElement_some hr hpos.2.1
    unfold encodeRepeat
    simp only [hd]
    split
    · refine ⟨_, _, rfl, ?_, h.data, h.toggleIdle⟩
      unfold encPosition
      simp only [hs]
      omega
    · have hlt : e.timingsEncoded + 1 < r.repLen := by omega
      simp only [hlt, ↓reduceIte]
      refine ⟨_, _, rfl, ?_, h.data, h.toggleIdle⟩
      unfold encPosition
      simp only [hs]
      omega

/-- The engine's reset puts an encoder in its range (R170). -/
theorem packInto_inv {r : RomRow} (hr : rowOk r = true) (e : EncCtx) (msg : Message)
    (ht : r.layout ≠ .rc6 → e.toggle = false) :
    EncInv r { packInto r e msg with timingsEncoded := 0, bitsEncoded := 0, state := .space } :=
  ⟨⟨rfl, rfl⟩, packInto_data_lt hr e msg, fun hl => ((packInto_eq r e msg).2.1 hl).trans (ht hl)⟩

end Sys2Proof.Machine
end

