-- ==== Sys2Proof/Laws/PerInstr.lean ====
section
/-! SUPPORT. Laws/PerInstr.lean: one lemma per command, for the families of LAWS.json. -/

namespace Sys2Proof.Laws

open Sys2Proof

/-- The frame of a command carries its opcode in `W0[31:24]` and zero in the reserved bits 7:1 (30_encoding.md R71, R72). -/
def OpcodeField.Statement (i : Instr) : Prop :=
  (encode i).op = i.opcode ∧ (encode i).w0.extractLsb' 1 7 = 0#7

/-- Where the fields of a first word lie. -/
theorem packW0_fields (op pid sel : Byte) (flag : Bool) :
    (packW0 op pid sel flag).extractLsb' 24 8 = op ∧ (packW0 op pid sel flag).extractLsb' 16 8 = pid
      ∧ (packW0 op pid sel flag).extractLsb' 8 8 = sel ∧ (packW0 op pid sel flag).extractLsb' 1 7 = 0#7
      ∧ (packW0 op pid sel flag).getLsbD 0 = flag := by
  refine ⟨?_, ?_, ?_, ?_, ?_⟩
  · apply BitVec.eq_of_getLsbD_eq
    intro i hi
    simp only [packW0, BitVec.getLsbD_extractLsb', BitVec.getLsbD_append]
    simp (disch := omega) only [hi, decide_true, Bool.true_and, if_neg]
    congr 1
    omega
  · apply BitVec.eq_of_getLsbD_eq
    intro i hi
    simp only [packW0, BitVec.getLsbD_extractLsb', BitVec.getLsbD_append]
    simp (disch := omega) only [hi, decide_true, Bool.true_and, if_neg, if_pos]
    congr 1
    omega
  · apply BitVec.eq_of_getLsbD_eq
    intro i hi
    simp only [packW0, BitVec.getLsbD_extractLsb', BitVec.getLsbD_append]
    simp (disch := omega) only [hi, decide_true, Bool.true_and, if_neg, if_pos]
    congr 1
    omega
  · apply BitVec.eq_of_getLsbD_eq
    intro i hi
    simp only [packW0, BitVec.getLsbD_extractLsb', BitVec.getLsbD_append]
    simp (disch := omega) only [hi, decide_true, Bool.true_and, if_neg, if_pos]
    simp
  · simp only [packW0, BitVec.getLsbD_append]
    simp

theorem OpcodeField.nop : OpcodeField.Statement .nop :=
  ⟨(packW0_fields _ _ _ _).1, (packW0_fields _ _ _ _).2.2.2.1⟩
theorem OpcodeField.decReset : OpcodeField.Statement .decReset :=
  ⟨(packW0_fields _ _ _ _).1, (packW0_fields _ _ _ _).2.2.2.1⟩
theorem OpcodeField.decSample (level : Level) (duration : Duration) : OpcodeField.Statement (.decSample level duration) :=
  ⟨(packW0_fields _ _ _ _).1, (packW0_fields _ _ _ _).2.2.2.1⟩
theorem OpcodeField.encLoad (protocol : Pid) (address command : Word) (rep : Bool) :
    OpcodeField.Statement (.encLoad protocol address command rep) :=
  ⟨(packW0_fields _ _ _ _).1, (packW0_fields _ _ _ _).2.2.2.1⟩
theorem OpcodeField.encStep : OpcodeField.Statement .encStep :=
  ⟨(packW0_fields _ _ _ _).1, (packW0_fields _ _ _ _).2.2.2.1⟩
theorem OpcodeField.info (pid : Pid) (sel : Byte) : OpcodeField.Statement (.info pid sel) :=
  ⟨(packW0_fields _ _ _ _).1, (packW0_fields _ _ _ _).2.2.2.1⟩
theorem OpcodeField.findName (n1 n2 n3 : Word) : OpcodeField.Statement (.findName n1 n2 n3) :=
  ⟨(packW0_fields _ _ _ _).1, (packW0_fields _ _ _ _).2.2.2.1⟩

end Sys2Proof.Laws
end

