-- ==== Sys2Proof/Laws/Run.lean ====
section
/-! SUPPORT. Laws/Run.lean: the loop of `Run` and `DecodeStep`: what one turn keeps, that the loop's bound is never
reached, and what a sample does to a context in its range (41_decode_engine.md R120 to R128). -/

namespace Sys2Proof.Machine

/-- The invariant of a context, its buffer aside. -/
def EngineInv (p : Nat) (r : RomRow) (c : DecCtx) : Prop := CtxInv p r { c with timings := [] }

theorem ctxInv_iff (p : Nat) (r : RomRow) (c : DecCtx) :
    CtxInv p r c ↔ EngineInv p r c ∧ c.timings.length ≤ pendingBound r :=
  ⟨fun h => ⟨⟨Nat.zero_le _, h.count, h.data, h.boundary, h.middle, h.holding, h.protocol, h.switchIdle, h.toggleIdle⟩, h.pending⟩,
    fun ⟨h, k⟩ => ⟨k, h.count, h.data, h.boundary, h.middle, h.holding, h.protocol, h.switchIdle, h.toggleIdle⟩⟩

theorem EngineInv.acc {p : Nat} {r : RomRow} {c : DecCtx} (h : EngineInv p r c) : AccInv r c :=
  ⟨h.count, h.data, h.switchIdle⟩

/-- The buffer and the last level play no part in it. -/
theorem EngineInv.congr {p : Nat} {r : RomRow} {c c' : DecCtx} (h : EngineInv p r c)
    (hc : c' = { c with timings := c'.timings, lastLevel := c'.lastLevel }) : EngineInv p r c' := by
  rw [hc]
  exact ⟨Nat.zero_le _, h.count, h.data, h.boundary, h.middle, h.holding, h.protocol, h.switchIdle, h.toggleIdle⟩

/-- A change of state to WaitPreamble asks nothing of the accumulator but its range. -/
theorem EngineInv.wait {p : Nat} {r : RomRow} {c : DecCtx} (ha : AccInv r c)
    (hp : c.message.protocol = pidNone ∨ c.message.protocol = pidOf p) (ht : r.layout ≠ .rc6 → c.prevToggle = false) :
    EngineInv p r (c.goTo .waitPreamble) :=
  ⟨Nat.zero_le _, ha.count, ha.data, fun h => (by cases h), fun h => (by cases h), fun h => (by cases h), hp, ha.switchIdle, ht⟩

/-- What `DecodeBits` keeps in state Decode (R100 to R104). -/
theorem decodeBits_keeps {p : Nat} {r : RomRow} {c : DecCtx} (hs : c.state = .decode) (h : EngineInv p r c) :
    AccInv r (decodeBits r c).2 ∧ ((decodeBits r c).1 = .ok → EngineInv p r (decodeBits r c).2) := by
  have post := decodeBits_post r c
  unfold decodeBits at post ⊢
  cases hcodec : r.codec with
  | pdwm =>
    simp only [hcodec] at post ⊢
    have k := decodePdwm_keeps h.acc
    refine ⟨k, fun _ => ⟨Nat.zero_le _, k.count, k.data, fun _ hm => ?_, fun _ hm => ?_, fun hr => ?_, ?_, k.switchIdle, fun hl => ?_⟩⟩
    · rw [hcodec] at hm; cases hm
    · rw [hcodec] at hm; cases hm
    · have := post.same.state.symm.trans hr
      rw [hs] at this; cases this
    · exact post.same.message ▸ h.protocol
    · exact post.same.prevToggle.trans (h.toggleIdle hl)
  | manchester =>
    simp only [hcodec] at post ⊢
    have k := decodeManchester_keeps hcodec ⟨h.acc, h.boundary hs hcodec, h.middle hs hcodec⟩
    refine ⟨k.1, fun hok => ⟨Nat.zero_le _, k.1.count, k.1.data, fun _ _ => (k.2 hok).boundary, fun _ _ => (k.2 hok).middle,
      fun hr => ?_, ?_, k.1.switchIdle, fun hl => ?_⟩⟩
    · have := post.same.state.symm.trans hr
      rw [hs] at this; cases this
    · exact post.same.message ▸ h.protocol
    · exact post.same.prevToggle.trans (h.toggleIdle hl)

/-- What a turn of `Run` leaves when it ends the loop. -/
structure RunPost (p : Nat) (r : RomRow) (c c' : DecCtx) : Prop where
  inv : EngineInv p r c'
  shorter : c'.timings.length ≤ c.timings.length
  pending : c'.timings.length ≤ 1 ∨ c'.timings.length < r.repLen ∨ c'.timings.length < c.timings.length

/-- The measure that every turn of `Run` which goes on makes smaller (R128). -/
def runMeasure (c : DecCtx) : Nat :=
  match c.state with
  | .waitPreamble => 2 * (c.timings.length / 2)
  | .decode => 2 * (c.timings.length / 2) + 1
  | .processRepeat => 2 * (c.timings.length / 2) + 1

/-- What one turn does in state WaitPreamble (R121, R122). -/
theorem waitTurn_cases (r : RomRow) (c : DecCtx) :
    (∃ n, waitTurn r c = .again (enterDecode { c with timings := c.timings.drop n }) ∧ n ≤ c.timings.length ∧ 2 ≤ n)
    ∨ ∃ n, waitTurn r c = .stop none { c with timings := c.timings.drop n } ∧ (c.timings.drop n).length ≤ 1 := by
  obtain ⟨h1, ⟨n, hn⟩, h2, h3⟩ := checkPreamble_post r c
  unfold waitTurn
  cases hc : checkPreamble r c with
  | mk found c' =>
    rw [hc] at h1 hn h2 h3
    simp only at h1 hn h2 h3
    rw [hn] at h1
    cases found with
    | true =>
      have h3 := h3 rfl
      rw [hn, List.length_drop] at h3
      by_cases hle : n ≤ c.timings.length
      · exact .inl ⟨n, by simp only [← h1], hle, by omega⟩
      · refine .inl ⟨c.timings.length, ?_, Nat.le_refl _, by omega⟩
        rw [List.drop_of_length_le (Nat.le_of_not_le hle)] at h1
        simp only [List.drop_length, ← h1]
    | false => exact .inr ⟨n, by simp only [← h1], hn ▸ h2 rfl⟩

/-- What one turn does in state Decode, by the demodulator's answer (R123, R124, R125). -/
theorem decodeTurn_cases (r : RomRow) (pid : Pid) (c : DecCtx) :
    (decodeTurn r pid c = .stop none (decodeBits r c).2 ∧ (decodeBits r c).1 = .ok)
    ∨ (decodeTurn r pid c = .again ((decodeBits r c).2.goTo .waitPreamble) ∧ (decodeBits r c).1 = .error)
    ∨ ((decodeBits r c).1 = .ready ∧ interpret r pid (decodeBits r c).2 = none
        ∧ decodeTurn r pid c = .stop none ((decodeBits r c).2.goTo .waitPreamble))
    ∨ ((decodeBits r c).1 = .ready ∧ ∃ c'', interpret r pid (decodeBits r c).2 = some c''
        ∧ decodeTurn r pid c = .stop (some c''.message) (c''.goTo (afterMessage r))) := by
  unfold decodeTurn
  cases hd : decodeBits r c with
  | mk st c' =>
    cases st with
    | ok => exact .inl ⟨rfl, rfl⟩
    | error => exact .inr (.inl ⟨rfl, rfl⟩)
    | ready =>
      cases hi : interpret r pid c' with
      | none => exact .inr (.inr (.inl ⟨rfl, rfl, by simp [hi]⟩))
      | some c'' => exact .inr (.inr (.inr ⟨rfl, c'', rfl, by simp [hi]⟩))

/-- What one turn does in state ProcessRepeat (R126, R127). -/
theorem repeatTurn_cases (r : RomRow) (c : DecCtx) :
    (repeatTurn r c = .stop none c ∧ c.timings.length < r.repLen)
    ∨ (repeatTurn r c = .again (c.goTo .waitPreamble) ∧ r.repLen ≤ c.timings.length)
    ∨ (repeatTurn r c = .stop (some (c.consume r.repLen).markRepeat.message) (c.consume r.repLen).markRepeat
        ∧ r.repLen ≤ c.timings.length) := by
  unfold repeatTurn
  obtain ⟨h, hl⟩ | ⟨h, hl⟩ | ⟨h, hl⟩ := decodeRepeat_cases r c
  · exact .inl ⟨by rw [h], hl⟩
  · exact .inr (.inr ⟨by rw [h], hl⟩)
  · exact .inr (.inl ⟨by rw [h], hl⟩)

/-- A turn that goes on makes the measure smaller, in every state and on every row (R128). -/
theorem engineTurn_again {r : RomRow} {pid : Pid} {c c' : DecCtx} (h : engineTurn r pid c = .again c') :
    runMeasure c' < runMeasure c ∧ c'.timings.length ≤ c.timings.length := by
  unfold engineTurn at h
  unfold runMeasure
  cases hs : c.state with
  | waitPreamble =>
    simp only [hs] at h
    obtain ⟨n, hw, hn, h2⟩ | ⟨n, hw, hl⟩ := waitTurn_cases r c <;> rw [hw] at h <;> cases h
    simp [enterDecode]
    omega
  | decode =>
    simp only [hs] at h
    obtain ⟨hw, _⟩ | ⟨hw, _⟩ | ⟨_, _, hw⟩ | ⟨_, _, _, hw⟩ := decodeTurn_cases r pid c <;> rw [hw] at h <;> cases h
    have := (decodeBits_post r c).shorter
    simp
    omega
  | processRepeat =>
    simp only [hs] at h
    obtain ⟨hw, _⟩ | ⟨hw, _⟩ | ⟨hw, _⟩ := repeatTurn_cases r c <;> rw [hw] at h <;> cases h
    simp

/-- A turn keeps the engine's invariant, and ends the loop with few enough timings (R25 (f)). -/
theorem engineTurn_keeps {p : Nat} {r : RomRow} {c : DecCtx} (hr : rowOk r = true) (h : EngineInv p r c) :
    (∀ c', engineTurn r (pidOf p) c = .again c' → EngineInv p r c')
    ∧ ∀ m c', engineTurn r (pidOf p) c = .stop m c' → RunPost p r c c' := by
  have hlen := rowOk_databitLen hr
  unfold engineTurn
  cases hs : c.state with
  | waitPreamble =>
    obtain ⟨n, hw, hn, h2⟩ | ⟨n, hw, hl⟩ := waitTurn_cases r c
    · refine ⟨fun c' he => ?_, fun m c' he => ?_⟩ <;> rw [hw] at he <;> cases he
      exact ⟨Nat.zero_le _, Nat.zero_le _, Nat.one_pos, fun _ _ _ => hlen, fun _ _ hsw => (by cases hsw), fun hst => (by cases hst),
        h.protocol, fun _ => rfl, h.toggleIdle⟩
    · refine ⟨fun c' he => ?_, fun m c' he => ?_⟩ <;> rw [hw] at he <;> cases he
      exact ⟨h.congr rfl, by simp, .inl hl⟩
  | decode =>
    have post := decodeBits_post r c
    obtain ⟨ka, kok⟩ := decodeBits_keeps hs h
    have hm : (decodeBits r c).2.message.protocol = pidNone ∨ (decodeBits r c).2.message.protocol = pidOf p :=
      post.same.message ▸ h.protocol
    have ht : r.layout ≠ .rc6 → (decodeBits r c).2.prevToggle = false := fun hl => post.same.prevToggle.trans (h.toggleIdle hl)
    obtain ⟨hw, hst⟩ | ⟨hw, _⟩ | ⟨hst, _, hw⟩ | ⟨hst, c2, hi, hw⟩ := decodeTurn_cases r (pidOf p) c
    · refine ⟨fun c' he => ?_, fun m c' he => ?_⟩ <;> simp only [hw] at he <;> cases he
      exact ⟨kok hst, post.shorter, .inl (post.ok hst)⟩
    · refine ⟨fun c' he => ?_, fun m c' he => ?_⟩ <;> simp only [hw] at he <;> cases he
      exact EngineInv.wait ka hm ht
    · refine ⟨fun c' he => ?_, fun m c' he => ?_⟩ <;> simp only [hw] at he <;> cases he
      exact ⟨EngineInv.wait ka hm ht, post.shorter, .inr (.inr (post.ready hst).1)⟩
    · refine ⟨fun c' he => ?_, fun m c' he => ?_⟩ <;> simp only [hw] at he <;> cases he
      obtain ⟨h1, h2, h3⟩ := interpret_some hi
      have e1 : c2.timings = (decodeBits r c).2.timings := by rw [h1]
      have e2 : c2.databitCnt = (decodeBits r c).2.databitCnt := by rw [h1]
      have e3 : c2.data = (decodeBits r c).2.data := by rw [h1]
      have e4 : c2.switchDetect = (decodeBits r c).2.switchDetect := by rw [h1]
      refine ⟨⟨Nat.zero_le _, ?_, ?_, fun he => ?_, fun he => ?_, fun he => ?_, .inr h2, fun hp => ?_, fun hl => ?_⟩, ?_, .inr (.inr ?_)⟩
      · exact e2 ▸ ka.count
      · simp only [DecCtx.goTo, e2, e3]; exact ka.data
      · simp only [DecCtx.goTo, afterMessage] at he; split at he <;> cases he
      · simp only [DecCtx.goTo, afterMessage] at he; split at he <;> cases he
      · refine ⟨?_, h2⟩
        simp only [DecCtx.goTo, afterMessage] at he
        split at he
        · assumption
        · cases he
      · exact e4.trans (ka.switchIdle hp)
      · exact (h3 hl).trans (ht hl)
      · simpa [e1] using post.shorter
      · simpa [e1] using (post.ready hst).1
  | processRepeat =>
    have hh := h.holding hs
    obtain ⟨hw, hl⟩ | ⟨hw, hl⟩ | ⟨hw, hl⟩ := repeatTurn_cases r c
    · refine ⟨fun c' he => ?_, fun m c' he => ?_⟩ <;> simp only [hw] at he <;> cases he
      exact ⟨h, Nat.le_refl _, .inr (.inl hl)⟩
    · refine ⟨fun c' he => ?_, fun m c' he => ?_⟩ <;> simp only [hw] at he <;> cases he
      exact EngineInv.wait h.acc h.protocol h.toggleIdle
    · refine ⟨fun c' he => ?_, fun m c' he => ?_⟩ <;> simp only [hw] at he <;> cases he
      refine ⟨⟨Nat.zero_le _, h.count, h.data, h.boundary, h.middle, fun _ => hh, h.protocol, h.switchIdle, h.toggleIdle⟩, ?_, .inr (.inr ?_)⟩
      · simp [DecCtx.markRepeat]
      · have := hh.1
        simp [DecCtx.markRepeat]
        omega

/-- `Run` on a context in its range, with at most six timings, ends by a turn's own stop (R123, R128). -/
theorem run_post {p : Nat} {r : RomRow} {c : DecCtx} (hr : rowOk r = true) (h : EngineInv p r c) (hl : c.timings.length ≤ 6) :
    RunPost p r c (run r (pidOf p) c).2 := by
  refine iterate_spec (P := fun b => EngineInv p r b ∧ b.timings.length ≤ c.timings.length)
    (Q := fun (_ : Option Message) b => RunPost p r c b) (measure := runMeasure) ?_ ?_ _ c ⟨h, Nat.le_refl _⟩ ?_
  · intro b b' hb ht
    have := engineTurn_again ht
    exact ⟨⟨(engineTurn_keeps hr hb.1).1 b' ht, Nat.le_trans this.2 hb.2⟩, this.1⟩
  · intro b m b' hb ht
    obtain ⟨k1, k2, k3⟩ := (engineTurn_keeps hr hb.1).2 m b' ht
    have := hb.2
    exact ⟨k1, by omega, by omega⟩
  · unfold runMeasure maxTurns
    split <;> omega

/-- The loop of `Run`, one turn unfolded (R123): with at most six pending timings its bound plays no part (R128). -/
theorem run_eq {r : RomRow} {pid : Pid} {c : DecCtx} (hl : c.timings.length ≤ 6) :
    run r pid c = match engineTurn r pid c with
      | .again c' => run r pid c'
      | .stop m c' => (m, c') := by
  conv => lhs; unfold run maxTurns
  simp only [iterate]
  cases ht : engineTurn r pid c with
  | stop m c' => rfl
  | again c' =>
    have hlt := (engineTurn_again ht).1
    have h7 : runMeasure c ≤ 7 := by unfold runMeasure; split <;> omega
    exact (iterate_stable runMeasure (fun b b' hb => (engineTurn_again hb).1) 7 8 c' (by omega) (by omega)).symm

/-- What every context that `Run` passes through has in common with the one it began on: only the oldest timings leave, the
held message, the last level and the toggle stay, and it is in WaitPreamble, the first one, or fresh after a preamble. -/
theorem Passes.post {r : RomRow} {p b : DecCtx} (h : Passes r p b) :
    (∃ n, b.timings = p.timings.drop n) ∧ b.message = p.message ∧ b.lastLevel = p.lastLevel ∧ b.prevToggle = p.prevToggle
      ∧ (b.state = .waitPreamble ∨ b = p ∨ ∃ n, b = enterDecode { p with timings := p.timings.drop n }) := by
  induction h with
  | start => exact ⟨⟨0, rfl⟩, rfl, rfl, rfl, .inr (.inl rfl)⟩
  | @preamble q q' hq hs hc ih =>
    obtain ⟨hn, hm, hl, ht, -⟩ := ih
    obtain ⟨heq, hk, -, -⟩ := checkPreamble_post r q
    rw [hc] at heq hk
    obtain ⟨n, hd⟩ : ∃ n, q'.timings = p.timings.drop n := by
      obtain ⟨k, hk⟩ := hk
      exact drop_step hn hk
    simp only at heq
    rw [heq]
    exact ⟨⟨n, hd⟩, hm, hl, ht, .inr (.inr ⟨n, by simp [enterDecode, hd, hm, hl, ht]⟩)⟩
  | @decodeError q q' hq hs hc ih =>
    obtain ⟨hn, hm, hl, ht, -⟩ := ih
    have post := decodeBits_post r q
    rw [hc] at post
    obtain ⟨k, hk⟩ := post.suffix
    exact ⟨drop_step hn hk, post.same.message.trans hm, post.same.lastLevel.trans hl, post.same.prevToggle.trans ht, .inl rfl⟩
  | @repeatError q q' hq hs hc ih =>
    obtain ⟨hn, hm, hl, ht, -⟩ := ih
    obtain ⟨h, -⟩ | ⟨h, -⟩ | ⟨h, -⟩ := decodeRepeat_cases r q <;> rw [hc] at h <;> cases h
    exact ⟨hn, hm, hl, ht, .inl rfl⟩

/-- A turn of `Run` that goes on passes to the next context. -/
theorem Passes.again {r : RomRow} {pid : Pid} {p b b' : DecCtx} (h : Passes r p b) (ht : engineTurn r pid b = .again b') :
    Passes r p b' := by
  unfold engineTurn at ht
  cases hs : b.state with
  | waitPreamble =>
    simp only [hs, waitTurn] at ht
    split at ht
    · cases ht
      exact .preamble h hs ‹_›
    · cases ht
  | decode =>
    simp only [hs, decodeTurn] at ht
    split at ht
    · cases ht
    · cases ht
      exact .decodeError h hs ‹_›
    · split at ht <;> cases ht
  | processRepeat =>
    simp only [hs, repeatTurn] at ht
    split at ht
    · cases ht
    · cases ht
      exact .repeatError h hs ‹_›
    · cases ht

/-- `Run` ends by the stop of a turn on a context it passes through (R123, R128). -/
theorem run_passes {r : RomRow} {pid : Pid} {c : DecCtx} (hl : c.timings.length ≤ 6) :
    ∃ b, Passes r c b ∧ engineTurn r pid b = .stop (run r pid c).1 (run r pid c).2 := by
  refine iterate_spec (P := Passes r c) (Q := fun (m : Option Message) b' => ∃ b, Passes r c b ∧ engineTurn r pid b = .stop m b')
    (measure := runMeasure) (fun b b' hb ht => ⟨hb.again ht, (engineTurn_again ht).1⟩) (fun b m b' hb ht => ⟨b, hb, ht⟩) _ c .start ?_
  unfold runMeasure maxTurns
  split <;> omega

/-- What `DecodeStep` does to a context in its range: it never overflows and it keeps the range (R25, R120, R221). -/
theorem decodeStep_keeps {p : Nat} {r : RomRow} {c : DecCtx} (hr : rowOk r = true) (h : CtxInv p r c) (l : Level) (d : Duration) :
    ∃ m c', decodeStep r (pidOf p) c l d = .ok (m, c') ∧ CtxInv p r c' := by
  obtain ⟨hi, hp⟩ := (ctxInv_iff p r c).1 h
  have hlen := rowOk_repLen_le hr
  have hb : pendingBound r ≤ 5 := by unfold pendingBound; omega
  have hlt : ((dropOnRepeatedLevel l c).setLastLevel l).timings.length ≤ c.timings.length := by
    unfold dropOnRepeatedLevel
    split <;> simp
  have heng : EngineInv p r ((dropOnRepeatedLevel l c).setLastLevel l) := by
    unfold dropOnRepeatedLevel
    split <;> exact hi.congr rfl
  generalize hc : (dropOnRepeatedLevel l c).setLastLevel l = b at hlt heng
  have happ : b.append d = .ok { b with timings := b.timings ++ [d] } :=
    (append_ok_iff _ _ _).2 ⟨by unfold DecCtx.timingsCnt maxTimings; omega, rfl⟩
  have post := run_post (c := { b with timings := b.timings ++ [d] }) hr (heng.congr rfl) (by simp; omega)
  refine ⟨_, _, by rw [decodeStep, hc, happ], (ctxInv_iff p r _).2 ⟨post.inv, ?_⟩⟩
  have h1 := post.shorter
  have h2 := post.pending
  simp only [List.length_append, List.length_singleton] at h1 h2
  unfold pendingBound at hp ⊢
  omega

/-- A sample overflows exactly when it alternates the level of a full buffer (R96, R120, R221). -/
theorem decodeStep_error_iff (r : RomRow) (pid : Pid) (c : DecCtx) (l : Level) (d : Duration) (cause : FaultCause) :
    decodeStep r pid c l d = .error cause ↔ l ≠ c.lastLevel ∧ 6 ≤ c.timingsCnt ∧ cause = .timingOverflow := by
  unfold decodeStep dropOnRepeatedLevel
  by_cases hl : l = c.lastLevel
  · have : ((c.consume c.timingsCnt).setLastLevel l).append d = .ok { (c.consume c.timingsCnt).setLastLevel l with timings := [d] } := by
      refine (append_ok_iff _ _ _).2 ⟨by simp [DecCtx.timingsCnt, maxTimings], ?_⟩
      simp [DecCtx.timingsCnt]
    simp only [hl, ↓reduceIte] at this ⊢
    rw [this]
    simp
  · by_cases hc : c.timingsCnt < 6
    · rw [if_neg hl, (append_ok_iff (c.setLastLevel l) _ d).2 ⟨hc, rfl⟩]
      simp
      omega
    · rw [if_neg hl, (append_error_iff (c.setLastLevel l) d .timingOverflow).2 ⟨Nat.le_of_not_lt hc, rfl⟩]
      simp only [Except.error.injEq]
      exact ⟨fun h => ⟨hl, Nat.le_of_not_lt hc, h.symm⟩, fun h => h.2.2.symm⟩

/-! ## The fan-out (R192, R194) -/

/-- What a fan-out that answers can do, row by row. -/
theorem sampleRows_ok_cons {l : Level} {d : Duration} {p : Nat} {r : RomRow} {rest : Rom} {c : DecCtx} {cs cs' : List DecCtx}
    {m : Option Message} (h : sampleRows l d p (r :: rest) (c :: cs) = .ok (m, cs')) :
    ∃ m1 c1 m2 cs2, decodeStep r (pidOf p) c l d = .ok (m1, c1) ∧ sampleRows l d (p + 1) rest cs = .ok (m2, cs2)
      ∧ m = m1.or m2 ∧ cs' = c1 :: cs2 := by
  simp only [sampleRows] at h
  split at h
  · cases h
  · rename_i m1 c1 h1
    split at h
    · cases h
    · rename_i m2 cs2 h2
      injection h with h
      injection h with ha hb
      exact ⟨m1, c1, m2, cs2, h1, h2, ha.symm, hb.symm⟩

/-- The only cause a fan-out can raise (R220, R221). -/
theorem sampleRows_error {l : Level} {d : Duration} {cause : FaultCause} : ∀ {p : Nat} {rom : Rom} {cs : List DecCtx},
    sampleRows l d p rom cs = .error cause → cause = .timingOverflow ∧ ∃ c ∈ cs, l ≠ c.lastLevel ∧ 6 ≤ c.timingsCnt
  | _, [], _, h => by simp [sampleRows] at h
  | _, _ :: _, [], h => by simp [sampleRows] at h
  | p, r :: rest, c :: cs, h => by
    simp only [sampleRows] at h
    split at h
    · rename_i c' h1
      injection h with h
      subst h
      obtain ⟨k1, k2, k3⟩ := (decodeStep_error_iff r (pidOf p) c l d c').1 h1
      exact ⟨k3, c, List.mem_cons_self, k1, k2⟩
    · split at h
      · rename_i c' h2
        injection h with h
        subst h
        obtain ⟨k1, b, hb, k2⟩ := sampleRows_error h2
        exact ⟨k1, b, List.mem_cons_of_mem _ hb, k2⟩
      · cases h

end Sys2Proof.Machine
end

