-- ==== Sys2Proof/Machine/Assembler.lean ====
section
/-! DEFINITION. Assembler.lean: the text form of the commands (30_encoding.md R79) and the pseudo-commands FEED, ENC_RUN and
ENC_FRAME (R80), on lines given as lists of characters. The block never sees text: this is the notation of the spec's
programs. Lexical conventions the spec leaves open: notes/assumptions/15.md. -/

namespace Sys2Proof.Machine

/-! ## Lexical form: comments, operands, numbers (R79) -/

/-- The line up to its comment; a `;` inside a quoted string starts none. -/
def stripComment : Bool → List Char → List Char
  | _, [] => []
  | quoted, ch :: rest =>
    if ch = '"' then ch :: stripComment (!quoted) rest
    else if ch = ';' && !quoted then []
    else ch :: stripComment quoted rest

/-- A line without leading and trailing blanks. -/
def trimBlanks (s : List Char) : List Char :=
  ((s.dropWhile (fun ch => decide (ch = ' '))).reverse.dropWhile (fun ch => decide (ch = ' '))).reverse

/-- The operands of a line: separated by commas, a comma inside a quoted string separates none. -/
def splitOperands : Bool → List Char → List (List Char)
  | _, [] => [[]]
  | quoted, ch :: rest =>
    let quoted' := if ch = '"' then !quoted else quoted
    if ch = ',' && !quoted then [] :: splitOperands quoted rest
    else
      match splitOperands quoted' rest with
      | [] => [[ch]]
      | o :: os => (ch :: o) :: os

/-- The value of a digit in base `base`. -/
def digitValue (base : Nat) (ch : Char) : Option Nat :=
  let n := ch.toNat
  let v := if 48 ≤ n && n ≤ 57 then n - 48
    else if 97 ≤ n && n ≤ 102 then n - 87
    else if 65 ≤ n && n ≤ 70 then n - 55
    else base
  if v < base then some v else none

/-- The value of a digit string after `acc`. -/
def digitsValue (base acc : Nat) : List Char → Option Nat
  | [] => some acc
  | ch :: rest =>
    match digitValue base ch with
    | some v => digitsValue base (base * acc + v) rest
    | none => none

/-- A number: decimal, or hexadecimal after `0x` (R79). -/
def parseNumber : List Char → Option Nat
  | [] => none
  | ['0', 'x'] => none
  | '0' :: 'x' :: rest => digitsValue 16 0 rest
  | s => digitsValue 10 0 s

/-- A number that fits in 32 bits. -/
def parseWord (s : List Char) : Option Word :=
  match parseNumber s with
  | some n => if n < 2 ^ 32 then some (BitVec.ofNat 32 n) else none
  | none => none

/-- `<proto>`: a number or one of the four names (R79). -/
def parseProtocol (s : List Char) : Option Pid :=
  if s = ['N', 'E', 'C'] then some 0#8
  else if s = ['N', 'E', 'C', 'e', 'x', 't'] then some 1#8
  else if s = ['S', 'a', 'm', 's', 'u', 'n', 'g', '3', '2'] then some 2#8
  else if s = ['R', 'C', '6'] then some 3#8
  else match parseNumber s with
    | some n => if n < 256 then some (BitVec.ofNat 8 n) else none
    | none => none

/-- `M` or `S` (R79). -/
def parseLevel (s : List Char) : Option Level :=
  if s = ['M'] then some true else if s = ['S'] then some false else none

/-- The selector of `INFO` by name (R79). -/
def parseSelector (s : List Char) : Option Byte :=
  if s = ['N', 'A', 'M', 'E'] then some 0#8
  else if s = ['A', 'L', 'E', 'N'] then some 1#8
  else if s = ['C', 'L', 'E', 'N'] then some 2#8
  else if s = ['F', 'R', 'E', 'Q'] then some 3#8
  else if s = ['D', 'U', 'T', 'Y'] then some 4#8
  else none

/-- A quoted string of at most 12 ASCII characters (R79, R212). -/
def parseName : List Char → Option (List Byte)
  | '"' :: rest =>
    match rest.reverse with
    | '"' :: body =>
      if body.length ≤ 12 && body.all (fun ch => decide (0 < ch.toNat ∧ ch.toNat < 128 ∧ ch ≠ '"')) then
        some (body.reverse.map (fun ch => BitVec.ofNat 8 ch.toNat))
      else none
    | _ => none
  | _ => none

/-! ## Commands (R79) -/

/-- `DEC_SAMPLE <l>, <d>`. -/
def asmSample (l d : List Char) : Option Instr :=
  match parseLevel l, parseWord d with
  | some lv, some n => some (.decSample lv n)
  | _, _ => none

/-- `ENC_LOAD <proto>, <address>, <command>` with the flag of the `R` operand. -/
def asmLoad (p a c : List Char) (rep : Bool) : Option Instr :=
  match parseProtocol p, parseWord a, parseWord c with
  | some pid, some address, some command => some (.encLoad pid address command rep)
  | _, _, _ => none

/-- One command from its mnemonic and operands (R79). -/
def asmCommand (mnemonic : List Char) (operands : List (List Char)) : Option Instr :=
  if mnemonic = ['N', 'O', 'P'] then (match operands with | [] => some .nop | _ => none)
  else if mnemonic = ['D', 'E', 'C', '_', 'R', 'E', 'S', 'E', 'T'] then
    (match operands with | [] => some .decReset | _ => none)
  else if mnemonic = ['D', 'E', 'C', '_', 'S', 'A', 'M', 'P', 'L', 'E'] then
    (match operands with | [l, d] => asmSample l d | _ => none)
  else if mnemonic = ['E', 'N', 'C', '_', 'L', 'O', 'A', 'D'] then
    (match operands with
      | [p, a, c] => asmLoad p a c false
      | [p, a, c, ['R']] => asmLoad p a c true
      | _ => none)
  else if mnemonic = ['E', 'N', 'C', '_', 'S', 'T', 'E', 'P'] then
    (match operands with | [] => some .encStep | _ => none)
  else if mnemonic = ['I', 'N', 'F', 'O'] then
    (match operands with
      | [p, sel] =>
        match parseProtocol p, parseSelector sel with
        | some pid, some b => some (.info pid b)
        | _, _ => none
      | _ => none)
  else if mnemonic = ['F', 'I', 'N', 'D', '_', 'N', 'A', 'M', 'E'] then
    (match operands with
      | [s] =>
        match parseName s with
        | some name => some (.findName (nameWord name 0) (nameWord name 1) (nameWord name 2))
        | none => none
      | _ => none)
  else none

/-! ## Pseudo-commands (R80) -/

/-- `FEED`: one `DEC_SAMPLE` per pair, in order. -/
def expandFeed (samples : List (Level × Duration)) : List Instr := samples.map (fun p => .decSample p.1 p.2)

/-- `ENC_RUN <n>`. -/
def expandRun (n : Nat) : List Instr := List.replicate n .encStep

/-- How many `EncodeStep`s up to and including the first with status `Done`, looking at most `fuel` steps ahead. -/
def stepsToDone (r : RomRow) : Nat → EncCtx → Option Nat
  | 0, _ => none
  | fuel + 1, e =>
    match encodeStep r e with
    | none => none
    | some (e', t) => if t.done then some 1 else (stepsToDone r fuel e').map (· + 1)

/-- `ENC_FRAME` for an encoder `e` bound to row `r`: a cycle has at most `frameLength` or `rep_len` timings. -/
def expandFrame (r : RomRow) (e : EncCtx) : Option (List Instr) :=
  (stepsToDone r (frameLength r + r.repLen) e).map expandRun

/-- One operand `<l> <d>` of `FEED`, the blank between them optional. -/
def parseSample (s : List Char) : Option (Level × Duration) :=
  match s with
  | ch :: rest =>
    match parseLevel [ch], parseWord (trimBlanks rest) with
    | some l, some d => some (l, d)
    | _, _ => none
  | [] => none

/-- Every element, or nothing if one has no value. -/
def allOrNone {α β : Type} (f : α → Option β) : List α → Option (List β)
  | [] => some []
  | a :: as =>
    match f a, allOrNone f as with
    | some b, some bs => some (b :: bs)
    | _, _ => none

/-- The commands of one line (R79, R80); an empty line gives none. `bound` is the row the encoder is bound to and its
context, which only `ENC_FRAME` reads. -/
def assembleLine (bound : Option (RomRow × EncCtx)) (line : List Char) : Option (List Instr) :=
  let text := trimBlanks (stripComment false line)
  let mnemonic := text.takeWhile (fun ch => decide (ch ≠ ' '))
  let rest := trimBlanks (text.dropWhile (fun ch => decide (ch ≠ ' ')))
  let operands := if rest = [] then [] else (splitOperands false rest).map trimBlanks
  if text = [] then some []
  else if mnemonic = ['F', 'E', 'E', 'D'] then (allOrNone parseSample operands).map expandFeed
  else if mnemonic = ['E', 'N', 'C', '_', 'R', 'U', 'N'] then
    (match operands with
      | [n] => (parseNumber n).map expandRun
      | _ => none)
  else if mnemonic = ['E', 'N', 'C', '_', 'F', 'R', 'A', 'M', 'E'] then
    (match operands, bound with
      | [], some (r, e) => expandFrame r e
      | _, _ => none)
  else (asmCommand mnemonic operands).map (fun i => [i])

end Sys2Proof.Machine
end

