-- ==== Sys2Proof/Tests/Slice0.lean ====
section
/-! SUPPORT. Slice0.lean: the model's own tests. Expected values are the spec's: the vectors V<n> of 95_test_vectors.md, or the
tables of the rule named. `witness_<Name>` shows that the hypotheses of the obligation of that name can be met. -/

namespace Sys2Proof.Tests

open Sys2Proof Sys2Proof.Machine

/-! ## Helpers -/

/-- A frame that uses only its first word. -/
def frame0 (w0 : Word) : Frame := { w0 := w0, w1 := 0#32, w2 := 0#32, w3 := 0#32 }

/-- The reset machine with host actions waiting. -/
def waiting (events : List HostEvent) : State := { State.reset with port := events }

/-- A context of state `st` with these registers; the others at reset. -/
def ctx (st : DecState) (timings : List Duration) (lastLevel : Level) (data cnt : Nat) (sw : Bool) : DecCtx :=
  { DecCtx.reset with
    state := st
    timings := timings
    lastLevel := lastLevel
    data := data
    databitCnt := cnt
    switchDetect := sw }

/-- The reset machine with context 0 replaced. -/
def withCtx0 (c : DecCtx) : State := { State.reset with dec := c :: State.reset.dec.tail }

/-- The reset machine after a fault of the encoder. -/
def faulted : State := { State.reset with fault := true, faultCause := 0x03#8 }

/-- An encoder position with V1's payload. -/
def encAt (st : EncState) (timings bits : Nat) : EncCtx :=
  { state := st, timingsEncoded := timings, bitsEncoded := bits, data := 0xF30CFF00, toggle := false }

/-- The machine after `ENC_LOAD NEC, 0, 0x0C` and some steps. -/
def boundNec (e : EncCtx) : State := { State.reset with encBound := 0x00#8, enc := e }

/-- The message of V1. -/
def msg1 : Message := { protocol := 0x00#8, address := 0#32, command := 0x0C#32, rep := false }

/-- The four words of the response to a command, if it answers a next state. -/
def answer (o : StepResult) : Option Frame :=
  match stateAfter o with
  | some t => t.response
  | none => none

/-! ## WellFormed: every check refuses something -/

theorem test_wf_sel4 : (Instr.info 0xFF#8 4#8).wf = true := by decide
theorem test_wf_sel5 : (Instr.info 0x00#8 5#8).wf = false := by decide
theorem test_reference_rows : referenceRom.all rowOk = true := by decide
theorem test_reference_rom : romOk referenceRom = true := by decide
/-- R45 (a). -/
theorem test_timing_refused : timingOk { necRow with preambleMark := 0#32 } = false
    ∧ timingOk { necRow with preambleSpace := 0#32 } = false ∧ timingOk { necRow with preambleTolPm := 0 } = false
    ∧ timingOk { necRow with preambleTolPm := 1000 } = false ∧ timingOk { necRow with bitTol := 0#32 } = false
    ∧ timingOk { necRow with databitLen := 0 } = false ∧ timingOk { necRow with silence := 0x80000000#32 } = false
    ∧ timingOk { necRow with bit0Space := 0x80000000#32 } = false ∧ timingOk { rc6Row with bitUnit := 0x80000000#32 } = false
    ∧ timingOk { necRow with repGapMax := 0x80000000#32 } = false := by decide
/-- R45 (a) on a row without a repeat pattern: the pattern's durations are bounded all the same. -/
theorem test_rep_durations_refused : rowOk { rc6Row with repGap := 0x7FFFFFFF#32 } = true
    ∧ rowOk { rc6Row with repGap := 0x80000000#32 } = false ∧ rowOk { rc6Row with repGapMin := 0x80000000#32 } = false
    ∧ rowOk { rc6Row with repGapMax := 0x80000000#32 } = false
    ∧ rowOk { rc6Row with repTail := [⟨.abs, 0x80000000#32⟩] } = false := by decide
/-- R41, I12: a field of the codec that the row does not use holds any value. -/
theorem test_unused_fields : rowOk { rc6Row with bit1Mark := 0x80000000#32, bit0Space := 0xFFFFFFFF#32 } = true
    ∧ rowOk { necRow with bitUnit := 0x80000000#32, dblIndex := some 40 } = true := by decide
/-- R45 (b): 2 * 566 is above 1690 - 560. -/
theorem test_pdwm_refused : codecOk { necRow with bitTol := 566#32 } = false ∧ codecOk { necRow with bitTol := 565#32 } = true
    ∧ codecOk { necRow with bit0Space := 0#32 } = false := by decide
/-- R45 (c). -/
theorem test_manchester_refused : codecOk { rc6Row with bitTol := 223#32 } = false
    ∧ codecOk { rc6Row with bitTol := 222#32 } = true ∧ codecOk { rc6Row with dblIndex := some 21 } = false
    ∧ codecOk { rc6Row with bitUnit := 0#32 } = false := by decide
/-- R45 (d). -/
theorem test_repeat_refused : repeatOk { necRow with repLen := 3 } = false
    ∧ repeatOk { necRow with repGap := 30000#32 } = false ∧ repeatOk { necRow with repGap := 150000#32 } = false
    ∧ repeatOk { necRow with repTail := [] } = false ∧ repeatOk { samsung32Row with repLen := 0 } = true := by decide
/-- R45 (e), (f). -/
theorem test_layout_name_refused : layoutOk { necRow with databitLen := 31 } = false
    ∧ layoutOk { rc6Row with databitLen := 20 } = false ∧ nameOk { necRow with name := [] } = false
    ∧ nameOk { necRow with name := List.replicate 13 0x41#8 } = false ∧ nameOk { necRow with name := [0x41#8, 0#8] } = false
    ∧ nameOk { necRow with name := [0x80#8] } = false ∧ nameOk { necRow with name := [0x7F#8] } = true := by decide
/-- R45 (f), R42, R44: a second row of one name, a missing base row, a base row with another value. -/
theorem test_rom_refused : romOk (referenceRom ++ [necRow]) = false ∧ romOk [necRow, necExtRow, samsung32Row] = false
    ∧ romOk [necRow, { necExtRow with bitTol := 119#32 }, samsung32Row, rc6Row] = false := by decide

/-! ## Decoding words written out from R72 -/

theorem test_decode_nop : decode (frame0 0x00000000#32) = .ok .nop := by decide
theorem test_decode_decReset : decode (frame0 0x01000000#32) = .ok .decReset := by decide
/-- V1: the second `DEC_SAMPLE`. -/
theorem test_decode_decSample : decode ⟨0x02000001#32, 0x00002328#32, 0#32, 0#32⟩ = .ok (.decSample true 9000#32) := by decide
/-- P2. -/
theorem test_decode_encLoad :
    decode ⟨0x03030000#32, 0x00000004#32, 0x00000021#32, 0#32⟩ = .ok (.encLoad 3#8 4#32 0x21#32 false) := by decide
/-- V71: the `R` operand. -/
theorem test_decode_encLoad_R : decode ⟨0x03000001#32, 0#32, 0xC#32, 0#32⟩ = .ok (.encLoad 0#8 0#32 0xC#32 true) := by decide
theorem test_decode_encStep : decode (frame0 0x04000000#32) = .ok .encStep := by decide
/-- P4. -/
theorem test_decode_info : decode (frame0 0x05020300#32) = .ok (.info 2#8 3#8) := by decide
theorem test_decode_findName : decode ⟨0x06000000#32, 0x736D6153#32, 0x33676E75#32, 0x00000032#32⟩
    = .ok (.findName 0x736D6153#32 0x33676E75#32 0x00000032#32) := by decide
/-- V90: illegal frames. -/
theorem test_decode_illegal : decode (frame0 0x07000000#32) = .error .unassignedOpcode
    ∧ decode (frame0 0xFF000000#32) = .error .unassignedOpcode ∧ decode (frame0 0x05000500#32) = .error .badSelector
    ∧ decode (frame0 0x05000001#32) = .error .nonzeroField
    ∧ decode ⟨0x03000100#32, 0#32, 0xC#32, 0#32⟩ = .error .nonzeroField
    ∧ decode ⟨0x03000000#32, 0#32, 0xC#32, 1#32⟩ = .error .nonzeroField
    ∧ decode ⟨0x04000000#32, 1#32, 0#32, 0#32⟩ = .error .nonzeroField
    ∧ decode ⟨0x06010000#32, 0x0043454E#32, 0#32, 0#32⟩ = .error .nonzeroField := by decide
/-- P1, P2, V80: the encoder writes the spec's words. -/
theorem test_encode : encode (.decSample false 0x0001ADB0#32) = ⟨0x02000000#32, 0x0001ADB0#32, 0#32, 0#32⟩
    ∧ encode (.encLoad 3#8 4#32 0x21#32 false) = ⟨0x03030000#32, 4#32, 0x21#32, 0#32⟩
    ∧ encode (.info 1#8 1#8) = frame0 0x05010100#32 := by decide
/-- The opcode table's numbering: bit 0 is `W0[0]`, word 1 begins at bit 32. -/
theorem test_decodeTableWord : decodeTableWord 128 0x00000000000000010000000001000000 = none
    ∧ decodeTableWord 128 0x00000000000000000000232802000001 = some (.decSample true 9000#32)
    ∧ decodeTableWord 32 0x04000000 = some .encStep := by decide

/-! ## Responses (R75) -/

/-- V1 sample 68, V91, V94. -/
theorem test_response_words : (sampleResponse (some msg1)).frame = ⟨0x00000001#32, 0#32, 0xC#32, 0#32⟩
    ∧ (faultResponse 0x03#8).frame = frame0 0x03FF00FF#32
    ∧ ({ status := .errIllegal : Response }).frame = frame0 0x00FF0080#32 := by decide

/-! ## One step of each command -/

/-- R210, and V91 while faulted. -/
theorem test_nop : answer (exec .nop State.reset) = some (frame0 0x00FF0000#32)
    ∧ answer (exec .nop faulted) = some (frame0 0x03FF00FF#32) := by decide
/-- V72: the reset value, `last_level` included. -/
theorem test_decReset : (stateAfter (exec .decReset (withCtx0 (ctx .decode [560#32] false 5 3 true)))).map (·.dec)
    = some (List.replicate 4 DecCtx.reset) := by decide
/-- V41 sample 5: the NEC preamble is completed in row 0; rows 1 to 3 hold nothing and drop the Space. -/
theorem test_decSample_preamble :
    (stateAfter (exec (.decSample false 4500#32) (withCtx0 (ctx .waitPreamble [9000#32] true 0 0 false)))).map
      (fun t => t.dec.map (fun c => (c.state, c.timings, c.lastLevel)))
    = some [(.decode, [], false), (.waitPreamble, [], false), (.waitPreamble, [], false), (.waitPreamble, [], false)] := by decide
/-- V1 sample 68: the stop Mark completes the message. -/
theorem test_decSample_message :
    answer (exec (.decSample true 560#32) (withCtx0 (ctx .decode [] false 0xF30CFF00 32 false)))
      = some ⟨0x00000001#32, 0#32, 0xC#32, 0#32⟩ := by decide
/-- V70, third load: a rebind clears the toggle. -/
theorem test_encLoad_rebind :
    (stateAfter (exec (.encLoad 0#8 0#32 0#32 true)
        { State.reset with encBound := 3#8, enc := { encAt .encode 7 2 with toggle := true } })).map
      (fun t => (t.encBound, t.enc.data, t.enc.toggle, t.enc.state))
    = some (0#8, 0xFF00FF00, false, .space) := by decide
/-- V70, second load: no rebind, so the toggle bit is sent and flips. -/
theorem test_encLoad_toggle :
    (stateAfter (exec (.encLoad 3#8 4#32 0x21#32 false)
        { State.reset with encBound := 3#8, enc := { encAt .space 0 0 with toggle := true } })).map
      (fun t => (t.encBound, t.enc.data, t.enc.toggle)) = some (3#8, 0x108411, false) := by decide
/-- V1, step 68, and V60: the stop Mark with `DONE`, then the repeat code. -/
theorem test_encStep_done : answer (exec .encStep (boundNec (encAt .encode 67 32))) = some ⟨0x00FF0102#32, 0x230#32, 0#32, 0#32⟩
    ∧ (stateAfter (exec .encStep (boundNec (encAt .encode 67 32)))).map (·.enc) = some (encAt .encodeRepeat 0 0) := by decide
/-- V65: `n = 41`, bit 18 of V1's payload is 1. -/
theorem test_encStep_bit : answer (exec .encStep (boundNec (encAt .encode 40 18))) = some ⟨0x00FF0000#32, 1690#32, 0#32, 0#32⟩ := by
  decide
/-- V80, and an unregistered pid (R211). -/
theorem test_info : answer (exec (.info 1#8 0#8) State.reset) = some ⟨0x00FF0000#32, 0x6543454E#32, 0x7478#32, 0#32⟩
    ∧ answer (exec (.info 0#8 3#8) State.reset) = some ⟨0x00FF0000#32, 0x9470#32, 0#32, 0#32⟩
    ∧ answer (exec (.info 4#8 0#8) State.reset) = some (frame0 0x00FF0081#32) := by decide
/-- P4 command 1, and a name no row has (R212). -/
theorem test_findName :
    answer (exec (.findName 0x736D6153#32 0x33676E75#32 0x00000032#32) State.reset) = some (frame0 0x00020000#32)
    ∧ answer (exec (.findName 0#32 0#32 0#32) State.reset) = some (frame0 0x00FF0000#32) := by decide
/-- V91: faults, and what follows them. -/
theorem test_unbound : answer (exec .encStep State.reset) = some (frame0 0x03FF00FF#32)
    ∧ answer (step { faulted with port := [.command (frame0 0x07000000#32)] }) = some (frame0 0x03FF00FF#32) := by decide
/-- V92, V94: the frame check comes first. -/
theorem test_unknown : answer (exec (.encLoad 0xFF#8 0#32 0#32 false) State.reset) = some (frame0 0x01FF00FF#32)
    ∧ answer (step (waiting [.command (frame0 0x03FF0100#32)])) = some (frame0 0x00FF0080#32) := by decide
/-- The fetch places a table word where the next step takes it (V91, V80). -/
theorem test_withFetchWord : answer (step (State.reset.withFetchWord 128 0x04000000)) = some (frame0 0x03FF00FF#32)
    ∧ answer (step (State.reset.withFetchWord 32 0x05010100)) = some ⟨0x00FF0000#32, 4#32, 0#32, 0#32⟩ := by decide

/-! ## Matchers and codecs (V10, V11, V20, V26) -/

theorem test_matchRel : matchRel 8370 9000 70 = false ∧ matchRel 8371 9000 70 = true ∧ matchRel 9629 9000 70 = true
    ∧ matchRel 9630 9000 70 = false ∧ matchRel 0xFFFFFFFF 9000 70 = false := by decide
theorem test_matchAbs : matchAbs 440 560 120 = false ∧ matchAbs 441 560 120 = true ∧ matchAbs 679 560 120 = true
    ∧ matchAbs 680 560 120 = false ∧ matchUnits 1213 3 rc6Row = true ∧ matchUnits 1212 2 rc6Row = false := by decide
/-- V20, rows 1, 5, 6 and 16: a 1, two pairs with a Mark left, a pair on a Space, a Space for the stop Mark. -/
theorem test_pdwm : decodePdwm necRow (ctx .decode [560#32, 1690#32] false 0 0 false) = (.ok, ctx .decode [] false 1 1 false)
    ∧ decodePdwm necRow (ctx .decode [560#32, 1690#32, 560#32, 560#32, 560#32] true 0 5 false)
        = (.ok, ctx .decode [560#32] true 0x20 7 false)
    ∧ decodePdwm necRow (ctx .decode [560#32, 1690#32] true 0 3 false) = (.error, ctx .decode [560#32, 1690#32] true 0 3 false)
    ∧ decodePdwm necRow (ctx .decode [560#32] false 0xF30CFF00 32 false)
        = (.error, ctx .decode [560#32] false 0xF30CFF00 32 false) := by decide
/-- V26: the double-width bit, the joined widths, and the three completions. -/
theorem test_manchester :
    decodeManchester rc6Row (ctx .decode [888#32] true 1 4 false) = (.ok, ctx .decode [] true 0x11 5 true)
    ∧ decodeManchester rc6Row (ctx .decode [1332#32] false 0x11 5 true) = (.ok, ctx .decode [] false 0x11 6 true)
    ∧ decodeManchester rc6Row (ctx .decode [444#32] false 0x11 5 true) = (.error, ctx .decode [444#32] false 0x11 5 true)
    ∧ decodeManchester rc6Row (ctx .decode [444#32] true 0x8401 20 false) = (.ready, ctx .decode [] true 0x108401 21 true)
    ∧ decodeManchester rc6Row (ctx .decode [444#32] true 0x8401 21 true) = (.ready, ctx .decode [] true 0x8401 21 false)
    ∧ decodeManchester rc6Row (ctx .decode [888#32] true 0x8401 20 true) = (.ready, ctx .decode [] true 0x108401 21 true) := by
  decide
/-- V41 samples 14 to 16, row 3: each half leaves the buffer in the sample that brings it. -/
theorem test_manchester_halves_consumed :
    feed rc6Row 3#8 [⟨889, false⟩] (ctx .waitPreamble [2666#32] true 0 0 false) = .ok ([], ctx .decode [] false 0 0 false)
    ∧ feed rc6Row 3#8 [⟨444, true⟩] (ctx .decode [] false 0 0 false) = .ok ([], ctx .decode [] true 1 1 true)
    ∧ feed rc6Row 3#8 [⟨444, false⟩] (ctx .decode [] true 1 1 true) = .ok ([], ctx .decode [] false 1 1 false) := by decide
/-- R104, R120, against the words of 70_reset_and_hazards.md R253 (notes/assumptions/20.md): the unmerged halves of a 1 and a 0, two
Spaces in a row, decode as the merged ones do, since each half is consumed at once. -/
theorem test_manchester_unmerged :
    feed rc6Row 3#8 [⟨444, true⟩, ⟨444, false⟩, ⟨444, false⟩, ⟨444, true⟩] (ctx .decode [] false 0 0 false)
      = .ok ([], ctx .decode [] true 1 2 false)
    ∧ feed rc6Row 3#8 [⟨444, true⟩, ⟨888, false⟩, ⟨444, true⟩] (ctx .decode [] false 0 0 false)
      = .ok ([], ctx .decode [] true 1 2 false) := by decide
/-- V34: a repeated level empties the buffer and leaves state, data and count. -/
theorem test_repeated_level : decodeStep necRow 0#8 (ctx .decode [560#32] true 5 3 false) true 700#32
    = .ok (none, ctx .decode [700#32] true 5 3 false) := by decide
/-- V37: the gap's bounds are strict. -/
theorem test_repeat_gap :
    (decodeRepeat necRow (ctx .processRepeat [30000#32, 9000#32, 2250#32, 560#32] true 0 0 false)).1 = .error
    ∧ (decodeRepeat necRow (ctx .processRepeat [30001#32, 9000#32, 2250#32, 560#32] true 0 0 false)).1 = .ready := by decide
/-- V39: after sample 72 a new NEC frame is under way. -/
theorem test_run_resync :
    run necRow 0#8 (ctx .processRepeat [110000#32, 9000#32, 4500#32, 560#32] true 0xF30CFF00 32 false)
      = (none, ctx .decode [560#32] true 0 0 false) := by decide
/-- V93: an alternating sample on a full buffer. -/
theorem test_overflow : answer (exec (.decSample false 1#32) (withCtx0 (ctx .decode (List.replicate 6 1#32) true 0 0 false)))
    = some (frame0 0x02FF00FF#32) := by decide

/-! ## Adapters (V50, V51) -/

theorem test_packs : packNec 0x1FF#32 0x10C#32 = 0xF30C00FF#32 ∧ packNecExt 0x12345#32 0x156#32 = 0xA9562345#32
    ∧ packSamsung32 7#32 2#32 = 0xFD020707#32 ∧ packRc6 true 4#32 0x21#32 = 0x108411#21
    ∧ packRc6 false 0x80#32 1#32 = 0x100021#21 := by decide
theorem test_interpret_rc6 :
    (interpretRc6 3#8 { ctx .decode [] true 0x108401 21 false with message := ⟨3#8, 4#32, 33#32, false⟩ }).map (·.message)
      = some ⟨3#8, 4#32, 33#32, true⟩
    ∧ (interpretRc6 3#8 { ctx .decode [] true 0x108411 21 false with message := ⟨3#8, 4#32, 33#32, true⟩ }).map
        (fun c => (c.message, c.prevToggle)) = some (⟨3#8, 4#32, 33#32, false⟩, true)
    ∧ interpretRc6 3#8 (ctx .decode [] true 0x108403 21 false) = none := by decide
/-- V5 rows 4 and 7, V6 row 2. -/
theorem test_interpret_bytes : (interpretNecExt 1#8 (ctx .decode [] true 0xF30C1234 32 false)).map (·.message.address) = some 0x1234#32
    ∧ interpretNecExt 1#8 (ctx .decode [] true 0xF30D1234 32 false) = none
    ∧ interpretSamsung32 2#8 (ctx .decode [] true 0xFD020807 32 false) = none := by decide

/-! ## Text (R79, R80) -/

theorem test_assemble : assembleLine none "ENC_LOAD RC6, 0x04, 0x21 ; P2".toList = some [.encLoad 3#8 4#32 0x21#32 false]
    ∧ assembleLine none "FEED M300, S77".toList = some [.decSample true 300#32, .decSample false 77#32]
    ∧ assembleLine none "FIND_NAME \"Samsung32\"".toList = some [.findName 0x736D6153#32 0x33676E75#32 0x32#32]
    ∧ assembleLine none "INFO NECext, ALEN".toList = some [.info 1#8 1#8] := by decide

/-! ## Witnesses: the hypotheses of each obligation can be met -/

/-- A NEC context holding V1's message, in `ProcessRepeat`. -/
def holding (timings : List Duration) (lastLevel : Level) : DecCtx :=
  { ctx .processRepeat timings lastLevel 0xF30CFF00 32 false with message := msg1 }

/-- A full buffer, which no run reaches. -/
def full : DecCtx := ctx .decode (List.replicate 6 1#32) true 0 0 false

/-- The RC6 encoder after `ENC_LOAD RC6, 4, 0x21` (V70). -/
def rc6Loaded : EncCtx := { state := .space, timingsEncoded := 0, bitsEncoded := 0, data := 0x108401, toggle := true }

/-- The message of V63. -/
def msg2 : Message := { protocol := 0x03#8, address := 4#32, command := 0x21#32, rep := false }

theorem witness_DecodeInvertsEncode : (Instr.info 0xFF#8 4#8).wf = true ∧ (Instr.decSample true 0xFFFFFFFF#32).wf = true := by
  decide
theorem witness_EncodeInvertsDecode : decode (frame0 0x05FF0400#32) = .ok (.info 0xFF#8 4#8) := by decide
theorem witness_LegalFramesAreTheSelectedOnes : decode (frame0 0x05000400#32) = .ok (.info 0#8 4#8)
    ∧ decode (frame0 0x05000500#32) = .error .badSelector := by decide
theorem witness_StepRunsTheDecodedCommand : (waiting [.command (frame0 0x04000000#32)]).port = [.command (frame0 0x04000000#32)]
    ∧ decode (frame0 0x04000000#32) = .ok .encStep := by decide
theorem witness_IllegalFramesChangeNothing :
    (waiting [.command (frame0 0x07000000#32)]).serving = true ∧ (∀ i, decode (frame0 0x07000000#32) ≠ .ok i)
      ∧ 4 < (5#8).toNat := by
  have h : decode (frame0 0x07000000#32) = .error .unassignedOpcode := by decide
  exact ⟨by decide, fun i => (by rw [h]; exact fun k => (by cases k)), by decide⟩
theorem witness_HardwareResetGivesTheResetTable : ({ faulted with port := [.hardwareReset] }).port = .hardwareReset :: [] := by decide
theorem witness_EveryCommandIsAnswered : ∃ t, exec .nop State.reset = .next t := ⟨_, rfl⟩
theorem witness_FaultedBlockOnlyReportsItsFault : romOk faulted.rom = true ∧ faulted.fault = true
    ∧ ({ faulted with port := [.command (frame0 0x07000000#32)] }).port = .command (frame0 0x07000000#32) :: [] := by decide
theorem witness_OnlyHardwareResetClearsFault :
    ∃ t, step { faulted with port := [.hardwareReset] } = .next t ∧ faulted.fault = true ∧ t.fault = false :=
  ⟨_, rfl, rfl, rfl⟩
theorem witness_WhenCommandsFault : State.reset.serving = true ∧ State.reset.dec.length = State.reset.rom.length
    ∧ State.reset.rom.length ≤ (4#8).toNat ∧ State.reset.encBound = 0xFF#8
    ∧ (withCtx0 full).serving = true ∧ (withCtx0 full).dec.length = (withCtx0 full).rom.length
    ∧ full ∈ (withCtx0 full).dec ∧ false ≠ full.lastLevel ∧ 6 ≤ full.timingsCnt := by decide
theorem witness_FaultsArePrecise :
    (∃ t, exec (.encLoad 4#8 0#32 0#32 false) State.reset = .next t ∧ t.fault = true)
    ∧ (∃ t, exec (.decSample false 1#32) (withCtx0 full) = .next t ∧ t.fault = true)
    ∧ (∃ t, exec .encStep State.reset = .next t ∧ t.fault = true) ∧ State.reset.fault = false ∧ (withCtx0 full).fault = false :=
  ⟨⟨_, rfl, rfl⟩, ⟨_, rfl, rfl⟩, ⟨_, rfl, rfl⟩, rfl, rfl⟩
theorem witness_EncLoadOfUnknownProtocolFaults : State.reset.serving = true ∧ State.reset.rom.length ≤ (4#8).toNat := by decide
theorem witness_EncStepWhileUnboundFaults : State.reset.serving = true ∧ State.reset.encBound = 0xFF#8 := by decide
theorem witness_DecSampleOverflowFaults : (withCtx0 full).serving = true ∧ (withCtx0 full).dec.length = (withCtx0 full).rom.length
    ∧ (withCtx0 full).dec[0]? = some full ∧ false ≠ full.lastLevel ∧ 6 ≤ full.timingsCnt := by decide
theorem witness_NopReadsTheFaultStatus : romOk State.reset.rom = true ∧ State.reset.fault = false
    ∧ romOk faulted.rom = true ∧ faulted.fault = true := by decide
theorem witness_InfoReadsTheRom : State.reset.serving = true ∧ State.reset.rom[(3#8).toNat]? = some rc6Row
    ∧ (4#8).toNat ≤ 4 ∧ State.reset.rom.length ≤ (4#8).toNat := by decide
theorem witness_NamesArePackedLittleEndian : 11 < 12 ∧ 8 < samsung32Name.length ∧ ¬ 9 < samsung32Name.length := by decide
theorem witness_FindNameFindsTheRow : State.reset.serving = true ∧ State.reset.rom[3]? = some rc6Row
    ∧ (0x00364352#32, 0#32, 0#32) = packName rc6Row.name
    ∧ ∀ r ∈ State.reset.rom, (0#32, 0#32, 0#32) ≠ packName r.name := by decide
theorem witness_ReadingCommandsRepeat : (∃ t, exec .nop State.reset = .next t) ∧ (∃ t, exec (.info 0#8 4#8) State.reset = .next t)
    ∧ (∃ t, exec (.findName 0#32 0#32 0#32) State.reset = .next t) ∧ ∃ t, exec .decReset (withCtx0 full) = .next t :=
  ⟨⟨_, rfl⟩, ⟨_, rfl⟩, ⟨_, rfl⟩, ⟨_, rfl⟩⟩
theorem witness_DecResetRestoresEveryContext : (withCtx0 full).serving = true ∧ DecCtx.reset.state = .waitPreamble
    ∧ DecCtx.reset.timings = [] ∧ DecCtx.reset.data = 0 ∧ DecCtx.reset.databitCnt = 0 ∧ DecCtx.reset.switchDetect = false
    ∧ DecCtx.reset.lastLevel = true
    ∧ DecCtx.reset.message = { protocol := 0xFF#8, address := 0#32, command := 0#32, rep := false }
    ∧ DecCtx.reset.prevToggle = false := by decide
/-- Both alternatives: a full context whose level is repeated, and one with room. -/
theorem witness_DecSampleStepsEveryContext : (withCtx0 full).serving = true
    ∧ (withCtx0 full).dec.length = (withCtx0 full).rom.length
    ∧ ∀ c ∈ (withCtx0 full).dec, true = c.lastLevel ∨ c.timingsCnt < 6 := by decide
theorem witness_ContextsAreSeparate : State.reset.fault = false ∧ State.reset.rom = (withCtx0 full).rom
    ∧ State.reset.dec[1]? = (withCtx0 full).dec[1]?
    ∧ (∃ t, exec (.decSample true 1#32) State.reset = .next t ∧ t.fault = false)
    ∧ ∃ t, exec (.decSample true 1#32) (withCtx0 full) = .next t ∧ t.fault = false :=
  ⟨rfl, rfl, rfl, ⟨_, rfl, rfl⟩, ⟨_, rfl, rfl⟩⟩

/-- The invariant's parts, of a machine whose contexts are all `c` and whose ROM is the reference ROM. -/
theorem inv_of_parts (s : State) (hrom : s.rom = referenceRom) (hdec : s.dec = List.replicate 4 DecCtx.reset)
    (henc : ∃ r, romRow s s.encBound = some r ∧ EncInv r s.enc) (hfault : s.fault = false) (hcause : s.faultCause = 0#8) :
    s.Inv where
  rom := by rw [hrom]; decide
  contexts := by rw [hrom, hdec]; decide
  ctx := by
    intro p r c hr hc
    rw [hdec] at hc
    have hm := List.mem_of_getElem? hc
    obtain ⟨_, rfl⟩ := List.mem_replicate.1 hm
    exact ⟨Nat.zero_le _, Nat.zero_le _, Nat.one_pos, fun h => (by cases h), fun h => (by cases h), fun h => (by cases h), .inl rfl,
      fun _ => rfl, fun _ => rfl⟩
  enc := .inr henc
  noFault := fun _ => hcause
  faulted := fun h => (by rw [hfault] at h; cases h)

/-- The machine of V1 after its 40th `ENC_STEP` meets the invariant. -/
theorem boundNec_inv : (boundNec (encAt .encode 40 18)).Inv :=
  inv_of_parts _ rfl rfl ⟨necRow, rfl, ⟨.inl ⟨by decide, .inr (by decide)⟩, by decide, fun _ => rfl⟩⟩ rfl rfl
theorem witness_SamplesNeverOverflow :
    (boundNec (encAt .encode 40 18)).Inv ∧ (boundNec (encAt .encode 40 18)).fault = false := ⟨boundNec_inv, rfl⟩
theorem witness_StepKeepsTheInvariant : (boundNec (encAt .encode 40 18)).Inv
    ∧ ∃ t, step (boundNec (encAt .encode 40 18)) = .next t := ⟨boundNec_inv, _, rfl⟩
theorem witness_NothingStopsTheMachine : (boundNec (encAt .encode 40 18)).Inv := boundNec_inv
theorem witness_ResetMeetsTheInvariant : romOk referenceRom = true := by decide
/-- A next state, and a ROM that cannot be built. -/
theorem witness_TheRomNeverChanges : (∃ t, step (waiting [.command (frame0 0x01000000#32)]) = .next t)
    ∧ romOk ({ State.reset with rom := [] }).rom = false := ⟨⟨_, rfl⟩, by decide⟩
theorem witness_CommandFrames : (∃ t, exec .encStep (boundNec (encAt .encode 40 18)) = .next t)
    ∧ (∃ t, exec (.decSample true 9000#32) State.reset = .next t)
    ∧ decoderCommand .encStep = false ∧ encoderCommand (.decSample true 9000#32) = false
    ∧ (∃ t, exec .nop faulted = .next t) ∧ faulted.fault = true :=
  ⟨⟨_, rfl⟩, ⟨_, rfl⟩, rfl, rfl, ⟨_, rfl⟩, rfl⟩
theorem witness_DecoderAndEncoderCommute : decoderCommand (.decSample true 9000#32) = true ∧ encoderCommand .encStep = true
    ∧ ∃ t1 t2 u1 u2, exec (.decSample true 9000#32) (boundNec (encAt .encode 40 18)) = .next t1
      ∧ exec .encStep t1 = .next t2 ∧ exec .encStep (boundNec (encAt .encode 40 18)) = .next u1
      ∧ exec (.decSample true 9000#32) u1 = .next u2 ∧ t2.fault = false ∧ u2.fault = false :=
  ⟨rfl, rfl, _, _, _, _, rfl, rfl, rfl, rfl, rfl, rfl⟩

/-- The windows of `T = 444`, tolerance 120 (R93): both hypotheses on widths at the window's edges. -/
theorem witness_MatchersAreStrict : rowOk rc6Row = true ∧ rc6Row.codec = .manchester ∧ matchUnits 769 2 rc6Row = true
    ∧ matchUnits 1007 2 rc6Row = true ∧ (⟨.rel, 9000#32⟩ : RepElem).kind = .rel ∧ (⟨.abs, 560#32⟩ : RepElem).kind = .abs := by
  decide
/-- V20: a bit pair at its low edge, a pair that is no bit, and the stop Mark. -/
theorem witness_PdwmDemodulator : rowOk necRow = true ∧ necRow.codec = .pdwm
    ∧ (ctx .decode [441#32, 1571#32] false 0 31 false).databitCnt < necRow.databitLen
    ∧ (ctx .decode [441#32, 1571#32] false 0 31 false).level 0 = true
    ∧ matchBit necRow 441#32 necRow.bit1Mark = true ∧ matchBit necRow 1571#32 necRow.bit1Space = true
    ∧ (∀ b : Bool, ¬ (matchBit necRow 440#32 (if b then necRow.bit1Mark else necRow.bit0Mark) = true
      ∧ matchBit necRow 1690#32 (if b then necRow.bit1Space else necRow.bit0Space) = true))
    ∧ (ctx .decode [560#32] true 0 32 false).databitCnt = necRow.databitLen
    ∧ (ctx .decode [560#32] true 0 31 false).timingsCnt < 2 := by decide
/-- V26: the first half at a boundary, a joined width, the closing half, and the errors at both places. -/
theorem witness_ManchesterDemodulator : rowOk rc6Row = true ∧ rc6Row.codec = .manchester
    ∧ matchUnits 888 (halfWidth rc6Row 4) rc6Row = true ∧ matchUnits 1332 (halfWidth rc6Row 3 + halfWidth rc6Row 4) rc6Row = true
    ∧ matchUnits 444 (halfWidth rc6Row 20) rc6Row = true ∧ matchUnits 444 (halfWidth rc6Row 4) rc6Row = false
    ∧ matchUnits 888 (halfWidth rc6Row 3) rc6Row = false
    ∧ matchUnits 888 (halfWidth rc6Row 3 + halfWidth rc6Row 4) rc6Row = false := by decide
/-- The boundary counts: 6, where nothing can be appended, and 5. -/
theorem witness_BufferAndAccumulatorPrimitives : full.timingsCnt = 6 ∧ 6 ≤ full.timingsCnt ∧ (full.consume 1).timingsCnt = 5 := by
  decide
theorem witness_RepeatedLevelDropsPendingTimings : (full.consume 1).timingsCnt < 6 := by decide
/-- V35: a match, a lone Mark kept, and a lone Space dropped. -/
theorem witness_PreambleWindow :
    (checkPreamble necRow (ctx .waitPreamble [110000#32, 9000#32, 4500#32] false 0 0 false)).1 = true
    ∧ checkPreamble necRow (ctx .waitPreamble [5000#32] true 0 0 false) = (false, ctx .waitPreamble [5000#32] true 0 0 false)
    ∧ checkPreamble necRow (ctx .waitPreamble [5000#32] false 0 0 false) = (false, ctx .waitPreamble [] false 0 0 false) := by
  decide
theorem witness_ErrorsConsumeNothing : (decodeBits necRow (ctx .decode [560#32, 1000#32] false 0 0 false)).1 = .error
    ∧ (decodeBits rc6Row (ctx .decode [600#32] true 0 0 false)).1 = .error := by decide
theorem witness_RunEndsWithinEightTurns : full.timingsCnt ≤ 6 ∧ 8 ≤ 8 := by decide
/-- V42, a frame cut short, one Mark pending; P1's end state of row 1, a full count and a Mark in WaitPreamble; an RC6 context in
the middle of its last bit; and V39, a new frame after a message. -/
theorem witness_PreambleResynchronises : (rowOk necRow = true ∧ necRow.codec = .pdwm
      ∧ matchBit necRow necRow.preambleMark necRow.bit1Mark = false ∧ matchBit necRow necRow.preambleMark necRow.bit0Mark = false
      ∧ (ctx .decode [560#32] true 0 8 false).state ≠ .processRepeat ∧ (ctx .decode [560#32] true 0 8 false).timingsCnt ≤ 1
      ∧ (ctx .decode [560#32] true 0 8 false).databitCnt ≠ necRow.databitLen
      ∧ (ctx .waitPreamble [560#32] true 0xF30CFF00 32 false).timingsCnt ≤ 1
      ∧ (ctx .waitPreamble [560#32] true 0xF30CFF00 32 false).state ≠ .decode)
    ∧ (rowOk rc6Row = true ∧ rc6Row.codec = .manchester ∧ rc6Row.repLen = 0
      ∧ (∀ n, 1 ≤ n → n ≤ 4 → matchUnits rc6Row.preambleMark.toNat n rc6Row = false)
      ∧ (ctx .decode [] true 0x8401 21 true).state ≠ .processRepeat ∧ (ctx .decode [] true 0x8401 21 true).timingsCnt ≤ 1
      ∧ (ctx .decode [] true 0x8401 21 true).timings = [])
    ∧ ((holding [] true).state = .processRepeat ∧ 0 < necRow.repLen ∧ (holding [] true).timings = []
      ∧ ¬ (∀ i e x, i < necRow.repLen - 1 → necRow.repTail[i]? = some e →
        [necRow.preambleMark, necRow.preambleSpace][i]? = some x → matchRepElem necRow x e = true)
      ∧ [560#32].length = necRow.repLen - 3) := by
  refine ⟨by decide, ⟨by decide, rfl, rfl, fun n h1 h4 => ?_, by decide, by decide, rfl⟩,
    rfl, by decide, rfl, fun h => ?_, rfl⟩
  · obtain rfl | rfl | rfl | rfl : n = 1 ∨ n = 2 ∨ n = 3 ∨ n = 4 := by omega
    all_goals decide
  · exact absurd (h 1 ⟨.rel, 2250#32⟩ 4500#32 (by decide) rfl rfl) (by decide)
/-- One context for each clause: the four answers in `Decode` and the three in `ProcessRepeat`. -/
theorem witness_RunFollowsTheStateMachine : full.timingsCnt ≤ 6
    ∧ (decodeBits necRow (ctx .decode [560#32] true 0 0 false)).1 = .ok
    ∧ (decodeBits necRow (ctx .decode [9000#32, 4500#32] false 5 3 false)).1 = .error
    ∧ ((decodeBits necRow (ctx .decode [560#32] true 0xF30D1234 32 false)).1 = .ready
      ∧ interpret necRow 0#8 (decodeBits necRow (ctx .decode [560#32] true 0xF30D1234 32 false)).2 = none)
    ∧ (interpret necRow 0#8 (decodeBits necRow (ctx .decode [560#32] true 0xF30CFF00 32 false)).2).isSome = true
    ∧ (decodeRepeat necRow (holding [46000#32] false)).1 = .ok
    ∧ (decodeRepeat necRow (holding [30000#32, 9000#32, 2250#32, 560#32] true)).1 = .error
    ∧ (decodeRepeat necRow (holding [46000#32, 9000#32, 2250#32, 560#32] true)).1 = .ready := by decide
/-- V37 sample 72, and V1 sample 68. -/
theorem witness_MessagesComeFromInterpret :
    (∃ p c', p = { holding [46000#32, 9000#32, 2250#32] false with
          timings := [46000#32, 9000#32, 2250#32] ++ [560#32], lastLevel := true }
        ∧ decodeStep necRow 0#8 (holding [46000#32, 9000#32, 2250#32] false) true 560#32
          = .ok (some { msg1 with rep := true }, c'))
    ∧ ∃ p c', p = { ctx .decode [] false 0xF30CFF00 32 false with timings := [] ++ [560#32], lastLevel := true }
        ∧ decodeStep necRow 0#8 (ctx .decode [] false 0xF30CFF00 32 false) true 560#32 = .ok (some msg1, c') :=
  ⟨⟨_, _, rfl, rfl⟩, ⟨_, _, rfl, rfl⟩⟩
/-- V37 sample 71: `ProcessRepeat` waits. -/
theorem witness_NoMessageNoWrite : ∃ c', decodeStep necRow 0#8 (holding [46000#32, 9000#32] true) false 2250#32 = .ok (none, c')
    ∧ c'.state = .processRepeat := ⟨_, rfl, rfl⟩
theorem witness_ByteInterprets : ∃ (b : Nat → Nat) (message : Word → Message),
    (∀ k, b k = (ctx .decode [] true 0xF30CFF00 32 false).data / 2 ^ (8 * k) % 256)
    ∧ (∀ address, message address = ⟨0#8, address, BitVec.ofNat 32 (b 2), false⟩)
    ∧ b 2 + b 3 = 255 ∧ b 0 + b 1 = 255 :=
  ⟨fun k => 0xF30CFF00 / 2 ^ (8 * k) % 256, _, fun _ => rfl, fun _ => rfl, by decide, by decide⟩
/-- V51: mode 1 fails, V1's RC6 payload succeeds. -/
theorem witness_Rc6Interpret : (ctx .decode [] true 0x108403 21 false).data.testBit 1 = true
    ∧ (ctx .decode [] true 0x108401 21 false).data.testBit 0 = true ∧ (ctx .decode [] true 0x108401 21 false).data.testBit 1 = false
    ∧ (ctx .decode [] true 0x108401 21 false).data.testBit 2 = false
    ∧ (ctx .decode [] true 0x108401 21 false).data.testBit 3 = false := by decide
/-- V5 rows 1 and 7. -/
theorem witness_NecAndNecExtAreExclusive : commandChecks (ctx .decode [] true 0xF30CFF00 32 false).acc32 = true
    ∧ commandChecks (ctx .decode [] true 0xF30D1234 32 false).acc32 = false := by decide
theorem witness_Rc6Pack : rc6Row.layout = .rc6 := by decide
/-- The largest valid fields of each base layout. -/
theorem witness_InterpretInvertsPack :
    validMessage necRow ⟨0#8, 255#32, 255#32, false⟩ ∧ validMessage necExtRow ⟨1#8, 0xFFFF#32, 255#32, false⟩
      ∧ validMessage samsung32Row ⟨2#8, 255#32, 255#32, false⟩ ∧ validMessage rc6Row ⟨3#8, 255#32, 255#32, false⟩ :=
  ⟨show 255 < 256 ∧ 255 < 256 by decide,
    show 0xFFFF < 65536 ∧ 255 < 256 ∧ accByte 0xFFFF#32 0 ≠ ~~~ accByte 0xFFFF#32 1 by decide,
    show 255 < 256 ∧ 255 < 256 by decide, show 255 < 256 ∧ 255 < 256 by decide⟩
/-- A ROM with an extension row: an adapter of its own behind the base rows. -/
def extRom : Rom := referenceRom ++ [{ necRow with name := [0x58#8], layout := .ext 0, databitLen := 20 }]

/-- A load of an extension row. -/
theorem witness_EncLoadBindsAndPacks_ext : (State.resetWith extRom).serving = true
    ∧ (State.resetWith extRom).rom[(4#8).toNat]? = some { necRow with name := [0x58#8], layout := .ext 0, databitLen := 20 } := by
  decide
/-- A rebind and a load of the bound row. -/
theorem witness_EncLoadBindsAndPacks : State.reset.serving = true ∧ State.reset.rom[(3#8).toNat]? = some rc6Row
    ∧ State.reset.encBound ≠ 3#8 ∧ (boundNec (encAt .encode 40 18)).serving = true
    ∧ (boundNec (encAt .encode 40 18)).rom[(0#8).toNat]? = some necRow ∧ (boundNec (encAt .encode 40 18)).encBound = 0#8 := by decide
theorem witness_ReloadingFlipsOnlyTheRc6Toggle : State.reset.serving = true
    ∧ (∃ t u v, exec (.encLoad 3#8 4#32 0x21#32 false) State.reset = .next t
        ∧ exec (.encLoad 3#8 4#32 0x21#32 false) t = .next u ∧ exec (.encLoad 3#8 4#32 0x21#32 false) u = .next v)
    ∧ (∃ t u v, exec (.encLoad 0#8 4#32 0x21#32 false) State.reset = .next t
        ∧ exec (.encLoad 0#8 4#32 0x21#32 false) t = .next u ∧ exec (.encLoad 0#8 4#32 0x21#32 false) u = .next v) :=
  ⟨by decide, ⟨_, _, _, rfl, rfl, rfl⟩, ⟨_, _, _, rfl, rfl, rfl⟩⟩
/-- One position in each state of the encoder, the last of each. -/
theorem witness_EncStepEmitsOneTiming : (boundNec (encAt .space 0 0)).serving = true
    ∧ (boundNec (encAt .space 0 0)).encBound ≠ 0xFF#8 ∧ (boundNec (encAt .space 0 0)).rom[(0#8).toNat]? = some necRow
    ∧ EncInv necRow (encAt .space 0 0) ∧ EncInv necRow (encAt .preamble 2 0) ∧ EncInv necRow (encAt .encode 67 32)
    ∧ EncInv necRow (encAt .encodeRepeat 3 0) := by
  have hd : 0xF30CFF00 < 2 ^ necRow.databitLen := by decide
  exact ⟨by decide, by decide, rfl, ⟨⟨rfl, rfl⟩, hd, fun _ => rfl⟩, ⟨⟨.inr rfl, rfl⟩, hd, fun _ => rfl⟩,
    ⟨.inr ⟨rfl, rfl⟩, hd, fun _ => rfl⟩, ⟨⟨by decide, by decide, rfl⟩, hd, fun _ => rfl⟩⟩
theorem witness_SilenceAndPreamble : (encAt .space 0 0).state = .space
    ∧ ((encAt .preamble 1 0).state = .preamble ∧ (encAt .preamble 1 0).timingsEncoded = 1)
    ∧ (encAt .preamble 2 0).state = .preamble ∧ (encAt .preamble 2 0).timingsEncoded = 2
    ∧ (encodeStep necRow (encAt .preamble 1 0)).map (·.1.state) = some .preamble
    ∧ rc6Row.repLen = 0
    ∧ (encodeStep rc6Row { rc6Loaded with state := .encode, timingsEncoded := 44, bitsEncoded := 20 }).map (·.2.done) = some true
    ∧ State.reset.serving = true ∧ State.reset.rom[(3#8).toNat]? = some rc6Row
    ∧ (stateAfter (exec (.encLoad 3#8 4#32 0x21#32 false) State.reset)).isSome = true := by decide
/-- The stop Mark, the last half of an RC6 frame, and the last element of a repeat code. -/
theorem witness_DoneEndsACycle : (encodeStep necRow (encAt .encode 67 32)).map (·.2.done) = some true
    ∧ (encodeStep rc6Row { rc6Loaded with state := .encode, timingsEncoded := 44, bitsEncoded := 20 }).map (·.2.done) = some true
    ∧ (encodeStep necRow (encAt .encodeRepeat 3 0)).map (·.2.done) = some true ∧ rowOk necRow = true ∧ rowOk rc6Row = true := by
  decide
theorem witness_FirstCycleClosedForm : rowOk rc6Row = true ∧ rc6Row.codec = .manchester ∧ ∃ e, encReset 3#8 rc6Row EncCtx.reset msg2 = .ok e :=
  ⟨by decide, rfl, _, rfl⟩
theorem witness_RepeatPatternCycles : rowOk necRow = true ∧ 0 < necRow.repLen ∧ (encAt .encodeRepeat 0 0).state = .encodeRepeat
    ∧ (encAt .encodeRepeat 0 0).timingsEncoded = 0 := by decide
theorem witness_MergeAlternates : List.IsChain (fun a b : Pulse => a.level ≠ b.level) [⟨2700, false⟩, ⟨2666, true⟩] := by decide
theorem witness_PdwmRoundTrip : rowOk necRow = true ∧ necRow.codec = .pdwm ∧ (0#8 : Pid) ≠ 0xFF#8
    ∧ validMessage necRow msg1
    ∧ encReset msg1.protocol necRow EncCtx.reset msg1 = .ok (encAt .space 0 0)
    ∧ (emit necRow (frameLength necRow) (encAt .space 0 0)).isSome = true :=
  ⟨by decide, rfl, by decide, show 0 < 256 ∧ 12 < 256 by decide, rfl, by decide⟩
/-- V63, a second cycle (P2, frame B), and a second load (P2, frame C). -/
theorem witness_Rc6RoundTrip : rowOk rc6Row = true ∧ rc6Row.codec = .manchester ∧ rc6Row.layout = .rc6 ∧ rc6Row.manInv = false
    ∧ rc6Row.bitUnit.toNat < 2 ^ 30 ∧ (3#8 : Pid) ≠ 0xFF#8 ∧ validMessage rc6Row msg2
    ∧ encReset msg2.protocol rc6Row EncCtx.reset msg2 = .ok rc6Loaded
    ∧ (∃ decoded : Bool → Message, ∀ rep, decoded rep = ⟨3#8, msg2.address, msg2.command, rep⟩)
    ∧ (emit rc6Row (frameLength rc6Row + 1) rc6Loaded).isSome = true ∧ rc6Row.repLen = 0
    ∧ (emit rc6Row (2 * frameLength rc6Row + 1) rc6Loaded).isSome = true
    ∧ (emit rc6Row (frameLength rc6Row) rc6Loaded).map (·.2) = some rc6Loaded
    ∧ encReset msg2.protocol rc6Row rc6Loaded msg2 = .ok { rc6Loaded with data := 0x108411, toggle := false }
    ∧ (emit rc6Row (frameLength rc6Row + 1) { rc6Loaded with data := 0x108411, toggle := false }).isSome = true :=
  ⟨by decide, rfl, rfl, rfl, by decide, by decide, show 4 < 256 ∧ 33 < 256 by decide, rfl, ⟨_, fun _ => rfl⟩, by decide, rfl,
    by decide, by decide, rfl, by decide⟩
/-- V37: three timings wait; a gap one inside its window and one on its bound; the row's own code on an empty buffer. -/
theorem witness_RepeatCodesReemitTheMessage : rowOk necRow = true ∧ 0 < necRow.repLen
    ∧ (holding [46000#32, 9000#32, 2250#32] false).timingsCnt < necRow.repLen
    ∧ necRow.repLen ≤ (holding [149999#32, 9000#32, 2250#32, 560#32] true).timingsCnt
    ∧ (decodeRepeat necRow (holding [149999#32, 9000#32, 2250#32, 560#32] true)).1 = .ready
    ∧ necRow.repLen ≤ (holding [150000#32, 9000#32, 2250#32, 560#32] true).timingsCnt
    ∧ (decodeRepeat necRow (holding [150000#32, 9000#32, 2250#32, 560#32] true)).1 = .error
    ∧ (holding [] true).state = .processRepeat ∧ (holding [] true).timings = [] ∧ (holding [] true).lastLevel = true := by decide

end Sys2Proof.Tests
end

section
/-! PROOFS. What a command and a step can do, said once for the whole state; what keeps the invariant of 10_state.md
(R25); where a message comes from. The statements about the state are settled from these. -/

namespace Sys2Proof.Machine

/-! ## What a command can do -/

/-- The state after fault entry (R224): nothing but the fault registers and the response is written. -/
def State.faultedBy (s : State) (cause : FaultCause) : State :=
  ({ s with fault := true, faultCause := cause.code }).respond (faultResponse cause.code)

theorem raiseFault_eq (cause : FaultCause) (s : State) : raiseFault cause s = .next (s.faultedBy cause) := rfl

/-- What a command that only reads answers on a serving block (R73, R210 to R212). -/
def readAnswer (s : State) : Instr → Option Response
  | .nop => some { status := .ok }
  | .decReset => none
  | .decSample _ _ => none
  | .encLoad _ _ _ _ => none
  | .encStep => none
  | .info pid sel =>
    some (if maxSelector < sel then { status := .errIllegal }
      else ((romRow s pid).map (infoResponse · sel)).getD { status := .errBadPid })
  | .findName n1 n2 n3 => some { status := .ok, pid := findRow (n1, n2, n3) 0 s.rom }

/-- What `ENC_LOAD` writes into the encoder context it has bound (R170, R196). -/
def EncCtx.loaded (e : EncCtx) (r : RomRow) (msg : Message) : EncCtx :=
  { packInto r e msg with timingsEncoded := 0, bitsEncoded := 0, state := .space }

/-- `Served s i t`: the block `s`, which serves commands, answers `i` with the state `t`. One constructor for each way a
command's own rule can end in a next state. -/
inductive Served (s : State) : Instr → State → Prop where
  | read {i : Instr} {a : Response} : readAnswer s i = some a → Served s i (s.respond a)
  | decReset : Served s .decReset (({ s with dec := s.rom.map (fun _ => DecCtx.reset) }).respond { status := .ok })
  | sampled {l : Level} {d : Duration} {m : Option Message} {dec : List DecCtx} :
      sampleRows l d 0 s.rom s.dec = .ok (m, dec) →
      Served s (.decSample l d) (({ s with dec := dec }).respond (sampleResponse m))
  | sampleFault {l : Level} {d : Duration} {cause : FaultCause} :
      sampleRows l d 0 s.rom s.dec = .error cause → Served s (.decSample l d) (s.faultedBy cause)
  | loaded {p : Pid} {address command : Word} {rep : Bool} {r : RomRow} : romRow s p = some r →
      Served s (.encLoad p address command rep)
        (({ s with
            encBound := p
            enc := (bindFor p s).enc.loaded r ⟨p, address, command, rep⟩ }).respond { status := .ok })
  | loadFault {p : Pid} {address command : Word} {rep : Bool} : romRow s p = none →
      Served s (.encLoad p address command rep) (s.faultedBy .unknownProtocol)
  | stepped {r : RomRow} {e : EncCtx} {t : Timing} : s.encBound ≠ pidNone → romRow s s.encBound = some r →
      encodeStep r s.enc = some (e, t) → Served s .encStep (({ s with enc := e }).respond (timingResponse t))
  | stepFault : s.encBound = pidNone → Served s .encStep (s.faultedBy .encoderUnbound)

/-- Binding writes nothing but the binding and the encoder context (R197). -/
theorem bindFor_withEnc (p : Pid) (s : State) (e : EncCtx) : { bindFor p s with enc := e } = { s with encBound := p, enc := e } := by
  unfold bindFor
  split
  · rename_i hp
    subst hp
    rfl
  · rfl

/-- The rule of `ENC_LOAD` always answers: bound by R196 to the message's own protocol, it cannot mismatch (R223). -/
theorem execEncLoad_serving {s : State} (h : s.serving = true) (p : Pid) (address command : Word) (rep : Bool) :
    execEncLoad p address command rep s = match romRow s p with
      | none => .next (s.faultedBy .unknownProtocol)
      | some r => .next (({ s with
          encBound := p
          enc := (bindFor p s).enc.loaded r ⟨p, address, command, rep⟩ }).respond { status := .ok }) := by
  unfold execEncLoad
  rw [dispatch_serving _ h]
  cases hr : romRow s p with
  | none => simp only [raiseFault_eq]
  | some r =>
    have hok : encReset (bindFor p s).encBound r (bindFor p s).enc ⟨p, address, command, rep⟩
        = .ok ((bindFor p s).enc.loaded r ⟨p, address, command, rep⟩) := by
      rw [bindFor_encBound]
      exact encReset_ok_of_bound r _ ⟨p, address, command, rep⟩
    simp only [hok]
    exact congrArg (fun b => Host.Outcome.next (State.respond b { status := .ok })) (bindFor_withEnc p s _)

/-- What a serving block answers is one of the ways of `Served`. -/
theorem served_of_exec {s t : State} (h : s.serving = true) {i : Instr} (hx : exec i s = .next t) : Served s i t := by
  cases i with
  | nop =>
    rw [exec, execNop, dispatch_serving _ h] at hx
    cases hx
    exact .read rfl
  | decReset =>
    rw [exec, execDecReset, dispatch_serving _ h] at hx
    cases hx
    exact .decReset
  | decSample l d =>
    rw [exec, execDecSample, dispatch_serving _ h] at hx
    split at hx <;> cases hx
    · exact .sampled ‹_›
    · exact .sampleFault ‹_›
  | encLoad p address command rep =>
    rw [exec, execEncLoad_serving h] at hx
    split at hx <;> cases hx
    · exact .loadFault ‹_›
    · exact .loaded ‹_›
  | encStep =>
    rw [exec, execEncStep, dispatch_serving _ h] at hx
    split at hx
    · cases hx
      exact .stepFault ‹_›
    · split at hx
      · cases hx
      · split at hx <;> cases hx
        exact .stepped ‹_› ‹_› ‹_›
  | info pid sel =>
    rw [exec, execInfo, illegalFrame, dispatch_serving _ h, dispatch_serving _ h] at hx
    split at hx
    · cases hx
      exact .read (by simp [readAnswer, *])
    · split at hx <;> cases hx <;> exact .read (by simp [readAnswer, *])
  | findName n1 n2 n3 =>
    rw [exec, execFindName, dispatch_serving _ h] at hx
    cases hx
    exact .read rfl

/-- Each way of `Served` is taken. -/
theorem exec_of_served {s t : State} (h : s.serving = true) {i : Instr} (hx : Served s i t) : exec i s = .next t := by
  cases hx with
  | @read _ a ha =>
    cases i <;> simp only [readAnswer, Option.some.injEq, reduceCtorEq] at ha
    case nop => rw [exec, execNop, dispatch_serving _ h, ha]
    case findName => rw [exec, execFindName, dispatch_serving _ h, ha]
    case info pid sel =>
      subst ha
      rw [exec, execInfo, illegalFrame, dispatch_serving _ h, dispatch_serving _ h]
      cases hr : romRow s pid <;> split <;> simp [*]
  | decReset => rw [exec, execDecReset, dispatch_serving _ h]
  | sampled hr => simp only [exec, execDecSample, dispatch_serving _ h, hr]
  | sampleFault hr => simp only [exec, execDecSample, dispatch_serving _ h, hr, raiseFault_eq]
  | loaded hr => simp only [exec, execEncLoad_serving h, hr]
  | loadFault hr => simp only [exec, execEncLoad_serving h, hr]
  | stepped hb hr he => simp only [exec, execEncStep, dispatch_serving _ h, if_neg hb, hr, he]
  | stepFault hb => simp only [exec, execEncStep, dispatch_serving _ h, if_pos hb, raiseFault_eq]

/-- Every command, the illegal selector of `INFO` among them, goes through dispatch (R73). -/
theorem exec_dispatch (i : Instr) (s : State) : ∃ rule, exec i s = dispatch s rule := by
  cases i with
  | info pid sel =>
    simp only [exec, execInfo, illegalFrame]
    split <;> exact ⟨_, rfl⟩
  | nop | decReset | decSample | encLoad | encStep | findName =>
    simp only [exec, execNop, execDecReset, execDecSample, execEncLoad, execEncStep, execFindName]
    exact ⟨_, rfl⟩

/-- A block that has faulted answers every command with its fault response alone (R224, R226). -/
theorem exec_faulted {s : State} (hr : romOk s.rom = true) (hf : s.fault = true) (i : Instr) :
    exec i s = .next (s.respond (faultResponse s.faultCause)) := by
  obtain ⟨rule, h⟩ := exec_dispatch i s
  rw [h, dispatch_faulted rule hr hf]

/-- A block whose ROM fails R45 refuses every command. -/
theorem exec_refused {s : State} (hr : romOk s.rom = false) (i : Instr) : exec i s = .refused .illFormedRom := by
  obtain ⟨rule, h⟩ := exec_dispatch i s
  simp [h, dispatch, hr]

/-- What a command that answers a next state can have done, in every state. -/
theorem exec_next {i : Instr} {s t : State} (h : exec i s = .next t) :
    (romOk s.rom = true ∧ s.fault = true ∧ t = s.respond (faultResponse s.faultCause))
      ∨ (s.serving = true ∧ Served s i t) := by
  cases hr : romOk s.rom with
  | false => rw [exec_refused hr] at h; cases h
  | true =>
    cases hf : s.fault with
    | true =>
      rw [exec_faulted hr hf] at h
      cases h
      exact .inl ⟨rfl, rfl, rfl⟩
    | false =>
      have hs : s.serving = true := (serving_iff s).2 ⟨hr, hf⟩
      exact .inr ⟨hs, served_of_exec hs h⟩

/-! ## What a step can do (R55, R78, R250) -/

theorem step_idle {s : State} (h : s.port = []) : step s = .next s := by
  rw [step, takeEvent, h]

theorem step_hardwareReset {s : State} {rest : List HostEvent} (h : s.port = .hardwareReset :: rest) :
    step s = .next (hardwareReset { s with port := rest }) := by
  rw [step, takeEvent, h]

theorem step_command {s : State} {f : Frame} {rest : List HostEvent} (h : s.port = .command f :: rest) :
    step s = takeFrame f { s with port := rest } := by
  rw [step, takeEvent, h]

/-- A frame is either a command's, or illegal, and then only a response is given (R73). -/
theorem takeFrame_next {f : Frame} {s t : State} (h : takeFrame f s = .next t) :
    (∃ i, exec i s = .next t) ∨ ∃ a, t = s.respond a := by
  unfold takeFrame at h
  split at h
  · exact .inl ⟨_, h⟩
  · obtain ⟨-, ⟨-, ht⟩ | ⟨-, ht⟩⟩ := dispatch_next h
    · exact .inr ⟨_, ht⟩
    · cases ht
      exact .inr ⟨_, rfl⟩

/-! ## Frames (R26, R57) -/

/-- The ROM and the host's later actions are no command's to write. -/
theorem Served.rom_port {s t : State} {i : Instr} (h : Served s i t) : t.rom = s.rom ∧ t.port = s.port := by
  cases h with
  | read | decReset | sampled | sampleFault | loaded | loadFault | stepped | stepFault => exact ⟨rfl, rfl⟩

/-- Only the decoder path writes the decoder contexts. -/
theorem Served.dec_frame {s t : State} {i : Instr} (h : Served s i t) (hi : decoderCommand i = false) : t.dec = s.dec := by
  cases h with
  | decReset | sampled => cases hi
  | read | sampleFault | loaded | loadFault | stepped | stepFault => rfl

/-- Only the encoder path writes the encoder and its binding. -/
theorem Served.enc_frame {s t : State} {i : Instr} (h : Served s i t) (hi : encoderCommand i = false) :
    t.enc = s.enc ∧ t.encBound = s.encBound := by
  cases h with
  | loaded | stepped => cases hi
  | read | decReset | sampled | sampleFault | loadFault | stepFault => exact ⟨rfl, rfl⟩

/-- `ENC_STEP` moves the counters of the encoder and leaves what it emits (R198). -/
theorem Served.encStep_frame {s t : State} (h : Served s .encStep t) :
    t.encBound = s.encBound ∧ t.enc.data = s.enc.data ∧ t.enc.toggle = s.enc.toggle := by
  cases h with
  | stepped _ _ he =>
    have hk := encodeStep_keeps_data he
    exact ⟨rfl, (congrArg EncCtx.data hk :), (congrArg EncCtx.toggle hk :)⟩
  | read | stepFault => exact ⟨rfl, rfl, rfl⟩

/-! ## The fan-out of a sample, context by context (R192, R194) -/

/-- What the fan-out leaves in context `q`: a row's context takes its `DecodeStep`. A context without a row stays, and a row
without a context gets none. -/
theorem sampleRows_getElem? {l : Level} {d : Duration} : ∀ {p : Nat} {rom : Rom} {cs cs' : List DecCtx} {m : Option Message},
    sampleRows l d p rom cs = .ok (m, cs') → ∀ q : Nat,
      (rom[q]? = none → cs'[q]? = cs[q]?) ∧ (cs[q]? = none → cs'[q]? = none)
      ∧ ∀ r c, rom[q]? = some r → cs[q]? = some c →
          ∃ m1 c1, decodeStep r (pidOf (p + q)) c l d = .ok (m1, c1) ∧ cs'[q]? = some c1
  | _, [], _, _, _, h, q => by
    cases h
    exact ⟨fun _ => rfl, id, fun r c hr => by simp at hr⟩
  | _, _ :: _, [], _, _, h, q => by
    cases h
    exact ⟨fun _ => rfl, id, fun r c _ hc => by simp at hc⟩
  | p, r :: rest, c :: cs, _, _, h, q => by
    obtain ⟨m1, c1, m2, cs2, h1, h2, rfl, rfl⟩ := sampleRows_ok_cons h
    cases q with
    | zero => exact ⟨by simp, by simp, fun r' c' hr hc => by cases hr; cases hc; exact ⟨m1, c1, h1, rfl⟩⟩
    | succ q => simpa [Nat.add_right_comm, Nat.add_assoc] using sampleRows_getElem? h2 q

/-- On contexts in their ranges the fan-out never overflows and keeps the ranges (R25, R221). -/
theorem sampleRows_keeps (l : Level) (d : Duration) : ∀ (p : Nat) (rom : Rom) (cs : List DecCtx),
    (∀ r ∈ rom, rowOk r = true) → cs.length = rom.length →
    (∀ q r c, rom[q]? = some r → cs[q]? = some c → CtxInv (p + q) r c) →
    ∃ m cs', sampleRows l d p rom cs = .ok (m, cs') ∧ cs'.length = rom.length
      ∧ ∀ q r c, rom[q]? = some r → cs'[q]? = some c → CtxInv (p + q) r c
  | _, [], cs, _, hlen, hinv => ⟨none, cs, rfl, hlen, hinv⟩
  | _, _ :: _, [], _, hlen, _ => by simp at hlen
  | p, r :: rest, c :: cs, hrows, hlen, hinv => by
    obtain ⟨m1, c1, h1, k1⟩ := decodeStep_keeps (hrows r List.mem_cons_self) (hinv 0 r c rfl rfl) l d
    have htail : ∀ q r c, rest[q]? = some r → cs[q]? = some c → CtxInv (p + 1 + q) r c := fun q r' c' hr hc => by
      rw [Nat.add_right_comm]
      exact hinv (q + 1) r' c' hr hc
    obtain ⟨m2, cs2, h2, k2, k3⟩ := sampleRows_keeps l d (p + 1) rest cs (fun r' hr => hrows r' (List.mem_cons_of_mem _ hr))
      (by simpa using hlen) htail
    refine ⟨m1.or m2, c1 :: cs2, ?_, by simp [k2], fun q r' c' hr hc => ?_⟩
    · simp only [sampleRows, Nat.add_zero] at h1 ⊢
      rw [h1, h2]
    · cases q with
      | zero => cases hr; cases hc; exact k1
      | succ q =>
        have := k3 q r' c' hr hc
        rwa [Nat.add_right_comm] at this

/-- A sample that did not fault ran the fan-out to its end. -/
theorem decSample_rows {s t : State} {l : Level} {d : Duration} (hf : s.fault = false)
    (hx : exec (.decSample l d) s = .next t) (ht : t.fault = false) :
    ∃ m, sampleRows l d 0 s.rom s.dec = .ok (m, t.dec) := by
  obtain ⟨-, hf', -⟩ | ⟨-, h⟩ := exec_next hx
  · rw [hf] at hf'; cases hf'
  · cases h with
    | read ha => cases ha
    | sampled hr => exact ⟨_, hr⟩
    | sampleFault => cases ht

/-! ## The invariant, part by part (R25) -/

/-- The reset value of a context is in the range of every row (R31). -/
theorem ctxInv_reset (p : Nat) (r : RomRow) : CtxInv p r DecCtx.reset :=
  ⟨Nat.zero_le _, Nat.zero_le _, Nat.one_pos, nofun, nofun, nofun, .inl rfl, fun _ => rfl, fun _ => rfl⟩

theorem ctxInv_resetRows {rom : Rom} {p : Nat} {r : RomRow} {c : DecCtx}
    (hc : (rom.map fun _ => DecCtx.reset)[p]? = some c) : CtxInv p r c := by
  obtain ⟨_, _, rfl⟩ := List.mem_map.1 (List.mem_of_getElem? hc)
  exact ctxInv_reset p r

theorem romOk_referenceRom : romOk referenceRom = true := by decide

theorem inv_resetWith {rom : Rom} (h : romOk rom = true) : (State.resetWith rom).Inv where
  rom := h
  contexts := List.length_map _
  ctx := fun _ _ _ _ hc => ctxInv_resetRows hc
  enc := .inl ⟨rfl, rfl⟩
  noFault := fun _ => rfl
  faulted := nofun

section
variable {s : State} (h : s.Inv)
include h

/-- What stands at the ports is no part of the invariant. -/
theorem State.Inv.withPorts (port : List HostEvent) (response : Option Frame) :
    ({ s with port := port, response := response }).Inv :=
  ⟨h.rom, h.contexts, h.ctx, h.enc, h.noFault, h.faulted⟩

theorem State.Inv.respond (a : Response) : (s.respond a).Inv := h.withPorts s.port (some a.frame)

theorem State.Inv.of_hardwareReset : (hardwareReset s).Inv := (inv_resetWith h.rom).withPorts s.port none

theorem State.Inv.withDec {dec : List DecCtx} (hlen : dec.length = s.rom.length)
    (hctx : ∀ p r c, s.rom[p]? = some r → dec[p]? = some c → CtxInv p r c) : ({ s with dec := dec }).Inv :=
  ⟨h.rom, hlen, hctx, h.enc, h.noFault, h.faulted⟩

theorem State.Inv.withEnc {p : Pid} {r : RomRow} {e : EncCtx} (hr : romRow s p = some r) (he : EncInv r e) :
    ({ s with encBound := p, enc := e }).Inv :=
  ⟨h.rom, h.contexts, h.ctx, .inr ⟨r, hr, he⟩, h.noFault, h.faulted⟩

theorem State.Inv.faultedBy {cause : FaultCause} (hc : cause = .unknownProtocol ∨ cause = .encoderUnbound) :
    (s.faultedBy cause).Inv :=
  ⟨h.rom, h.contexts, h.ctx, h.enc, nofun, fun _ => hc.imp (congrArg FaultCause.code) (congrArg FaultCause.code)⟩

/-- The row of a registered pid is well-formed. -/
theorem State.Inv.rowOk_of_romRow {p : Pid} {r : RomRow} (hr : romRow s p = some r) : rowOk r = true := romOk_row h.rom hr

/-- A bound encoder is in the range of its row (R15, R17). -/
theorem State.Inv.encInv {r : RomRow} (hb : s.encBound ≠ pidNone) (hr : romRow s s.encBound = some r) : EncInv r s.enc := by
  obtain ⟨hn, -⟩ | ⟨r', hr', he⟩ := h.enc
  · exact absurd hn hb
  · rw [hr] at hr'
    cases hr'
    exact he

/-- A bound pid is registered (R15). -/
theorem State.Inv.encRow (hb : s.encBound ≠ pidNone) : ∃ r, romRow s s.encBound = some r := by
  obtain ⟨hn, -⟩ | ⟨r, hr, -⟩ := h.enc
  · exact absurd hn hb
  · exact ⟨r, hr⟩

/-- After binding for `ENC_LOAD`, the toggle of a row that does not use it is 0 (R23, R197). -/
theorem State.Inv.bindFor_toggle {p : Pid} {r : RomRow} (hr : romRow s p = some r) (hl : r.layout ≠ .rc6) :
    (bindFor p s).enc.toggle = false := by
  unfold bindFor
  split
  · rename_i hp
    subst hp
    obtain ⟨-, he⟩ | ⟨r', hr', he⟩ := h.enc
    · rw [he]; rfl
    · rw [hr] at hr'
      cases hr'
      exact he.toggleIdle hl
  · rfl

/-- A sample on a machine in its range does not overflow, and keeps the contexts in theirs (R25 (f), R221). -/
theorem State.Inv.sampleRows_ok (l : Level) (d : Duration) : ∃ m dec, sampleRows l d 0 s.rom s.dec = .ok (m, dec)
    ∧ dec.length = s.rom.length ∧ ∀ p r c, s.rom[p]? = some r → dec[p]? = some c → CtxInv p r c := by
  simpa only [Nat.zero_add] using sampleRows_keeps l d 0 s.rom s.dec ((romOk_iff s.rom).1 h.rom).2.1 h.contexts
    (by simpa only [Nat.zero_add] using h.ctx)

/-- Every command's own rule keeps the invariant. -/
theorem State.Inv.of_served {i : Instr} {t : State} (hx : Served s i t) : t.Inv := by
  cases hx with
  | read => exact h.respond _
  | decReset => exact (h.withDec (List.length_map _) fun _ _ _ _ hc => ctxInv_resetRows hc).respond _
  | sampled hr =>
    obtain ⟨m, dec, hr', hlen, hctx⟩ := h.sampleRows_ok _ _
    rw [hr] at hr'
    cases hr'
    exact (h.withDec hlen hctx).respond _
  | sampleFault hr =>
    obtain ⟨m, dec, hr', -⟩ := h.sampleRows_ok _ _
    rw [hr] at hr'
    cases hr'
  | @loaded p address command rep r hr =>
    have he := packInto_inv (h.rowOk_of_romRow hr) (bindFor p s).enc ⟨p, address, command, rep⟩ (h.bindFor_toggle hr)
    exact (h.withEnc hr he).respond _
  | loadFault => exact h.faultedBy (.inl rfl)
  | stepped hb hr he =>
    obtain ⟨e', t', he', hinv⟩ := encodeStep_keeps (h.rowOk_of_romRow hr) (h.encInv hb hr)
    rw [he] at he'
    cases he'
    exact (h.withEnc hr hinv).respond _
  | stepFault => exact h.faultedBy (.inr rfl)

/-- Every command keeps the invariant. -/
theorem State.Inv.of_exec {i : Instr} {t : State} (hx : exec i s = .next t) : t.Inv := by
  obtain ⟨-, -, rfl⟩ | ⟨-, hv⟩ := exec_next hx
  · exact h.respond _
  · exact h.of_served hv

theorem State.Inv.of_takeFrame {f : Frame} {t : State} (hx : takeFrame f s = .next t) : t.Inv := by
  obtain ⟨i, hi⟩ | ⟨a, rfl⟩ := takeFrame_next hx
  · exact h.of_exec hi
  · exact h.respond a

/-! ## Every command answers -/

/-- A machine in its range has an answer to every command: no sample overflows, and the encoder's row and counters exist. -/
theorem State.Inv.served (i : Instr) : ∃ t, Served s i t := by
  cases i with
  | nop | info | findName => exact ⟨_, .read rfl⟩
  | decReset => exact ⟨_, .decReset⟩
  | decSample l d =>
    obtain ⟨m, dec, hr, -⟩ := h.sampleRows_ok l d
    exact ⟨_, .sampled hr⟩
  | encLoad p address command rep =>
    cases hr : romRow s p with
    | none => exact ⟨_, .loadFault hr⟩
    | some r => exact ⟨_, .loaded hr⟩
  | encStep =>
    by_cases hb : s.encBound = pidNone
    · exact ⟨_, .stepFault hb⟩
    · obtain ⟨r, hr⟩ := h.encRow hb
      obtain ⟨e, t, he, -⟩ := encodeStep_keeps (h.rowOk_of_romRow hr) (h.encInv hb hr)
      exact ⟨_, .stepped hb hr he⟩

theorem State.Inv.exec_answers (i : Instr) : ∃ t, exec i s = .next t := by
  cases hf : s.fault with
  | true => exact ⟨_, exec_faulted h.rom hf i⟩
  | false =>
    obtain ⟨t, ht⟩ := h.served i
    exact ⟨t, exec_of_served ((serving_iff s).2 ⟨h.rom, hf⟩) ht⟩

theorem State.Inv.illegalFrame_answers : ∃ t, illegalFrame s = .next t := by
  cases hf : s.fault with
  | true => exact ⟨_, dispatch_faulted _ h.rom hf⟩
  | false => exact ⟨_, dispatch_serving _ ((serving_iff s).2 ⟨h.rom, hf⟩)⟩

theorem State.Inv.takeFrame_answers (f : Frame) : ∃ t, takeFrame f s = .next t := by
  unfold takeFrame
  split
  · exact h.exec_answers _
  · exact h.illegalFrame_answers

theorem State.Inv.step_answers : ∃ t, step s = .next t := by
  cases hp : s.port with
  | nil => exact ⟨_, step_idle hp⟩
  | cons event rest =>
    cases event with
    | hardwareReset => exact ⟨_, step_hardwareReset hp⟩
    | command f =>
      rw [step_command hp]
      exact (h.withPorts rest s.response).takeFrame_answers f

/-- Every action of the host keeps the invariant. -/
theorem State.Inv.of_step {t : State} (hx : step s = .next t) : t.Inv := by
  cases hp : s.port with
  | nil =>
    rw [step_idle hp] at hx
    cases hx
    exact h
  | cons event rest =>
    have hrest := h.withPorts rest s.response
    cases event with
    | hardwareReset =>
      rw [step_hardwareReset hp] at hx
      cases hx
      exact hrest.of_hardwareReset
    | command f =>
      rw [step_command hp] at hx
      exact hrest.of_takeFrame hx

end

/-! ## Where a message comes from (R120 to R127) -/

/-- The context with the sample taken in: what `DecodeStep` runs the engine on (R120). -/
def DecCtx.sampled (c : DecCtx) (l : Level) (d : Duration) : DecCtx :=
  { c with timings := (if l = c.lastLevel then [] else c.timings) ++ [d], lastLevel := l }

theorem dropOnRepeatedLevel_eq (l : Level) (c : DecCtx) :
    dropOnRepeatedLevel l c = { c with timings := if l = c.lastLevel then [] else c.timings } := by
  unfold dropOnRepeatedLevel
  split
  · simp [DecCtx.consume, DecCtx.timingsCnt]
  · rfl

/-- A sample that is taken in runs the engine on at most six timings. -/
theorem decodeStep_ok {r : RomRow} {pid : Pid} {c c' : DecCtx} {l : Level} {d : Duration} {m : Option Message}
    (h : decodeStep r pid c l d = .ok (m, c')) :
    run r pid (c.sampled l d) = (m, c') ∧ (c.sampled l d).timings.length ≤ 6 := by
  unfold decodeStep at h
  split at h
  · rename_i b hb
    obtain ⟨hlt, rfl⟩ := (append_ok_iff _ _ _).1 hb
    rw [dropOnRepeatedLevel_eq] at h hlt
    exact ⟨Except.ok.inj h, by simpa [DecCtx.sampled, DecCtx.timingsCnt, maxTimings, Nat.lt_succ_iff] using hlt⟩
  · cases h

/-- A turn in state Decode surfaces a message only by a successful interpret of a complete payload (R125). -/
theorem decodeTurn_message {r : RomRow} {pid : Pid} {c c' : DecCtx} {m : Message}
    (h : decodeTurn r pid c = .stop (some m) c') :
    ∃ c2 c3, decodeBits r c = (.ready, c2) ∧ c2.databitCnt = r.databitLen ∧ interpret r pid c2 = some c3
      ∧ c3.message = m ∧ c' = c3.goTo (afterMessage r) := by
  obtain ⟨hw, -⟩ | ⟨hw, -⟩ | ⟨-, -, hw⟩ | ⟨hst, c3, hi, hw⟩ := decodeTurn_cases r pid c <;> rw [hw] at h <;> cases h
  exact ⟨_, c3, Prod.ext hst rfl, ((decodeBits_post r c).ready hst).2, hi, rfl, rfl⟩

/-- A turn in state ProcessRepeat surfaces a message only on a repeat code (R126, R127). -/
theorem repeatTurn_message {r : RomRow} {c c' : DecCtx} {m : Message} (h : repeatTurn r c = .stop (some m) c') :
    ∃ c1, decodeRepeat r c = (.ready, c1) ∧ m = { c.message with rep := true } ∧ c' = { c1 with message := m } := by
  unfold repeatTurn at h
  obtain ⟨hd, -⟩ | ⟨hd, -⟩ | ⟨hd, -⟩ := decodeRepeat_cases r c <;> rw [hd] at h <;> cases h
  exact ⟨_, hd, rfl, rfl⟩

/-- A turn in state WaitPreamble surfaces no message (R122). -/
theorem waitTurn_message {r : RomRow} {c c' : DecCtx} {m : Message} : waitTurn r c ≠ .stop (some m) c' := by
  intro h
  obtain ⟨n, hw, -⟩ | ⟨n, hw, -⟩ := waitTurn_cases r c <;> rw [hw] at h <;> cases h

/-- `Run` passes through ProcessRepeat only where it began. -/
theorem Passes.eq_of_processRepeat {r : RomRow} {p b : DecCtx} (h : Passes r p b) (hs : b.state = .processRepeat) : b = p := by
  cases h with
  | start => rfl
  | preamble | decodeError | repeatError => cases hs

/-- `Run` passes through Decode where it began, or after a preamble it found (R122). -/
theorem Passes.cases_of_decode {r : RomRow} {p b : DecCtx} (h : Passes r p b) (hs : b.state = .decode) :
    b = p ∨ ∃ q q' n, Passes r p q ∧ q.state = .waitPreamble ∧ checkPreamble r q = (true, q')
      ∧ q'.timings = p.timings.drop n
      ∧ b = { p with state := .decode, timings := q'.timings, data := 0, databitCnt := 0, switchDetect := false } := by
  have hpost := h.post
  cases h with
  | start => exact .inl rfl
  | @preamble q q' hq hqs hc =>
    obtain ⟨⟨n, hn⟩, hm, hl, ht, -⟩ := hpost
    simp only at hn hm hl ht
    exact .inr ⟨q, q', n, hq, hqs, hc, hn, by rw [hm, hl, ht]⟩
  | decodeError | repeatError => cases hs

end Sys2Proof.Machine

namespace Sys2Proof.Proofs

open Sys2Proof Sys2Proof.Machine

/-- Settles O56: every host action keeps every part of the invariant. -/
theorem stepKeepsTheInvariant : Obligations.StepKeepsTheInvariant :=
  fun _ _ h hx => h.of_step hx

/-- Settles O24: the fan-out steps a context by its own row and by nothing else. -/
theorem contextsAreSeparate : Obligations.ContextsAreSeparate := by
  intro s s' t t' l d p hf hf' hrom hdec hx hx' ht ht'
  obtain ⟨m, hr⟩ := decSample_rows hf hx ht
  obtain ⟨m', hr'⟩ := decSample_rows hf' hx' ht'
  obtain ⟨hstay, hnone, hstep⟩ := sampleRows_getElem? hr p
  obtain ⟨hstay', hnone', hstep'⟩ := sampleRows_getElem? hr' p
  rw [← hrom] at hstay' hstep'
  rw [← hdec] at hstay' hnone' hstep'
  cases hc : s.dec[p]? with
  | none => rw [hnone hc, hnone' hc]
  | some c =>
    cases hrow : s.rom[p]? with
    | none => rw [hstay hrow, hstay' hrow]
    | some r =>
      obtain ⟨_, c1, h1, hget⟩ := hstep r c hrow hc
      obtain ⟨_, c1', h1', hget'⟩ := hstep' r c hrow hc
      rw [h1] at h1'
      cases h1'
      rw [hget, hget']

/-- Settles O25: on contexts in their ranges the fan-out ends without an overflow. -/
theorem samplesNeverOverflow : Obligations.SamplesNeverOverflow := by
  intro s l d h hf
  obtain ⟨m, dec, hr, -⟩ := h.sampleRows_ok l d
  exact ⟨_, exec_of_served ((serving_iff s).2 ⟨h.rom, hf⟩) (.sampled hr), hf⟩

/-- Settles O36, by the turn of `Run` that surfaced the message. -/
theorem messagesComeFromInterpret : Obligations.MessagesComeFromInterpret := by
  rintro r pid c _ c' l d m rfl h
  obtain ⟨hrun, hlen⟩ := decodeStep_ok h
  obtain ⟨b, hb, ht⟩ := run_passes (pid := pid) hlen
  rw [hrun] at ht
  unfold engineTurn at ht
  cases hs : b.state with
  | waitPreamble =>
    rw [hs] at ht
    exact absurd ht waitTurn_message
  | decode =>
    rw [hs] at ht
    obtain ⟨c2, c3, hbits, hcnt, hint, hmsg, rfl⟩ := decodeTurn_message ht
    refine ⟨hmsg, .inr ⟨b, c2, c3, ?_, hbits, hcnt, hint, hmsg, rfl⟩⟩
    obtain rfl | hpre := hb.cases_of_decode hs
    · exact .inl ⟨hs, rfl⟩
    · exact .inr hpre
  | processRepeat =>
    rw [hs] at ht
    obtain ⟨c1, hrep, hm, rfl⟩ := repeatTurn_message ht
    obtain rfl := hb.eq_of_processRepeat hs
    exact ⟨rfl, .inl ⟨hs, c1, hrep, hm, rfl⟩⟩

/-- Settles O55: the reset values stand in every row's ranges, and the reference ROM can be built. -/
theorem resetMeetsTheInvariant : Obligations.ResetMeetsTheInvariant :=
  ⟨fun _ => inv_resetWith, inv_resetWith romOk_referenceRom⟩

/-- Settles O57: the invariant rules out an overflow, a missing row and counters out of range. -/
theorem nothingStopsTheMachine : Obligations.NothingStopsTheMachine :=
  fun _ h => ⟨h.exec_answers, h.step_answers⟩

/-- Settles O59, from the frames of a command's own rule; a block that has faulted only gives a response. -/
theorem commandFrames : Obligations.CommandFrames := by
  intro i s t hx
  obtain ⟨-, -, rfl⟩ | ⟨hs, hv⟩ := exec_next hx
  · exact ⟨rfl, rfl, fun _ => rfl, fun _ => ⟨rfl, rfl⟩, fun _ => ⟨rfl, rfl, rfl⟩, fun _ => rfl⟩
  · obtain ⟨-, hnf⟩ := (serving_iff s).1 hs
    obtain ⟨hrom, hport⟩ := hv.rom_port
    refine ⟨hrom, hport, hv.dec_frame, hv.enc_frame, ?_, fun hf => ?_⟩
    · rintro rfl
      exact hv.encStep_frame
    · rw [hnf] at hf
      cases hf

/-- Settles O8: every context after the reset is the reset value of R31, whose fields are the table's. -/
theorem hardwareResetGivesTheResetTable : Obligations.HardwareResetGivesTheResetTable := by
  intro s rest hp
  refine ⟨_, step_hardwareReset hp, rfl, rfl, rfl, rfl, rfl, rfl, rfl, rfl, List.length_map _, fun c hc => ?_, rfl, rfl, rfl⟩
  obtain ⟨_, _, rfl⟩ := List.mem_map.1 hc
  exact ⟨rfl, rfl, fun i _ => slot_of_timingsCnt_le _ i (Nat.zero_le i), rfl, rfl, rfl, rfl, rfl, rfl⟩

end Sys2Proof.Proofs
end

section
/-! PROOFS. The rules of 20_memory.md: names as they lie in the words of a response (R48), the ROM that no step writes
(R46), the commands that may be repeated (R51), and the two paths that do not see each other (R57). -/

namespace Sys2Proof.Machine

/-! ## Packed names (R48 (b)) -/

/-- Byte `j` of a packed word is the character at its place. -/
theorem nameWord_byte (name : List Byte) (w : Nat) {j : Nat} (hj : j < 4) :
    (nameWord name w).extractLsb' (8 * j) 8 = nameByte name (4 * w + j) := by
  apply BitVec.eq_of_getLsbD_eq
  intro i hi
  simp only [nameWord, BitVec.getLsbD_extractLsb', BitVec.getLsbD_append, hi, decide_true, Bool.true_and]
  obtain rfl | rfl | rfl | rfl : j = 0 ∨ j = 1 ∨ j = 2 ∨ j = 3 := by omega
  all_goals
    simp (disch := omega) only [if_pos, if_neg]
    congr 1
    omega

theorem nameByte_eq (name : List Byte) (k : Nat) : nameByte name k = if h : k < name.length then name[k] else 0#8 := by
  rw [nameByte, List.getD_eq_getElem?_getD]
  split
  · rw [List.getElem?_eq_getElem ‹_›, Option.getD_some]
  · rw [List.getElem?_eq_none (by omega), Option.getD_none]

/-! ## The ROM (R46) -/

theorem exec_rom {i : Instr} {s t : State} (h : exec i s = .next t) : t.rom = s.rom := by
  obtain ⟨-, -, rfl⟩ | ⟨-, hv⟩ := exec_next h
  · rfl
  · exact hv.rom_port.1

theorem step_rom {s t : State} (h : step s = .next t) : t.rom = s.rom := by
  cases hp : s.port with
  | nil =>
    rw [step_idle hp] at h
    cases h
    rfl
  | cons event rest =>
    cases event with
    | hardwareReset =>
      rw [step_hardwareReset hp] at h
      cases h
      rfl
    | command f =>
      rw [step_command hp] at h
      obtain ⟨i, hx⟩ | ⟨a, rfl⟩ := takeFrame_next h
      · exact (exec_rom hx :)
      · rfl

/-! ## Commands given again (R51) -/

/-- What a reading command answers does not depend on the response given before it. -/
theorem readAnswer_respond (s : State) (a : Response) (i : Instr) : readAnswer (s.respond a) i = readAnswer s i := by
  cases i <;> rfl

/-- A block that has faulted answers a command given again as it did before (R226). -/
theorem exec_faulted_again {s : State} (hr : romOk s.rom = true) (hf : s.fault = true) (i : Instr) :
    exec i (s.respond (faultResponse s.faultCause)) = .next (s.respond (faultResponse s.faultCause)) :=
  exec_faulted (s := s.respond (faultResponse s.faultCause)) hr hf i

/-- A reading command given again answers as it did before. -/
theorem exec_read_again {s : State} (hs : s.serving = true) {i : Instr} {a : Response} (ha : readAnswer s i = some a) :
    exec i (s.respond a) = .next (s.respond a) :=
  exec_of_served (s := s.respond a) hs (.read ((readAnswer_respond s a i).trans ha))

/-- The reset values of the contexts do not depend on the contexts before (R191). -/
theorem exec_decReset_again {s : State} (hs : s.serving = true) :
    exec .decReset (({ s with dec := s.rom.map (fun _ => DecCtx.reset) }).respond { status := .ok })
      = .next (({ s with dec := s.rom.map (fun _ => DecCtx.reset) }).respond { status := .ok }) :=
  exec_of_served (s := ({ s with dec := s.rom.map (fun _ => DecCtx.reset) }).respond { status := .ok }) hs .decReset

/-- What a command that reads can do on a serving block: give its answer. -/
theorem Served.of_reads {s t : State} {i : Instr} (h : Served s i t)
    (hi : i = .nop ∨ (∃ pid sel, i = .info pid sel) ∨ ∃ n1 n2 n3, i = .findName n1 n2 n3) :
    ∃ a, readAnswer s i = some a ∧ t = s.respond a := by
  obtain rfl | ⟨pid, sel, rfl⟩ | ⟨n1, n2, n3, rfl⟩ := hi <;> cases h with
  | read ha => exact ⟨_, ha, rfl⟩

/-! ## A message loaded again (R51, R153) -/

/-- The block after a completed `ENC_LOAD` that left the encoder bound to `p` with context `e` (R196). -/
def State.loadedWith (s : State) (p : Pid) (e : EncCtx) : State :=
  ({ s with encBound := p, enc := e }).respond { status := .ok }

theorem bindFor_loadedWith (s : State) (p : Pid) (e : EncCtx) : bindFor p (s.loadedWith p e) = s.loadedWith p e :=
  bindFor_of_bound (s.loadedWith p e)

/-- An `ENC_LOAD` of a registered protocol packs the message over the context it binds (R196). -/
theorem exec_encLoad {s : State} (hs : s.serving = true) {p : Pid} {r : RomRow} (hr : romRow s p = some r)
    (address command : Word) (rep : Bool) :
    exec (.encLoad p address command rep) s
      = .next (s.loadedWith p ((bindFor p s).enc.loaded r ⟨p, address, command, rep⟩)) :=
  exec_of_served hs (.loaded hr)

/-- A further `ENC_LOAD` of the same protocol packs over the context that the one before it left. -/
theorem exec_encLoad_again {s : State} (hs : s.serving = true) {p : Pid} {r : RomRow} (hr : romRow s p = some r)
    (e : EncCtx) (address command : Word) (rep : Bool) :
    exec (.encLoad p address command rep) (s.loadedWith p e)
      = .next (s.loadedWith p (e.loaded r ⟨p, address, command, rep⟩)) := by
  have h := exec_encLoad (s := s.loadedWith p e) hs hr address command rep
  rwa [bindFor_loadedWith] at h

/-- Layouts without a toggle pack only address and command (R150 to R152; entry 5 for an extension layout). -/
theorem EncCtx.loaded_loaded {r : RomRow} (hl : r.layout ≠ .rc6) (e : EncCtx) (msg : Message) :
    (e.loaded r msg).loaded r msg = e.loaded r msg := by
  unfold EncCtx.loaded packInto
  cases h : r.layout with
  | rc6 => exact absurd h hl
  | nec | necExt | samsung32 | ext => rfl

/-- An RC6 load depends on the context before it only in the toggle (R153). -/
theorem EncCtx.loaded_rc6 {r : RomRow} (hl : r.layout = .rc6) (e : EncCtx) (msg : Message) :
    e.loaded r msg = { state := .space, timingsEncoded := 0, bitsEncoded := 0
                       data := (packRc6 e.toggle msg.address msg.command).toNat, toggle := !e.toggle } := by
  simp only [EncCtx.loaded, packInto, hl, EncCtx.flipToggle]

/-- The toggle stands in bit 4 of an RC6 frame and in no other bit (R153). -/
theorem packRc6_testBit (toggle : Bool) (address command : Word) (i : Nat) :
    (packRc6 toggle address command).toNat.testBit i
      = if i = 4 then toggle else (packRc6 false address command).toNat.testBit i := by
  simp only [packRc6, BitVec.testBit_toNat, BitVec.getLsbD_append, BitVec.getLsbD_ofBool]
  obtain hi | rfl | hi := Nat.lt_trichotomy i 4
  · simp [hi.ne, show i - 1 < 3 by omega]
  · simp
  · simp [hi.ne', show i - 1 - 3 ≠ 0 by omega]

section
variable {r : RomRow} (hl : r.layout = .rc6) (e : EncCtx) (msg : Message)
include hl

theorem EncCtx.loaded_again_rc6 :
    (e.loaded r msg).loaded r msg
      = { e.loaded r msg with data := ((e.loaded r msg).loaded r msg).data, toggle := !(e.loaded r msg).toggle } := by
  simp only [EncCtx.loaded_rc6 hl]

/-- The toggle is inverted at each load, so the data of the next differ in its bit. -/
theorem EncCtx.loaded_again_testBit_rc6 (i : Nat) :
    ((e.loaded r msg).loaded r msg).data.testBit i
      = if i = 4 then !(e.loaded r msg).data.testBit 4 else (e.loaded r msg).data.testBit i := by
  simp only [EncCtx.loaded_rc6 hl]
  rw [packRc6_testBit (!e.toggle), packRc6_testBit e.toggle, packRc6_testBit e.toggle]
  split <;> rfl

/-- Two loads give the toggle back. -/
theorem EncCtx.loaded_thrice_rc6 : ((e.loaded r msg).loaded r msg).loaded r msg = e.loaded r msg := by
  simp only [EncCtx.loaded_rc6 hl, Bool.not_not]

end

/-! ## The two paths (R26, R57) -/

/-- No command clears `FAULT` (R226). -/
theorem fault_of_exec {i : Instr} {s t : State} (h : exec i s = .next t) (ht : t.fault = false) : s.fault = false := by
  obtain ⟨-, -, rfl⟩ | ⟨hs, -⟩ := exec_next h
  · exact ht
  · exact ((serving_iff s).1 hs).2

/-- A command that leaves `FAULT` at 0 ran by its own rule. -/
theorem served_of_noFault {i : Instr} {s t : State} (h : exec i s = .next t) (ht : t.fault = false) :
    s.serving = true ∧ Served s i t := by
  obtain ⟨-, hf, rfl⟩ | hv := exec_next h
  · exact absurd ht (by simp [hf])
  · exact hv

/-- The context that a load starts from is the bound context's, or a fresh one's: the decoder has no part in it (R197). -/
theorem bindFor_enc (p : Pid) (s : State) : (bindFor p s).enc = if s.encBound = p then s.enc else EncCtx.reset := by
  unfold bindFor
  split <;> rfl

/-- The commands of either path do more than read. -/
theorem readAnswer_eq_none {i : Instr} (hi : decoderCommand i = true ∨ encoderCommand i = true) (s : State) :
    readAnswer s i = none := by
  cases i with
  | decReset | decSample | encLoad | encStep => rfl
  | nop | info | findName => simp [decoderCommand, encoderCommand] at hi

/-- A decoder command that does not fault writes the contexts and answers, and does the same whatever the encoder holds. -/
theorem exec_dec_effect {i : Instr} {s t : State} (hi : decoderCommand i = true) (h : exec i s = .next t)
    (ht : t.fault = false) :
    ∃ dec a, t = ({ s with dec := dec }).respond a
      ∧ ∀ bound enc response, exec i { s with encBound := bound, enc := enc, response := response }
          = .next (({ s with dec := dec, encBound := bound, enc := enc }).respond a) := by
  obtain ⟨hs, hv⟩ := served_of_noFault h ht
  cases hv with
  | decReset =>
    exact ⟨_, _, rfl, fun bound enc response =>
      exec_of_served (s := { s with encBound := bound, enc := enc, response := response }) hs .decReset⟩
  | sampled hr =>
    exact ⟨_, _, rfl, fun bound enc response =>
      exec_of_served (s := { s with encBound := bound, enc := enc, response := response }) hs (.sampled hr)⟩
  | read ha => simp [readAnswer_eq_none (.inl hi)] at ha
  | sampleFault => cases ht
  | loaded | loadFault | stepped | stepFault => cases hi

/-- An encoder command that does not fault writes the encoder and answers, and does the same whatever the contexts of the
decoder hold. -/
theorem exec_enc_effect {i : Instr} {s t : State} (hi : encoderCommand i = true) (h : exec i s = .next t)
    (ht : t.fault = false) :
    ∃ bound enc a, t = ({ s with encBound := bound, enc := enc }).respond a
      ∧ ∀ dec response, exec i { s with dec := dec, response := response }
          = .next (({ s with dec := dec, encBound := bound, enc := enc }).respond a) := by
  obtain ⟨hs, hv⟩ := served_of_noFault h ht
  cases hv with
  | @loaded p address command rep r hr =>
    refine ⟨_, _, _, rfl, fun dec response => ?_⟩
    have hx := exec_of_served (s := { s with dec := dec, response := response }) hs
      (.loaded (address := address) (command := command) (rep := rep) hr)
    rw [bindFor_enc] at hx ⊢
    exact hx
  | stepped hb hr he =>
    exact ⟨_, _, _, rfl, fun dec response =>
      exec_of_served (s := { s with dec := dec, response := response }) hs (.stepped hb hr he)⟩
  | read ha => simp [readAnswer_eq_none (.inr hi)] at ha
  | loadFault | stepFault => cases ht
  | decReset | sampled | sampleFault => cases hi

end Sys2Proof.Machine

namespace Sys2Proof.Proofs

open Sys2Proof Sys2Proof.Machine

/-- Settles O19: the packed words hold the characters byte by byte, and byte `k` lies in word `k div 4`. -/
theorem namesArePackedLittleEndian : Obligations.NamesArePackedLittleEndian := by
  intro name k _
  rw [nameWord_byte name (k / 4) (Nat.mod_lt k (by decide)), Nat.div_add_mod, nameByte_eq]

/-- Settles O21: the answer is read from parts of the state that the command leaves as they are. -/
theorem readingCommandsRepeat : Obligations.ReadingCommandsRepeat := by
  intro i s t hx
  obtain ⟨hr, hf, rfl⟩ | ⟨hs, hv⟩ := exec_next hx
  · have hagain := exec_faulted_again hr hf i
    exact ⟨fun _ => ⟨rfl, hagain⟩, fun _ => hagain⟩
  · refine ⟨fun hi => ?_, ?_⟩
    · obtain ⟨a, ha, rfl⟩ := hv.of_reads hi
      exact ⟨rfl, exec_read_again hs ha⟩
    · rintro rfl
      cases hv with
      | read ha => cases ha
      | decReset => exact exec_decReset_again hs

/-- Settles O45: each load after the first packs over the context that the load before it left. -/
theorem reloadingFlipsOnlyTheRc6Toggle : Obligations.ReloadingFlipsOnlyTheRc6Toggle := by
  intro s t u v r p address command rep hs hr ht hu hv
  rw [exec_encLoad hs hr] at ht
  cases ht
  rw [exec_encLoad_again hs hr] at hu
  cases hu
  rw [exec_encLoad_again hs hr] at hv
  cases hv
  refine ⟨fun hl => ?_, fun hl => ?_⟩
  · rw [EncCtx.loaded_loaded hl]
  · exact ⟨congrArg (s.loadedWith p) (EncCtx.loaded_again_rc6 hl _ _), EncCtx.loaded_again_testBit_rc6 hl _ _,
      congrArg (s.loadedWith p) (EncCtx.loaded_thrice_rc6 hl _ _)⟩

/-- Settles O58: no command writes the ROM and a hardware reset keeps it; every command asks first whether it can be built. -/
theorem theRomNeverChanges : Obligations.TheRomNeverChanges :=
  ⟨fun _ _ => step_rom, fun _ i hr => exec_refused hr i⟩

/-- Settles O60: each command writes its own path and reads nothing of the other's. -/
theorem decoderAndEncoderCommute : Obligations.DecoderAndEncoderCommute := by
  intro s t1 t2 u1 u2 a b ha hb h1 h2 k1 k2 ht hu
  obtain ⟨dec, ra, rfl, hdec⟩ := exec_dec_effect ha h1 (fault_of_exec h2 ht)
  obtain ⟨bound, enc, rb, rfl, henc⟩ := exec_enc_effect hb k1 (fault_of_exec k2 hu)
  have h2' := henc dec (some ra.frame)
  have k2' := hdec bound enc (some rb.frame)
  cases h2.symm.trans h2'
  cases k2.symm.trans k2'
  exact ⟨rfl, rfl, rfl⟩

end Sys2Proof.Proofs
end

section
/-! PROOFS. The rules of 30_encoding.md: where the fields of a frame and of a response lie (R71, R75), the frames that each
match and mask pair selects (R72), dispatch of a frame (R73), and the status of every answer (R76). -/

namespace Sys2Proof.Machine

open Sys2Proof.Laws (packW0_fields)

/-! ## A first word and its fields (R71) -/

/-- A first word is determined by its fields, the reserved bits 7:1 among them. -/
theorem word_eq_iff_fields (x y : Word) : x = y ↔
    x.extractLsb' 24 8 = y.extractLsb' 24 8 ∧ x.extractLsb' 16 8 = y.extractLsb' 16 8
      ∧ x.extractLsb' 8 8 = y.extractLsb' 8 8 ∧ x.extractLsb' 1 7 = y.extractLsb' 1 7 ∧ x.getLsbD 0 = y.getLsbD 0 := by
  refine ⟨fun h => by simp [h], fun ⟨hop, hpid, hsel, hres, hflag⟩ => BitVec.eq_of_getLsbD_eq fun i hi => ?_⟩
  have field (start len : Nat) (h : x.extractLsb' start len = y.extractLsb' start len) (hlo : start ≤ i)
      (hhi : i < start + len) : x.getLsbD i = y.getLsbD i := by
    have hbit := congrArg (·.getLsbD (i - start)) h
    simpa [BitVec.getLsbD_extractLsb', show i - start < len by omega, Nat.add_sub_cancel' hlo] using hbit
  obtain rfl | h | h | h | h : i = 0 ∨ (1 ≤ i ∧ i < 1 + 7) ∨ (8 ≤ i ∧ i < 8 + 8) ∨ (16 ≤ i ∧ i < 16 + 8)
    ∨ (24 ≤ i ∧ i < 24 + 8) := by omega
  · exact hflag
  · exact field 1 7 hres h.1 h.2
  · exact field 8 8 hsel h.1 h.2
  · exact field 16 8 hpid h.1 h.2
  · exact field 24 8 hop h.1 h.2

section
variable (op pid sel : Byte) (flag : Bool) (w1 w2 w3 : Word)

@[simp] theorem Frame.op_packed : (Frame.mk (packW0 op pid sel flag) w1 w2 w3).op = op := by
  obtain ⟨h, -⟩ := packW0_fields op pid sel flag
  exact h

@[simp] theorem Frame.pid_packed : (Frame.mk (packW0 op pid sel flag) w1 w2 w3).pid = pid := by
  obtain ⟨-, h, -⟩ := packW0_fields op pid sel flag
  exact h

@[simp] theorem Frame.sel_packed : (Frame.mk (packW0 op pid sel flag) w1 w2 w3).sel = sel := by
  obtain ⟨-, -, h, -⟩ := packW0_fields op pid sel flag
  exact h

@[simp] theorem Frame.flag_packed : (Frame.mk (packW0 op pid sel flag) w1 w2 w3).flag = flag := by
  obtain ⟨-, -, -, -, h⟩ := packW0_fields op pid sel flag
  exact h

end

/-! ## Match and mask (R72) -/

/-- The mask of a field: all ones where the field must be zero, else all zeros. -/
def fieldMask (n : Nat) (mbz : Bool) : BitVec n := bif mbz then BitVec.allOnes n else 0#n

/-- A field with the value that a pair asks of it: 0 where it must be zero, else its own. -/
def fieldUnder {n : Nat} (mbz : Bool) (x : BitVec n) : BitVec n := bif mbz then 0#n else x

theorem and_fieldMask_eq_zero_iff {n : Nat} (mbz : Bool) (x : BitVec n) :
    x &&& fieldMask n mbz = 0#n ↔ fieldUnder mbz x = x := by
  cases mbz with
  | false => simp [fieldMask, fieldUnder]
  | true =>
    rw [fieldMask, cond_true, BitVec.and_allOnes]
    exact eq_comm

/-- The mask of a first word: the opcode and the reserved bits are always fixed, the operands as said. -/
def operandMask (pid sel flag : Bool) : Word :=
  0xFF#8 ++ fieldMask 8 pid ++ fieldMask 8 sel ++ 0x7F#7 ++ fieldMask 1 flag

theorem operandMask_fields (pid sel flag : Bool) :
    (operandMask pid sel flag).extractLsb' 24 8 = BitVec.allOnes 8
      ∧ (operandMask pid sel flag).extractLsb' 16 8 = fieldMask 8 pid
      ∧ (operandMask pid sel flag).extractLsb' 8 8 = fieldMask 8 sel
      ∧ (operandMask pid sel flag).extractLsb' 1 7 = BitVec.allOnes 7 ∧ (operandMask pid sel flag).getLsbD 0 = flag := by
  revert pid sel flag
  decide

/-- The match of a pair is a first word whose operands are zero. -/
theorem opcodeMatch_fields (op : Byte) :
    (op ++ 0#24).extractLsb' 24 8 = op ∧ (op ++ 0#24).extractLsb' 16 8 = 0#8 ∧ (op ++ 0#24).extractLsb' 8 8 = 0#8
      ∧ (op ++ 0#24).extractLsb' 1 7 = 0#7 ∧ (op ++ 0#24).getLsbD 0 = false := by
  refine ⟨BitVec.extractLsb'_append_eq_left, ?_, ?_, ?_, ?_⟩
  · exact BitVec.extractLsb'_append_eq_of_add_le (by decide)
  · exact BitVec.extractLsb'_append_eq_of_add_le (by decide)
  · exact BitVec.extractLsb'_append_eq_of_add_le (by decide)
  · rw [BitVec.getLsbD_append, if_pos (by decide), BitVec.getLsbD_zero]

/-- The first word under a pair's mask has the pair's match exactly when it is packed from the opcode and the operands. -/
theorem and_operandMask_eq_iff (op : Byte) (pid sel flag : Bool) (f : Frame) :
    f.w0 &&& operandMask pid sel flag = op ++ 0#24
      ↔ packW0 op (fieldUnder pid f.pid) (fieldUnder sel f.sel) (!flag && f.flag) = f.w0 := by
  obtain ⟨hop, hpid, hsel, hres, hflag⟩ := operandMask_fields pid sel flag
  obtain ⟨vop, vpid, vsel, vres, vflag⟩ := opcodeMatch_fields op
  obtain ⟨pop, ppid, psel, pres, pflag⟩ := packW0_fields op (fieldUnder pid f.pid) (fieldUnder sel f.sel) (!flag && f.flag)
  rw [word_eq_iff_fields, word_eq_iff_fields, pop, ppid, psel, pres, pflag, vop, vpid, vsel, vres, vflag]
  simp only [BitVec.extractLsb'_and, BitVec.getLsbD_and, hop, hpid, hsel, hres, hflag, BitVec.and_allOnes,
    and_fieldMask_eq_zero_iff]
  have flagIff : (f.w0.getLsbD 0 && flag) = false ↔ (!flag && f.flag) = f.w0.getLsbD 0 := by
    cases flag with
    | false => simp [Frame.flag]
    | true => simp
  rw [flagIff, eq_comm (b := op), eq_comm (b := 0#7)]
  rfl

/-- A pair of R72 by its opcode and which of the operands must be zero. -/
def formPattern (op : Byte) (pid sel flag w1 w2 w3 : Bool) : Pattern :=
  patternOf op (operandMask pid sel flag) (fieldMask 32 w1) (fieldMask 32 w2) (fieldMask 32 w3)

/-- The frames that a pair selects are those packed from its opcode, with zero in the operands that must be zero. -/
theorem formPattern_selects_iff (op : Byte) (pid sel flag w1 w2 w3 : Bool) (f : Frame) :
    (formPattern op pid sel flag w1 w2 w3).selects f = true ↔
      { w0 := packW0 op (fieldUnder pid f.pid) (fieldUnder sel f.sel) (!flag && f.flag)
        w1 := fieldUnder w1 f.w1, w2 := fieldUnder w2 f.w2, w3 := fieldUnder w3 f.w3 } = f := by
  simp only [formPattern, patternOf, Pattern.selects, Bool.and_eq_true, beq_iff_eq, and_operandMask_eq_iff,
    and_fieldMask_eq_zero_iff, and_assoc]
  cases f
  rw [Frame.mk.injEq]

/-! Each of the seven pairs computes to the form of its opcode, and the operands that the form keeps are the command's. -/

theorem nopPattern_selects_iff (f : Frame) : nopPattern.selects f = true ↔ encode .nop = f :=
  formPattern_selects_iff 0x00#8 true true true true true true f

theorem decResetPattern_selects_iff (f : Frame) : decResetPattern.selects f = true ↔ encode .decReset = f :=
  formPattern_selects_iff 0x01#8 true true true true true true f

theorem decSamplePattern_selects_iff (f : Frame) :
    decSamplePattern.selects f = true ↔ encode (.decSample f.flag f.w1) = f :=
  formPattern_selects_iff 0x02#8 true true false false true true f

theorem encLoadPattern_selects_iff (f : Frame) :
    encLoadPattern.selects f = true ↔ encode (.encLoad f.pid f.w1 f.w2 f.flag) = f :=
  formPattern_selects_iff 0x03#8 false true false false false true f

theorem encStepPattern_selects_iff (f : Frame) : encStepPattern.selects f = true ↔ encode .encStep = f :=
  formPattern_selects_iff 0x04#8 true true true true true true f

theorem infoPattern_selects_iff (f : Frame) : infoPattern.selects f = true ↔ encode (.info f.pid f.sel) = f :=
  formPattern_selects_iff 0x05#8 false false true true true true f

theorem findNamePattern_selects_iff (f : Frame) :
    findNamePattern.selects f = true ↔ encode (.findName f.w1 f.w2 f.w3) = f :=
  formPattern_selects_iff 0x06#8 true true true false false false f

/-! ## The pair of a command (R72) -/

/-- The pair that selects a command's frame. -/
def patternFor : Instr → Pattern
  | .nop => nopPattern
  | .decReset => decResetPattern
  | .decSample _ _ => decSamplePattern
  | .encLoad _ _ _ _ => encLoadPattern
  | .encStep => encStepPattern
  | .info _ _ => infoPattern
  | .findName _ _ _ => findNamePattern

theorem patternFor_mem (i : Instr) : patternFor i ∈ patterns := by
  cases i <;> simp [patternFor, patterns]

theorem patternOf_value_op (op : Byte) (m0 m1 m2 m3 : Word) : (patternOf op m0 m1 m2 m3).value.op = op :=
  (opcodeMatch_fields op).1

theorem patternFor_value_op (i : Instr) : (patternFor i).value.op = i.opcode := by
  cases i <;> exact patternOf_value_op ..

/-- The seven pairs have seven opcodes. -/
theorem patterns_eq_of_op : ∀ p ∈ patterns, ∀ q ∈ patterns, p.value.op = q.value.op → p = q := by decide

theorem op_encode (i : Instr) : (encode i).op = i.opcode := by
  cases i <;> exact Frame.op_packed ..

theorem patternFor_selects_encode (i : Instr) : (patternFor i).selects (encode i) = true := by
  cases i with
  | nop => exact (nopPattern_selects_iff _).2 rfl
  | decReset => exact (decResetPattern_selects_iff _).2 rfl
  | decSample => simp [patternFor, decSamplePattern_selects_iff, encode]
  | encLoad => simp [patternFor, encLoadPattern_selects_iff, encode]
  | encStep => exact (encStepPattern_selects_iff _).2 rfl
  | info => simp [patternFor, infoPattern_selects_iff, encode]
  | findName => exact (findNamePattern_selects_iff _).2 rfl

/-- A pair selects the frames of its commands, and no others. -/
theorem selects_iff_encode {p : Pattern} (hp : p ∈ patterns) (f : Frame) :
    p.selects f = true ↔ ∃ i, patternFor i = p ∧ encode i = f := by
  refine ⟨fun h => ?_, fun ⟨i, hi, hf⟩ => hi ▸ hf ▸ patternFor_selects_encode i⟩
  simp only [patterns, List.mem_cons, List.not_mem_nil, or_false] at hp
  obtain rfl | rfl | rfl | rfl | rfl | rfl | rfl := hp
  · exact ⟨_, rfl, (nopPattern_selects_iff f).1 h⟩
  · exact ⟨_, rfl, (decResetPattern_selects_iff f).1 h⟩
  · exact ⟨_, rfl, (decSamplePattern_selects_iff f).1 h⟩
  · exact ⟨_, rfl, (encLoadPattern_selects_iff f).1 h⟩
  · exact ⟨_, rfl, (encStepPattern_selects_iff f).1 h⟩
  · exact ⟨_, rfl, (infoPattern_selects_iff f).1 h⟩
  · exact ⟨_, rfl, (findNamePattern_selects_iff f).1 h⟩

/-- The frame of a command is selected by its own pair, and by no other. -/
theorem selects_encode (i : Instr) : ∀ p ∈ patterns, p.selects (encode i) = decide (p = patternFor i) := by
  intro p hp
  rw [Bool.eq_iff_iff, decide_eq_true_iff]
  refine ⟨fun h => ?_, fun h => h ▸ patternFor_selects_encode i⟩
  obtain ⟨j, rfl, hj⟩ := (selects_iff_encode hp _).1 h
  refine patterns_eq_of_op _ hp _ (patternFor_mem i) ?_
  rw [patternFor_value_op, patternFor_value_op, ← op_encode j, hj, op_encode]

theorem opcode_of_infoPattern {i : Instr} (h : patternFor i = infoPattern) : i.opcode = 0x05#8 := by
  rw [← patternFor_value_op, h]
  exact patternOf_value_op ..

/-- The one condition that the pairs cannot express is on the selector of `INFO` (R72, R73). -/
theorem wf_iff (i : Instr) : i.wf = true ↔ (patternFor i = infoPattern → (encode i).sel.toNat ≤ 4) := by
  cases i with
  | info pid sel => simp [Instr.wf, patternFor, encode, maxSelector, BitVec.le_def]
  | nop | decReset | decSample | encLoad | encStep | findName =>
    refine iff_of_true rfl fun h => ?_
    have hop := opcode_of_infoPattern h
    simp [Instr.opcode] at hop

/-! ## Dispatch of a frame (R73, R74) -/

/-- Each branch of the decoder but the command's own is closed by its pair. -/
theorem decode_encode {i : Instr} (h : i.wf = true) : decode (encode i) = .ok i := by
  have hsel := selects_encode i
  simp only [patterns, List.forall_mem_cons] at hsel
  obtain ⟨hnop, hreset, hsample, hload, hstep, hinfo, hfind, -⟩ := hsel
  rw [decode, hnop, hreset, hsample, hload, hstep, hinfo, hfind]
  cases i with
  | nop | decReset | encStep | findName => rfl
  | decSample level duration =>
    change Except.ok (Instr.decSample (encode (.decSample level duration)).flag duration) = _
    rw [encode, Frame.flag_packed]
  | encLoad protocol address command rep =>
    change Except.ok (Instr.encLoad (encode (.encLoad protocol address command rep)).pid address command
      (encode (.encLoad protocol address command rep)).flag) = _
    rw [encode, Frame.pid_packed, Frame.flag_packed]
  | info pid sel =>
    change (if (encode (.info pid sel)).sel ≤ maxSelector then Except.ok (Instr.info _ _) else _) = _
    rw [encode, Frame.sel_packed, Frame.pid_packed, if_pos (of_decide_eq_true h)]

/-- A decoded command is the one whose frame was given. -/
theorem encode_of_decode {f : Frame} {i : Instr} (h : decode f = .ok i) : i.wf = true ∧ encode i = f := by
  unfold decode at h
  split_ifs at h <;> cases h
  · exact ⟨rfl, (nopPattern_selects_iff f).1 ‹_›⟩
  · exact ⟨rfl, (decResetPattern_selects_iff f).1 ‹_›⟩
  · exact ⟨rfl, (decSamplePattern_selects_iff f).1 ‹_›⟩
  · exact ⟨rfl, (encLoadPattern_selects_iff f).1 ‹_›⟩
  · exact ⟨rfl, (encStepPattern_selects_iff f).1 ‹_›⟩
  · exact ⟨decide_eq_true ‹_›, (infoPattern_selects_iff f).1 ‹_›⟩
  · exact ⟨rfl, (findNamePattern_selects_iff f).1 ‹_›⟩

theorem takeFrame_decoded {f : Frame} {i : Instr} (h : decode f = .ok i) (s : State) : takeFrame f s = exec i s := by
  rw [takeFrame, h]

theorem takeFrame_illegal {f : Frame} (h : ∀ i, decode f ≠ .ok i) (s : State) : takeFrame f s = illegalFrame s := by
  cases hd : decode f with
  | ok i => exact absurd hd (h i)
  | error e => rw [takeFrame, hd]

theorem illegalFrame_serving {s : State} (h : s.serving = true) :
    illegalFrame s = .next (s.respond { status := .errIllegal }) := by
  rw [illegalFrame, dispatch_serving _ h]

/-- A block that has faulted does not look at the frame it is given (R73 (1)). -/
theorem takeFrame_faulted {s : State} (hr : romOk s.rom = true) (hf : s.fault = true) (f : Frame) :
    takeFrame f s = .next (s.respond (faultResponse s.faultCause)) := by
  by_cases h : ∃ i, decode f = .ok i
  · obtain ⟨i, hi⟩ := h
    rw [takeFrame_decoded hi, exec_faulted hr hf]
  · rw [takeFrame_illegal (not_exists.1 h), illegalFrame, dispatch_faulted _ hr hf]

theorem exec_info_badSelector {sel : Byte} (h : 4 < sel.toNat) (pid : Pid) (s : State) :
    exec (.info pid sel) s = illegalFrame s := by
  have hsel : maxSelector < sel := BitVec.lt_def.2 h
  rw [exec, execInfo, if_pos hsel]

/-! ## Responses (R75, R76) -/

/-- Where the fields of `R0` lie (R75). -/
theorem packR0_fields (cause pid : Byte) (rep level : Bool) (status : Byte) :
    (packR0 cause pid rep level status).extractLsb' 0 8 = status
      ∧ (packR0 cause pid rep level status).getLsbD 8 = level ∧ (packR0 cause pid rep level status).getLsbD 9 = rep
      ∧ (packR0 cause pid rep level status).extractLsb' 10 6 = 0#6
      ∧ (packR0 cause pid rep level status).extractLsb' 16 8 = pid
      ∧ (packR0 cause pid rep level status).extractLsb' 24 8 = cause := by
  unfold packR0
  refine ⟨BitVec.extractLsb'_append_eq_right, ?_, ?_, ?_, ?_, ?_⟩
  · simp only [BitVec.getLsbD_append]
    simp
  · simp only [BitVec.getLsbD_append]
    simp
  all_goals
    simp (disch := omega) only [BitVec.extractLsb'_append_eq_of_le, BitVec.extractLsb'_append_eq_of_add_le]
    exact BitVec.extractLsb'_eq_self

/-- The codes of R76. -/
theorem Status.code_mem (status : Status) : status.code ∈ [0x00#8, 0x01#8, 0x02#8, 0x80#8, 0x81#8, 0xFF#8] := by
  cases status <;> decide

/-- Each way a command's rule can end in a next state presents a response. -/
theorem Served.responds {s t : State} {i : Instr} (h : Served s i t) : ∃ a : Response, t.response = some a.frame := by
  cases h <;> exact ⟨_, rfl⟩

theorem exec_responds {i : Instr} {s t : State} (h : exec i s = .next t) : ∃ a : Response, t.response = some a.frame := by
  obtain ⟨-, -, rfl⟩ | ⟨-, hv⟩ := exec_next h
  · exact ⟨_, rfl⟩
  · exact hv.responds

theorem Response.frame_status (status : Status) : ({ status := status } : Response).frame
    = { w0 := 0x00FF00#24 ++ status.code, w1 := 0#32, w2 := 0#32, w3 := 0#32 } := by
  cases status <;> rfl

end Sys2Proof.Machine

namespace Sys2Proof.Proofs

open Sys2Proof Sys2Proof.Machine

/-- Settles O1, by the one pair that selects a command's frame. -/
theorem decodeInvertsEncode : Obligations.DecodeInvertsEncode :=
  fun _ => decode_encode

/-- Settles O2: the pair of the branch taken fixes every bit that is not an operand. -/
theorem encodeInvertsDecode : Obligations.EncodeInvertsDecode :=
  fun _ _ => encode_of_decode

/-- Settles O3: a selected frame is some command's, and is legal when that command is well-formed. -/
theorem legalFramesAreTheSelectedOnes : Obligations.LegalFramesAreTheSelectedOnes := by
  intro f
  constructor
  · rintro ⟨i, hi⟩
    obtain ⟨hwf, rfl⟩ := encode_of_decode hi
    exact ⟨patternFor i, patternFor_mem i, patternFor_selects_encode i, (wf_iff i).1 hwf⟩
  · rintro ⟨p, hp, hsel, hinfo⟩
    obtain ⟨i, rfl, rfl⟩ := (selects_iff_encode hp f).1 hsel
    exact ⟨i, decode_encode ((wf_iff i).2 hinfo)⟩

/-- Settles O7: an illegal frame, and an illegal selector, take the dispatch of an illegal frame. -/
theorem illegalFramesChangeNothing : Obligations.IllegalFramesChangeNothing := by
  refine fun s hs => ⟨fun f rest hp hf => ?_, fun pid sel hsel => ?_⟩
  · rw [step_command hp, takeFrame_illegal hf]
    exact illegalFrame_serving hs
  · rw [exec_info_badSelector hsel, illegalFrame_serving hs]

/-- Settles O9, from the fields of the response that every answer presents. -/
theorem everyCommandIsAnswered : Obligations.EveryCommandIsAnswered := by
  intro i s t hx
  obtain ⟨a, ha⟩ := exec_responds hx
  obtain ⟨hstatus, -, -, hzero, -, -⟩ := packR0_fields a.cause a.pid a.rep a.level a.status.code
  exact ⟨a.frame, ha, hzero, hstatus.symm ▸ a.status.code_mem⟩

/-- Settles O10: dispatch answers with the fault response before it looks at the command or the frame. -/
theorem faultedBlockOnlyReportsItsFault : Obligations.FaultedBlockOnlyReportsItsFault := by
  refine fun s hr hf => ⟨exec_faulted hr hf, fun f rest hp => ?_⟩
  exact (step_command hp).trans (takeFrame_faulted (s := { s with port := rest }) hr hf f)

/-- Settles O4, by running the decoder on each worked encoding. -/
theorem workedEncodingsDecode : Obligations.WorkedEncodingsDecode := by
  refine ⟨?_, ?_, ?_, ?_, ?_, ?_, ?_, ?_, ?_, ?_⟩ <;> decide

/-- Settles O5, from the places of the fields in `R0`. -/
theorem responseFieldsLieAsStated : Obligations.ResponseFieldsLieAsStated := by
  refine ⟨fun r => ?_, ⟨rfl, rfl, rfl, rfl, rfl, rfl⟩, Response.frame_status⟩
  obtain ⟨hstatus, hlevel, hrep, hzero, hpid, hcause⟩ := packR0_fields r.cause r.pid r.rep r.level r.status.code
  exact ⟨hstatus, hlevel, hrep, hzero, hpid, hcause, rfl, rfl, rfl⟩

/-- Settles O6: the step takes the frame off the port and the decoder names the command. -/
theorem stepRunsTheDecodedCommand : Obligations.StepRunsTheDecodedCommand :=
  fun _ _ _ _ hp hd => (step_command hp).trans (takeFrame_decoded hd _)

end Sys2Proof.Proofs
end

section
/-! PROOFS. The rules of 40_matchers_and_codecs.md: the matchers and the windows that cannot overlap (R90 to R93), the buffer
and the accumulator (R94 to R97), and each demodulator by what one turn of its loop does (R100 to R104). -/

namespace Sys2Proof.Machine

/-! ## Matchers (R90 to R93) -/

theorem matchAbs_iff_abs (x nominal tol : Nat) : matchAbs x nominal tol = true ↔ |(x : Int) - nominal| < tol := by
  rw [matchAbs_iff, ← absDiff_cast]
  omega

theorem matchRel_iff_abs (x nominal tolPm : Nat) :
    matchRel x nominal tolPm = true ↔ |(x : Int) - nominal| * 1000 < nominal * tolPm := by
  rw [matchRel_iff, ← absDiff_cast]
  norm_cast

theorem matchUnits_iff_abs (x n : Nat) (r : RomRow) :
    matchUnits x n r = true ↔ |(x : Int) - n * r.bitUnit.toNat| < r.bitTol.toNat := by
  rw [matchUnits, matchAbs_iff_abs, Nat.cast_mul]

theorem matchRepElem_rel {e : RepElem} (h : e.kind = .rel) (r : RomRow) (x : Duration) :
    matchRepElem r x e = matchPreamble r x e.nominal := by
  simp only [matchRepElem, h]

theorem matchRepElem_abs {e : RepElem} (h : e.kind = .abs) (r : RomRow) (x : Duration) :
    matchRepElem r x e = matchBit r x e.nominal := by
  simp only [matchRepElem, h]

/-- Two nominals that match one input are closer than two tolerances: what R45 (b) and (c) rule out. -/
theorem absDiff_lt_of_matchAbs {x a b tol : Nat} (ha : matchAbs x a tol = true) (hb : matchAbs x b tol = true) :
    absDiff a b < 2 * tol := by
  rw [matchAbs_iff, absDiff] at ha hb
  rw [absDiff]
  split_ifs at * <;> omega

/-- Different numbers of units are at least one unit apart. -/
theorem le_absDiff_mul {m n : Nat} (h : m ≠ n) (u : Nat) : u ≤ absDiff (m * u) (n * u) := by
  wlog hlt : m < n generalizing m n
  · have := this h.symm (by omega)
    unfold absDiff at this ⊢
    split_ifs at * <;> omega
  · have : (m + 1) * u ≤ n * u := Nat.mul_le_mul_right u hlt
    rw [Nat.succ_mul] at this
    unfold absDiff
    split_ifs <;> omega

/-- At most one number of units matches an input (R45 (c), R93). -/
theorem matchUnits_unique {r : RomRow} (hr : rowOk r = true) (hc : r.codec = .manchester) {x m n : Nat}
    (hm : matchUnits x m r = true) (hn : matchUnits x n r = true) : m = n := by
  by_contra hne
  obtain ⟨-, htol, -⟩ := rowOk_manchester hr hc
  have hlt := absDiff_lt_of_matchAbs hm hn
  have hle := le_absDiff_mul hne r.bitUnit.toNat
  omega

/-! ## The buffer in the slots of R12 -/

/-- `Append` writes the slot at `timings_cnt`; the slots above it stay 0 (R96, D32). -/
theorem slot_append (c : DecCtx) (d : Duration) (i : Nat) :
    DecCtx.slot { c with timings := c.timings ++ [d] } i = if i = c.timingsCnt then d else c.slot i := by
  simp only [DecCtx.slot, DecCtx.timingsCnt, List.getD_eq_getElem?_getD, List.getElem?_append]
  obtain hlt | rfl | hgt := Nat.lt_trichotomy i c.timings.length
  · rw [if_pos hlt, if_neg (by omega)]
  · simp
  · rw [if_neg (by omega), if_neg (by omega), List.getElem?_eq_none (by simp; omega), List.getElem?_eq_none (by omega)]

/-! ## One turn of either demodulator (R100) -/

/-- One turn of the demodulator of the row's codec (R100). -/
def codecTurn (r : RomRow) (c : DecCtx) : Turn CodecStatus :=
  match r.codec with
  | .pdwm => pdwmTurn r c
  | .manchester => manchesterTurn r c

theorem codecTurn_pdwm {r : RomRow} (h : r.codec = .pdwm) (c : DecCtx) : codecTurn r c = pdwmTurn r c := by
  simp only [codecTurn, h]

theorem codecTurn_manchester {r : RomRow} (h : r.codec = .manchester) (c : DecCtx) : codecTurn r c = manchesterTurn r c := by
  simp only [codecTurn, h]

theorem decodeBits_eq_iterate (r : RomRow) (c : DecCtx) :
    decodeBits r c = iterate (codecTurn r) .ok (c.timingsCnt + 1) c := by
  cases h : r.codec with
  | pdwm => simp only [decodeBits, decodePdwm, h, funext (codecTurn_pdwm h)]
  | manchester => simp only [decodeBits, decodeManchester, h, funext (codecTurn_manchester h)]

theorem codecTurn_shorter {r : RomRow} {c c' : DecCtx} (h : codecTurn r c = .again c') :
    c'.timings.length < c.timings.length := by
  cases hc : r.codec with
  | pdwm => exact pdwmTurn_shorter (codecTurn_pdwm hc c ▸ h)
  | manchester => exact manchesterTurn_shorter (codecTurn_manchester hc c ▸ h)

/-- A turn that ends in an error changes nothing (R100). -/
theorem codecTurn_error {r : RomRow} {c c' : DecCtx} (h : codecTurn r c = .stop .error c') : c' = c := by
  cases hc : r.codec with
  | pdwm =>
    rw [codecTurn_pdwm hc] at h
    obtain ⟨hs, -⟩ | ⟨-, heq⟩ | ⟨hs, -⟩ := pdwmTurn_stop h
    · cases hs
    · exact heq
    · cases hs
  | manchester =>
    rw [codecTurn_manchester hc] at h
    obtain ⟨hs, -⟩ | ⟨-, heq⟩ | ⟨hs, -⟩ := manchesterTurn_stop h
    · cases hs
    · exact heq
    · cases hs

theorem decodeBits_stop {r : RomRow} {c c' : DecCtx} {st : CodecStatus} (h : codecTurn r c = .stop st c') :
    decodeBits r c = (st, c') := by
  simp only [decodeBits_eq_iterate, iterate, h]

theorem decodeBits_again {r : RomRow} {c c' : DecCtx} (h : codecTurn r c = .again c') : decodeBits r c = decodeBits r c' := by
  simp only [decodeBits_eq_iterate, iterate, h]
  exact iterate_stable (fun b => b.timings.length) (fun _ _ => codecTurn_shorter) _ _ c' (Nat.lt_succ_self _)
    (codecTurn_shorter h)

/-- An error comes from the turn in the context it leaves. -/
theorem codecTurn_of_decodeBits_error {r : RomRow} {c c' : DecCtx} (h : decodeBits r c = (.error, c')) :
    codecTurn r c' = .stop .error c' := by
  rw [decodeBits_eq_iterate] at h
  have hlast := iterate_spec (dflt := CodecStatus.ok) (P := fun _ => True)
    (Q := fun st b => st = .error → codecTurn r b = .stop .error b) (measure := fun b => b.timings.length)
    (fun _ _ _ ht => ⟨trivial, codecTurn_shorter ht⟩)
    (fun b st b' _ (ht : codecTurn r b = .stop st b') hst => by
      subst hst
      rwa [← codecTurn_error ht] at ht)
    _ c trivial (Nat.lt_succ_self _)
  rw [DecCtx.timingsCnt] at h
  rw [h] at hlast
  exact hlast rfl

/-! ## The turns of the PDWM demodulator (R101) -/

/-- The pair `t0`, `t1` matches the pair of bit `b` (R101). -/
def PairOf (r : RomRow) (b : Bool) (t0 t1 : Duration) : Prop :=
  matchBit r t0 (if b then r.bit1Mark else r.bit0Mark) = true ∧ matchBit r t1 (if b then r.bit1Space else r.bit0Space) = true

/-- The two pairs of a well-formed row cannot both match (R45 (b)). -/
theorem PairOf.not_both {r : RomRow} (hr : rowOk r = true) (hc : r.codec = .pdwm) {t0 t1 : Duration}
    (h1 : PairOf r true t0 t1) (h0 : PairOf r false t0 t1) : False := by
  obtain ⟨hm1, hs1⟩ := h1
  obtain ⟨hm0, hs0⟩ := h0
  have hmark := absDiff_lt_of_matchAbs hm1 hm0
  have hspace := absDiff_lt_of_matchAbs hs1 hs0
  obtain ⟨-, -, -, -, hm | hs⟩ := rowOk_pdwm hr hc
  · exact absurd hmark (Nat.not_lt.2 hm)
  · exact absurd hspace (Nat.not_lt.2 hs)

/-- On a well-formed row the order in which the pairs are tried is not observable. -/
theorem pdwmBit_of_pair {r : RomRow} (hr : rowOk r = true) (hc : r.codec = .pdwm) {b : Bool} {t0 t1 : Duration}
    (h : PairOf r b t0 t1) : pdwmBit r t0 t1 = some b := by
  unfold pdwmBit
  simp only [Bool.and_eq_true]
  cases b with
  | true => exact if_pos h
  | false => exact (if_neg fun h1 => PairOf.not_both hr hc h1 h).trans (if_pos h)

theorem pdwmBit_of_no_pair {r : RomRow} {t0 t1 : Duration} (h : ∀ b, ¬ PairOf r b t0 t1) : pdwmBit r t0 t1 = none := by
  unfold pdwmBit
  simp only [Bool.and_eq_true]
  exact (if_neg (h true)).trans (if_neg (h false))

section
variable {r : RomRow} {c : DecCtx} {t0 t1 : Duration} {rest : List Duration}

theorem pdwmTurn_waits (hn : c.databitCnt < r.databitLen) (ht : c.timingsCnt < 2) : pdwmTurn r c = .stop .ok c := by
  unfold pdwmTurn
  rw [if_neg (by omega)]
  match hts : c.timings with
  | [] | [_] => rfl
  | _ :: _ :: _ => simp [DecCtx.timingsCnt, hts] at ht

theorem pdwmTurn_bit (hn : c.databitCnt < r.databitLen) (ht : c.timings = t0 :: t1 :: rest) (hl : c.level 0 = true) {b : Bool}
    (hb : pdwmBit r t0 t1 = some b) : pdwmTurn r c = .again ((c.accumulate b).consume 2) := by
  simp [pdwmTurn, Nat.ne_of_lt hn, ht, hl, hb]

theorem pdwmTurn_noBit (hn : c.databitCnt < r.databitLen) (ht : c.timings = t0 :: t1 :: rest)
    (h : c.level 0 = false ∨ pdwmBit r t0 t1 = none) : pdwmTurn r c = .stop .error c := by
  obtain hl | hb := h
  · simp [pdwmTurn, Nat.ne_of_lt hn, ht, hl]
  · simp [pdwmTurn, Nat.ne_of_lt hn, ht, hb]

theorem pdwmTurn_complete_nil (hn : c.databitCnt = r.databitLen) (ht : c.timings = []) : pdwmTurn r c = .stop .ok c := by
  simp [pdwmTurn, hn, ht]

theorem pdwmTurn_complete_cons (hn : c.databitCnt = r.databitLen) (ht : c.timings = t0 :: rest) :
    pdwmTurn r c = if c.level 0 = true ∧ matchBit r t0 r.bit1Mark = true then .stop .ready (c.consume 1) else .stop .error c := by
  simp [pdwmTurn, hn, ht]

end

/-! ## The turns of the Manchester demodulator (R104) -/

section
variable {r : RomRow} {c : DecCtx} {x : Duration} {rest : List Duration}

theorem manchesterTurn_nil (ht : c.timings = []) : manchesterTurn r c = .stop .ok c := by
  simp [manchesterTurn, ht]

theorem manchesterTurn_boundary (ht : c.timings = x :: rest) (hs : c.switchDetect = false) :
    manchesterTurn r c = if matchUnits x.toNat (halfWidth r c.databitCnt) r = true then manchesterFirstHalf r (c.level 0) c
      else .stop .error c := by
  simp [manchesterTurn, ht, hs]

/-- In the middle of bit `databit_cnt - 1`: its closing half alone. -/
theorem manchesterTurn_closing (ht : c.timings = x :: rest) (hs : c.switchDetect = true)
    (hx : matchUnits x.toNat (halfWidth r (c.databitCnt - 1)) r = true) : manchesterTurn r c = manchesterSecondHalf r c := by
  simp [manchesterTurn, ht, hs, hx]

/-- In the middle of bit `databit_cnt - 1`, when the closing half alone does not match: it joined with the next first half. -/
theorem manchesterTurn_joined (ht : c.timings = x :: rest) (hs : c.switchDetect = true) (hpos : 0 < c.databitCnt)
    (hx : matchUnits x.toNat (halfWidth r (c.databitCnt - 1)) r = false) :
    manchesterTurn r c = if c.databitCnt < r.databitLen
        ∧ matchUnits x.toNat (halfWidth r (c.databitCnt - 1) + halfWidth r c.databitCnt) r = true
      then manchesterFirstHalf r (c.level 0) c else .stop .error c := by
  simp [manchesterTurn, ht, hs, hx, Nat.sub_add_cancel hpos]

/-- Every half is at least a unit wide, so the joined width is another number of units than the closing half (R102). -/
theorem matchUnits_closing_of_joined (hr : rowOk r = true) (hc : r.codec = .manchester) {i j : Nat}
    (h : matchUnits x.toNat (halfWidth r i + halfWidth r j) r = true) : matchUnits x.toNat (halfWidth r i) r = false := by
  by_contra hclosing
  have heq := matchUnits_unique hr hc h (by simpa using hclosing)
  have hpos : 0 < halfWidth r j := by unfold halfWidth; split <;> omega
  omega

theorem afterFirstHalf_eq (ht : c.timings = x :: rest) :
    afterFirstHalf r (c.level 0) c = { c with
      timings := rest, data := (c.accumulate (c.level 0 ^^ r.manInv)).data, databitCnt := c.databitCnt + 1,
      switchDetect := true } := by
  simp [afterFirstHalf, DecCtx.consume, DecCtx.accumulate, DecCtx.setSwitch, manchesterBit, ht]

theorem afterSecondHalf_eq (ht : c.timings = x :: rest) :
    afterSecondHalf c = { c with timings := rest, switchDetect := false } := by
  simp [afterSecondHalf, DecCtx.consume, DecCtx.setSwitch, ht]

/-- A turn that takes the first half of a bit goes on, unless the bit is the last and its first half a Mark (R104). -/
theorem decodeBits_firstHalf (hc : r.codec = .manchester) (h : manchesterTurn r c = manchesterFirstHalf r (c.level 0) c) :
    decodeBits r c = if c.databitCnt + 1 = r.databitLen ∧ c.level 0 = true then (.ready, afterFirstHalf r (c.level 0) c)
      else decodeBits r (afterFirstHalf r (c.level 0) c) := by
  rw [← codecTurn_manchester hc] at h
  by_cases hlast : c.databitCnt + 1 = r.databitLen ∧ c.level 0 = true
  · rw [if_pos hlast]
    exact decodeBits_stop (h.trans (if_pos hlast))
  · rw [if_neg hlast]
    exact decodeBits_again (h.trans (if_neg hlast))

/-- A turn that takes a closing half goes on, unless the bit is the last (R104). -/
theorem decodeBits_secondHalf (hc : r.codec = .manchester) (h : manchesterTurn r c = manchesterSecondHalf r c) :
    decodeBits r c = if c.databitCnt = r.databitLen then (.ready, afterSecondHalf c)
      else decodeBits r (afterSecondHalf c) := by
  rw [← codecTurn_manchester hc] at h
  by_cases hlast : c.databitCnt = r.databitLen
  · rw [if_pos hlast]
    exact decodeBits_stop (h.trans (if_pos hlast))
  · rw [if_neg hlast]
    exact decodeBits_again (h.trans (if_neg hlast))

end

end Sys2Proof.Machine

namespace Sys2Proof.Proofs

open Sys2Proof Sys2Proof.Machine

/-- Settles O26: each matcher is one of the two inequalities, and the windows of different widths do not meet. -/
theorem matchersAreStrict : Obligations.MatchersAreStrict := by
  intro x nominal
  refine ⟨matchRel_iff_abs _ _, matchAbs_iff_abs _ _, fun r => ⟨matchAbs_iff_abs _ _ _, matchRel_iff_abs _ _ _, fun e => ⟨?_, ?_⟩,
    fun n => matchUnits_iff_abs _ n r, fun hr hc m n => matchUnits_unique hr hc, fun i => rfl⟩⟩
  · intro hk
    rw [matchRepElem_rel hk]
    exact matchRel_iff_abs _ _ _
  · intro hk
    rw [matchRepElem_abs hk]
    exact matchAbs_iff_abs _ _ _

/-- Settles O27: each case is one turn of the loop, by the bits still to come and the pair that waits. -/
theorem pdwmDemodulator : Obligations.PdwmDemodulator := by
  intro r c hr hc
  refine ⟨fun hn ht => ?_, fun hn t0 t1 rest ht => ⟨fun b hl hmark hspace => ?_, fun h => ?_⟩, fun hn ht => ?_, fun hn t0 rest ht => ?_⟩
  · exact decodeBits_stop ((codecTurn_pdwm hc c).trans (pdwmTurn_waits hn ht))
  · have hb := pdwmBit_of_pair hr hc ⟨hmark, hspace⟩
    rw [decodeBits_again ((codecTurn_pdwm hc c).trans (pdwmTurn_bit hn ht hl hb))]
    simp [DecCtx.consume, DecCtx.accumulate, ht]
  · exact decodeBits_stop ((codecTurn_pdwm hc c).trans (pdwmTurn_noBit hn ht (h.imp_right pdwmBit_of_no_pair)))
  · exact decodeBits_stop ((codecTurn_pdwm hc c).trans (pdwmTurn_complete_nil hn ht))
  · have hturn := (codecTurn_pdwm hc c).trans (pdwmTurn_complete_cons hn ht)
    split_ifs with hstop
    · rw [decodeBits_stop (hturn.trans (if_pos hstop)), DecCtx.consume, ht]
      rfl
    · exact decodeBits_stop (hturn.trans (if_neg hstop))

/-- Settles O28: each width at each position picks one branch of the turn, the closing half and the joined width by R93. -/
theorem manchesterDemodulator : Obligations.ManchesterDemodulator := by
  intro r c hr hc
  refine ⟨fun ht => decodeBits_stop ((codecTurn_manchester hc c).trans (manchesterTurn_nil ht)), ?_⟩
  rintro x rest first closing ht rfl rfl
  refine ⟨fun h => ?_, fun ⟨hs, hx⟩ => ?_, fun ⟨hs, hx⟩ => ?_, fun ⟨hs, hpos, hx, hjoined⟩ => ?_⟩
  · rw [← afterFirstHalf_eq ht]
    refine decodeBits_firstHalf hc ?_
    obtain ⟨hs, hx⟩ | ⟨hs, hlt, hx, hpos⟩ := h
    · rw [manchesterTurn_boundary ht hs, if_pos hx]
    · rw [manchesterTurn_joined ht hs hpos (matchUnits_closing_of_joined hr hc hx), if_pos ⟨hlt, hx⟩]
  · rw [← afterSecondHalf_eq ht]
    exact decodeBits_secondHalf hc (manchesterTurn_closing ht hs hx)
  · refine decodeBits_stop ((codecTurn_manchester hc c).trans ?_)
    rw [manchesterTurn_boundary ht hs, if_neg (by simp [hx])]
  · refine decodeBits_stop ((codecTurn_manchester hc c).trans ?_)
    rw [manchesterTurn_joined ht hs hpos hx, if_neg fun ⟨hlt, hj⟩ => by simp [hjoined hlt] at hj]

/-- Settles O29, slot by slot and bit by bit. -/
theorem bufferAndAccumulatorPrimitives : Obligations.BufferAndAccumulatorPrimitives := by
  intro c n d b hc hn
  refine ⟨⟨consume_timingsCnt c n, fun i hi => ?_, fun i hi => ?_, rfl⟩, fun hfull => ?_, fun hroom => ?_,
    fun i => writeBit_testBit _ _ _ _, rfl⟩
  · rw [consume_slot]
    split
    · rfl
    · exact slot_of_timingsCnt_le c _ (by omega)
  · rw [consume_level c n i (by omega), Nat.add_comm]
  · exact (append_error_iff c d _).2 ⟨hfull.ge, rfl⟩
  · exact ⟨_, (append_ok_iff c _ d).2 ⟨hroom, rfl⟩, by simp [DecCtx.timingsCnt], fun i _ => slot_append c d i, rfl⟩

/-- Settles O32: the turn that answered the error is the first turn of the second run. -/
theorem errorsConsumeNothing : Obligations.ErrorsConsumeNothing :=
  fun _ _ _ h => decodeBits_stop (codecTurn_of_decodeBits_error h)

end Sys2Proof.Proofs
end

section
/-! PROOFS. The rules of 41_decode_engine.md: what a sample runs the engine on (R120), the preamble window as the first
matching pair on a Mark (R121, R122), `Run` one turn at a time (R123 to R128), repeat codes as a whole (R126, R127, R184), and
how a context that hears a Space and a preamble comes to the first bit of a frame (R129, R258). -/

namespace Sys2Proof.Machine

/-! ## What a sample runs the engine on (R120) -/

theorem sampled_same_level (c : DecCtx) (d : Duration) : c.sampled c.lastLevel d = { c with timings := [d] } := by
  simp [DecCtx.sampled]

theorem sampled_other_level (c : DecCtx) {l : Level} (h : l ≠ c.lastLevel) (d : Duration) :
    c.sampled l d = { c with timings := c.timings ++ [d], lastLevel := l } := by
  simp [DecCtx.sampled, h]

/-- Where the buffer has room, a sample runs the engine on the context with the sample taken in. -/
theorem decodeStep_eq_run {r : RomRow} {pid : Pid} {c : DecCtx} {l : Level} {d : Duration}
    (h : (c.sampled l d).timings.length ≤ 6) : decodeStep r pid c l d = .ok (run r pid (c.sampled l d)) := by
  cases hstep : decodeStep r pid c l d with
  | ok res => rw [(decodeStep_ok hstep).1]
  | error cause =>
    obtain ⟨hl, hfull, -⟩ := (decodeStep_error_iff r pid c l d cause).1 hstep
    rw [sampled_other_level c hl, List.length_append, List.length_singleton] at h
    exact absurd hfull (by simp only [DecCtx.timingsCnt]; omega)

/-! ## The preamble window (R121) -/

/-- Neighbouring timings have opposite levels (R94). -/
theorem level_succ (c : DecCtx) {i : Nat} (h : i + 1 < c.timings.length) : c.level (i + 1) = !c.level i := by
  have hsub : c.timings.length - 1 - i = c.timings.length - 1 - (i + 1) + 1 := by omega
  unfold DecCtx.level DecCtx.timingsCnt
  rw [hsub]
  obtain hk | hk := Nat.mod_two_eq_zero_or_one (c.timings.length - 1 - (i + 1)) <;> simp [Nat.add_mod, hk]

/-- The newest timing has the level of the last sample (R94). -/
theorem level_last (c : DecCtx) {i : Nat} (h : i + 1 = c.timings.length) : c.level i = c.lastLevel := by
  simp [DecCtx.level, DecCtx.timingsCnt, ← h]

/-- Timing `i` is a Mark, and it and its successor match the row's preamble (R121). -/
def PreambleAt (r : RomRow) (c : DecCtx) (i : Nat) : Prop :=
  ∃ m s, c.timings[i]? = some m ∧ c.timings[i + 1]? = some s ∧ c.level i = true
    ∧ matchPreamble r m r.preambleMark = true ∧ matchPreamble r s r.preambleSpace = true

/-- `CheckPreamble` stands before timing `k`: every timing before it is passed over, none of them begins a preamble, and a
pair is compared only from a Mark on. -/
structure ScannedTo (r : RomRow) (c : DecCtx) (k : Nat) : Prop where
  within : k ≤ c.timings.length
  onMark : k < c.timings.length → c.level k = true
  afterSpace : ∀ j, j + 1 = k → c.level j = false
  noPreamble : ∀ i, i < k → ¬ PreambleAt r c i

/-- The first line of `CheckPreamble` passes over nothing, or over a leading Space (R121, D14). -/
theorem alignToMark_scanned (r : RomRow) (c : DecCtx) : ∃ k, alignToMark c = c.consume k ∧ ScannedTo r c k := by
  unfold alignToMark
  split
  · rename_i ht
    exact ⟨0, rfl, Nat.zero_le _, fun h => by simp [ht] at h, nofun, nofun⟩
  · rename_i t rest ht
    split
    · exact ⟨0, rfl, Nat.zero_le _, fun _ => ‹_›, nofun, nofun⟩
    · rename_i hl
      have hspace : c.level 0 = false := by simpa using hl
      refine ⟨1, rfl, by simp [ht], fun h => by rw [level_succ c h, hspace]; rfl, fun j hj => ?_, ?_⟩
      · obtain rfl : j = 0 := by omega
        exact hspace
      · rintro i hi ⟨m, s, -, -, hmark, -⟩
        obtain rfl : i = 0 := by omega
        simp [hspace] at hmark

/-- One turn of `CheckPreamble` on what is left from timing `k` on. -/
theorem preambleTurn_consume {r : RomRow} {c : DecCtx} {k : Nat} (h : ScannedTo r c k) :
    (preambleTurn r (c.consume k) = .stop true (c.consume (k + 2)) ∧ PreambleAt r c k)
    ∨ (preambleTurn r (c.consume k) = .again (c.consume (k + 2)) ∧ ScannedTo r c (k + 2))
    ∨ (preambleTurn r (c.consume k) = .stop false (c.consume k) ∧ c.timings.length ≤ k + 1) := by
  have hconsume : (c.consume k).consume 2 = c.consume (k + 2) := by simp [DecCtx.consume, List.drop_drop]
  unfold preambleTurn
  split
  · rename_i m s rest ht
    rw [DecCtx.consume_timings] at ht
    have hm : c.timings[k]? = some m := by simpa [ht] using (List.getElem?_drop (xs := c.timings) (i := k) (j := 0)).symm
    have hs : c.timings[k + 1]? = some s := by simpa [ht] using (List.getElem?_drop (xs := c.timings) (i := k) (j := 1)).symm
    have hlen : k + 1 < c.timings.length := (List.getElem?_eq_some_iff.1 hs).1
    have hmark := h.onMark (by omega)
    have hspace : c.level (k + 1) = false := by rw [level_succ c hlen, hmark]; rfl
    rw [hconsume]
    split
    · rename_i hmatch
      rw [Bool.and_eq_true] at hmatch
      exact .inl ⟨rfl, m, s, hm, hs, hmark, hmatch⟩
    · rename_i hmatch
      refine .inr (.inl ⟨rfl, hlen, fun hlt => by rw [level_succ c hlt, hspace]; rfl, fun j hj => ?_, fun i hi => ?_⟩)
      · obtain rfl : j = k + 1 := by omega
        exact hspace
      · obtain hlt | rfl | rfl : i < k ∨ i = k ∨ i = k + 1 := by omega
        · exact h.noPreamble i hlt
        · rintro ⟨m', s', hm', hs', -, hmatch'⟩
          cases hm.symm.trans hm'
          cases hs.symm.trans hs'
          exact hmatch (by rw [Bool.and_eq_true]; exact hmatch')
        · rintro ⟨_, _, -, -, hl, -⟩
          simp [hspace] at hl
  · rename_i hne
    refine .inr (.inr ⟨rfl, ?_⟩)
    by_contra hlen
    have hdrop : 2 ≤ (c.consume k).timings.length := by simp; omega
    match ht : (c.consume k).timings, hdrop with
    | m :: s :: rest, _ => exact hne m s rest ht

/-- `CheckPreamble` ends after the first preamble of the buffer, or where no pair is left to compare (R121). -/
theorem checkPreamble_scanned (r : RomRow) (c : DecCtx) :
    ∃ k, ScannedTo r c k ∧
      ((checkPreamble r c = (true, c.consume (k + 2)) ∧ PreambleAt r c k)
      ∨ (checkPreamble r c = (false, c.consume k) ∧ c.timings.length ≤ k + 1)) := by
  obtain ⟨k, hk, hscan⟩ := alignToMark_scanned r c
  have hend := iterate_spec (turn := preambleTurn r) (dflt := false)
    (P := fun b => ∃ k, b = c.consume k ∧ ScannedTo r c k)
    (Q := fun found b => ∃ k, ScannedTo r c k ∧
      (((found, b) = (true, c.consume (k + 2)) ∧ PreambleAt r c k)
        ∨ ((found, b) = (false, c.consume k) ∧ c.timings.length ≤ k + 1)))
    (measure := fun b => b.timings.length) ?_ ?_ (c.timingsCnt + 1) (alignToMark c) ⟨k, hk, hscan⟩ ?_
  · exact hend
  · rintro _ b' ⟨k, rfl, hs⟩ ht
    obtain ⟨he, -⟩ | ⟨he, hs'⟩ | ⟨he, -⟩ := preambleTurn_consume hs <;> rw [he] at ht <;> cases ht
    refine ⟨⟨k + 2, rfl, hs'⟩, ?_⟩
    have := hs'.within
    simp only [DecCtx.consume_timings, List.length_drop]
    omega
  · rintro _ found b' ⟨k, rfl, hs⟩ ht
    obtain ⟨he, hp⟩ | ⟨he, -⟩ | ⟨he, hp⟩ := preambleTurn_consume hs <;> rw [he] at ht <;> cases ht
    · exact ⟨k, hs, .inl ⟨rfl, hp⟩⟩
    · exact ⟨k, hs, .inr ⟨rfl, hp⟩⟩
  · simp only [hk, DecCtx.consume_timings, List.length_drop, DecCtx.timingsCnt]
    omega

/-- On the first preamble of the buffer, it and everything before it is consumed. -/
theorem checkPreamble_of_first {r : RomRow} {c : DecCtx} {k : Nat} (hk : PreambleAt r c k)
    (hfirst : ∀ i, i < k → ¬ PreambleAt r c i) : checkPreamble r c = (true, c.consume (k + 2)) := by
  obtain ⟨j, hscan, ⟨hc, hj⟩ | ⟨-, hlen⟩⟩ := checkPreamble_scanned r c
  · obtain hlt | rfl | hgt := Nat.lt_trichotomy j k
    · exact absurd hj (hfirst j hlt)
    · exact hc
    · exact absurd hk (hscan.noPreamble k hgt)
  · obtain ⟨m, s, -, hs, -⟩ := id hk
    have := (List.getElem?_eq_some_iff.1 hs).1
    exact absurd hk (hscan.noPreamble k (by omega))

/-- Without a preamble in the buffer, only a newest Mark stays. -/
theorem checkPreamble_of_none {r : RomRow} {c : DecCtx} (h : ∀ i, ¬ PreambleAt r c i) : checkPreamble r c
    = (false, { c with timings := if c.lastLevel then c.timings.drop (c.timings.length - 1) else [] }) := by
  obtain ⟨k, hscan, ⟨-, hk⟩ | ⟨hc, hlen⟩⟩ := checkPreamble_scanned r c
  · exact absurd hk (h k)
  · rw [hc]
    have hwithin := hscan.within
    obtain hk | hk : k = c.timings.length ∨ k + 1 = c.timings.length := by omega
    · cases k with
      | zero =>
        have hnil := List.eq_nil_of_length_eq_zero hk.symm
        simp [DecCtx.consume, hnil]
      | succ j =>
        have hspace : c.lastLevel = false := by rw [← level_last c hk, hscan.afterSpace j rfl]
        simp [DecCtx.consume, hspace, hk]
    · have hmark : c.lastLevel = true := by rw [← level_last c hk, hscan.onMark (by omega)]
      simp [DecCtx.consume, hmark, ← hk]

/-! ## `Run`, one turn at a time (R123 to R128) -/

theorem runMeasure_le {c : DecCtx} (h : c.timings.length ≤ 6) : runMeasure c ≤ 7 := by
  unfold runMeasure
  split <;> omega

section
variable {r : RomRow} {pid : Pid} {c c1 : DecCtx}

theorem run_again (h : c.timings.length ≤ 6) (ht : engineTurn r pid c = .again c1) : run r pid c = run r pid c1 := by
  rw [run_eq h, ht]

theorem run_stop (h : c.timings.length ≤ 6) {m : Option Message} (ht : engineTurn r pid c = .stop m c1) :
    run r pid c = (m, c1) := by
  rw [run_eq h, ht]

theorem engineTurn_wait (hs : c.state = .waitPreamble) : engineTurn r pid c = waitTurn r c := by
  simp only [engineTurn, hs]

theorem engineTurn_decode (hs : c.state = .decode) : engineTurn r pid c = decodeTurn r pid c := by
  simp only [engineTurn, hs]

theorem engineTurn_repeat (hs : c.state = .processRepeat) : engineTurn r pid c = repeatTurn r c := by
  simp only [engineTurn, hs]

/-- A turn that ends the loop keeps the last level. -/
theorem engineTurn_lastLevel {m : Option Message} (h : engineTurn r pid c = .stop m c1) : c1.lastLevel = c.lastLevel := by
  cases hs : c.state with
  | waitPreamble =>
    rw [engineTurn_wait hs] at h
    obtain ⟨n, hw, -⟩ | ⟨n, hw, -⟩ := waitTurn_cases r c <;> rw [hw] at h <;> cases h
    rfl
  | decode =>
    rw [engineTurn_decode hs] at h
    have hsame := (decodeBits_post r c).same.lastLevel
    obtain ⟨hw, -⟩ | ⟨hw, -⟩ | ⟨-, -, hw⟩ | ⟨-, c2, hi, hw⟩ := decodeTurn_cases r pid c <;> rw [hw] at h <;> cases h
    · exact hsame
    · exact hsame
    · rw [(interpret_some hi).1]
      exact hsame
  | processRepeat =>
    rw [engineTurn_repeat hs] at h
    obtain ⟨hw, -⟩ | ⟨hw, -⟩ | ⟨hw, -⟩ := repeatTurn_cases r c <;> rw [hw] at h <;> cases h <;> rfl

/-- A turn that ends the loop without a message writes neither the held message nor the toggle, and does not enter
ProcessRepeat (R125, R140). -/
theorem engineTurn_noMessage (h : engineTurn r pid c = .stop none c1) :
    c1.message = c.message ∧ c1.prevToggle = c.prevToggle ∧ (c1.state = .processRepeat → c.state = .processRepeat) := by
  cases hs : c.state with
  | waitPreamble =>
    rw [engineTurn_wait hs] at h
    obtain ⟨n, hw, -⟩ | ⟨n, hw, -⟩ := waitTurn_cases r c <;> rw [hw] at h <;> cases h
    exact ⟨rfl, rfl, hs.symm.trans⟩
  | decode =>
    rw [engineTurn_decode hs] at h
    obtain ⟨hstate, -, hmsg, htog⟩ := (decodeBits_post r c).same
    obtain ⟨hw, -⟩ | ⟨hw, -⟩ | ⟨-, -, hw⟩ | ⟨-, c2, -, hw⟩ := decodeTurn_cases r pid c <;> rw [hw] at h <;> cases h
    · exact ⟨hmsg, htog, (hs.symm.trans <| hstate.symm.trans ·)⟩
    · exact ⟨hmsg, htog, nofun⟩
  | processRepeat =>
    rw [engineTurn_repeat hs] at h
    obtain ⟨hw, -⟩ | ⟨hw, -⟩ | ⟨hw, -⟩ := repeatTurn_cases r c <;> rw [hw] at h <;> cases h
    exact ⟨rfl, rfl, fun _ => rfl⟩

end

/-- After a sample the last level is the sample's (R120). -/
theorem decodeStep_lastLevel {r : RomRow} {pid : Pid} {c c' : DecCtx} {l : Level} {d : Duration} {m : Option Message}
    (h : decodeStep r pid c l d = .ok (m, c')) : c'.lastLevel = l := by
  obtain ⟨hrun, hlen⟩ := decodeStep_ok h
  obtain ⟨b, hb, ht⟩ := run_passes (pid := pid) hlen
  rw [hrun] at ht
  exact (engineTurn_lastLevel ht).trans hb.post.2.2.1

/-- A sample without a message writes neither the held message nor the toggle, and does not enter ProcessRepeat. -/
theorem decodeStep_noMessage {r : RomRow} {pid : Pid} {c c' : DecCtx} {l : Level} {d : Duration}
    (h : decodeStep r pid c l d = .ok (none, c')) :
    c'.message = c.message ∧ c'.prevToggle = c.prevToggle ∧ (c'.state = .processRepeat → c.state = .processRepeat) := by
  obtain ⟨hrun, hlen⟩ := decodeStep_ok h
  obtain ⟨b, hb, ht⟩ := run_passes (pid := pid) hlen
  rw [hrun] at ht
  obtain ⟨hmsg, htog, hstate⟩ := engineTurn_noMessage ht
  obtain ⟨-, hbmsg, -, hbtog, -⟩ := hb.post
  refine ⟨hmsg.trans hbmsg, htog.trans hbtog, fun hs => ?_⟩
  have hbs := hstate hs
  obtain rfl := hb.eq_of_processRepeat hbs
  exact hbs

/-! ## Durations of alternating level -/

/-- The durations as pulses of alternating level, the first of level `l`. -/
def alternating (l : Level) : List Duration → List Pulse
  | [] => []
  | d :: ds => { duration := d.toNat, level := l } :: alternating (!l) ds

theorem alternating_eq_mapIdx (l : Level) (ds : List Duration) :
    alternating l ds = ds.mapIdx (fun i d => { duration := d.toNat, level := l ^^ decide (i % 2 = 1) }) := by
  induction ds generalizing l with
  | nil => rfl
  | cons d ds ih =>
    rw [alternating, ih, List.mapIdx_cons]
    have hlevel : ∀ i, (!l ^^ decide (i % 2 = 1)) = (l ^^ decide ((i + 1) % 2 = 1)) := fun i => by
      obtain hi | hi := Nat.mod_two_eq_zero_or_one i <;> simp [Nat.add_mod, hi]
    simp [hlevel]

/-- The context with durations of alternating levels taken into its buffer, none of them acted on. -/
def DecCtx.heard (c : DecCtx) (ds : List Duration) : DecCtx :=
  { c with timings := c.timings ++ ds, lastLevel := c.lastLevel ^^ decide (ds.length % 2 = 1) }

theorem heard_cons (c : DecCtx) (d : Duration) (ds : List Duration) : (c.heard [d]).heard ds = c.heard (d :: ds) := by
  obtain hi | hi := Nat.mod_two_eq_zero_or_one ds.length <;> simp [DecCtx.heard, Nat.add_mod, hi]

theorem sampled_alternate (c : DecCtx) (d : Duration) : c.sampled (!c.lastLevel) d = c.heard [d] := by
  rw [sampled_other_level c (by simp)]
  simp [DecCtx.heard]

/-- One sample more is fed first (R183). -/
theorem feed_cons {r : RomRow} {pid : Pid} {c c1 c2 : DecCtx} {l : Level} {d : Duration} {m : Option Message}
    {ms : List Message} {rest : List Pulse} (h : decodeStep r pid c l d = .ok (m, c1))
    (hrest : feed r pid rest c1 = .ok (ms, c2)) :
    feed r pid ({ duration := d.toNat, level := l } :: rest) c = .ok (m.toList ++ ms, c2) := by
  simp [feed, h, hrest]

/-! ## ProcessRepeat and repeat codes (R126, R127, R184) -/

/-- Each element of the pattern with the tolerance of its kind (R126). -/
theorem matchRepElem_iff_abs (r : RomRow) (x : Duration) (e : RepElem) : matchRepElem r x e = true ↔
    (e.kind = .rel → |(x.toNat : Int) - e.nominal.toNat| * 1000 < e.nominal.toNat * r.preambleTolPm)
    ∧ (e.kind = .abs → |(x.toNat : Int) - e.nominal.toNat| < r.bitTol.toNat) := by
  cases hk : e.kind with
  | rel => simpa [matchRepElem_rel hk, matchPreamble] using matchRel_iff_abs _ _ _
  | abs => simpa [matchRepElem_abs hk, matchBit] using matchAbs_iff_abs _ _ _

/-- The pattern matches when the gap lies inside its window and every further slot matches its element (R126). -/
theorem repeatMatches_iff {r : RomRow} {c : DecCtx} (hpos : 0 < r.repLen) (htail : r.repTail.length = r.repLen - 1)
    (hc : r.repLen ≤ c.timingsCnt) : repeatMatches r c = true ↔
      c.level 0 = false ∧ r.repGapMin.toNat < (c.slot 0).toNat ∧ (c.slot 0).toNat < r.repGapMax.toNat
        ∧ ∀ i e, r.repTail[i]? = some e → matchRepElem r (c.slot (i + 1)) e = true := by
  unfold DecCtx.timingsCnt at hc
  obtain ⟨n, hn⟩ : ∃ n, r.repLen = n + 1 := ⟨r.repLen - 1, by omega⟩
  cases ht : c.timings with
  | nil => simp [ht] at hc; omega
  | cons gap rest =>
    have hrest : n ≤ rest.length := by simp [ht] at hc; omega
    have hslot : ∀ i e, r.repTail[i]? = some e → (rest.take n).getD i 0#32 = c.slot (i + 1) := fun i e he => by
      have hi := (List.getElem?_eq_some_iff.1 he).1
      simp [DecCtx.slot, ht, List.getD_eq_getElem?_getD, show i < n by omega]
    have helems := tailMatches_iff r (rest.take n) r.repTail (by simp; omega)
    have hgap : c.slot 0 = gap := by simp [DecCtx.slot, ht]
    simp only [repeatMatches, ht, hn, List.take_succ_cons, Bool.and_eq_true, Bool.not_eq_true', decide_eq_true_eq, helems, hgap,
      and_assoc]
    refine and_congr_right fun _ => and_congr_right fun _ => and_congr_right fun _ => ?_
    exact forall_congr' fun i => forall_congr' fun e => imp_congr_right fun he => by rw [hslot i e he]

section
variable {r : RomRow} {pid : Pid} {c : DecCtx}

theorem decodeRepeat_waits (h : c.timingsCnt < r.repLen) : decodeRepeat r c = (.ok, c) := if_pos h

theorem decodeRepeat_ready (h : r.repLen ≤ c.timingsCnt) (hm : repeatMatches r c = true) :
    decodeRepeat r c = (.ready, c.consume r.repLen) :=
  (if_neg (Nat.not_lt.2 h)).trans (if_pos hm)

theorem decodeRepeat_rejects (h : r.repLen ≤ c.timingsCnt) (hm : ¬ repeatMatches r c = true) : decodeRepeat r c = (.error, c) :=
  (if_neg (Nat.not_lt.2 h)).trans (if_neg hm)

/-- In ProcessRepeat a sample is only buffered while the pattern's length is not reached (R126). -/
theorem run_repeat_waits (hs : c.state = .processRepeat) (hlen : c.timings.length ≤ 6) (h : c.timings.length < r.repLen) :
    run r pid c = (none, c) :=
  run_stop hlen ((engineTurn_repeat hs).trans (by rw [repeatTurn, decodeRepeat_waits h]))

/-- A repeat code re-emits the held message with `repeat = 1` (R127). -/
theorem run_repeat_ready (hs : c.state = .processRepeat) (hlen : c.timings.length ≤ 6) (h : r.repLen ≤ c.timings.length)
    (hm : repeatMatches r c = true) :
    run r pid c = (some { c.message with rep := true }, (c.consume r.repLen).markRepeat) :=
  run_stop hlen ((engineTurn_repeat hs).trans (by rw [repeatTurn, decodeRepeat_ready h hm]; rfl))

end

/-- In ProcessRepeat samples of alternating levels are buffered up to the pattern's length, and then decide (R126). -/
theorem feed_processRepeat {r : RomRow} {pid : Pid} (hrep : r.repLen ≤ 6) : ∀ (ds : List Duration) (c : DecCtx),
    c.state = .processRepeat → ds ≠ [] → c.timings.length + ds.length = r.repLen →
    feed r pid (alternating (!c.lastLevel) ds) c = .ok ((run r pid (c.heard ds)).1.toList, (run r pid (c.heard ds)).2)
  | [], _, _, hne, _ => absurd rfl hne
  | d :: ds, c, hs, _, hlen => by
    rw [List.length_cons] at hlen
    have hstep : decodeStep r pid c (!c.lastLevel) d = .ok (run r pid (c.heard [d])) := by
      rw [← sampled_alternate]
      exact decodeStep_eq_run (by rw [sampled_alternate]; simp [DecCtx.heard]; omega)
    cases ds with
    | nil =>
      have hend : feed r pid [] (run r pid (c.heard [d])).2 = .ok ([], (run r pid (c.heard [d])).2) := rfl
      exact (feed_cons (m := (run r pid (c.heard [d])).1) hstep hend).trans (by rw [List.append_nil])
    | cons d' ds =>
      have hcount : (c.heard [d]).timings.length = c.timings.length + 1 := by simp [DecCtx.heard]
      rw [List.length_cons] at hlen
      rw [run_repeat_waits (c := c.heard [d]) hs (by omega) (by omega)] at hstep
      have ih := feed_processRepeat (pid := pid) hrep (d' :: ds) (c.heard [d]) hs (by simp) (by rw [hcount, List.length_cons]; omega)
      have hlevel : (!(c.heard [d]).lastLevel) = !!c.lastLevel := by simp [DecCtx.heard]
      rw [heard_cons, hlevel] at ih
      exact feed_cons hstep ih

/-- The row's own repeat code, as durations. -/
def repeatDurationsInOrder (r : RomRow) : List Duration := r.repGap :: r.repTail.map RepElem.nominal

theorem repeatTimings_pulses (r : RomRow) : (repeatTimings r).map Timing.pulse = alternating false (repeatDurationsInOrder r) := by
  rw [alternating_eq_mapIdx, repeatDurationsInOrder, List.mapIdx_cons]
  refine congrArg (List.cons _) (List.ext_getElem? fun i => ?_)
  simp [Function.comp_def, Timing.pulse]

theorem matchPreamble_self {r : RomRow} (hr : rowOk r = true) {x : Duration} (hx : 0 < x.toNat) : matchPreamble r x x = true := by
  obtain ⟨-, -, htol, -⟩ := rowOk_timing hr
  rw [matchPreamble, matchRel_iff]
  simpa [absDiff] using Nat.mul_pos hx htol

theorem matchRepElem_self {r : RomRow} (hr : rowOk r = true) {e : RepElem} (he : 0 < e.nominal.toNat) :
    matchRepElem r e.nominal e = true := by
  cases hk : e.kind with
  | rel =>
    rw [matchRepElem_rel hk]
    exact matchPreamble_self hr he
  | abs =>
    obtain ⟨-, -, -, -, htol⟩ := rowOk_timing hr
    rw [matchRepElem_abs hk, matchBit, matchAbs_iff]
    simpa [absDiff] using htol

/-- The elements of the pattern are as many as `rep_len` says, an even number (R45 (d)). -/
theorem repeatDurationsInOrder_length {r : RomRow} (hr : rowOk r = true) (hpos : 0 < r.repLen) :
    (repeatDurationsInOrder r).length = r.repLen ∧ r.repLen % 2 = 0 := by
  have := rowOk_repeat hr
  simp only [repeatDurationsInOrder, List.length_cons, List.length_map]
  omega

section
variable {r : RomRow} {c : DecCtx} (hr : rowOk r = true) (hpos : 0 < r.repLen) (ht : c.timings = []) (hl : c.lastLevel = true)
include hr hpos ht hl

/-- What a context with an empty buffer after a Mark has heard of the row's own repeat code matches. -/
theorem repeatMatches_own : repeatMatches r (c.heard (repeatDurationsInOrder r)) = true := by
  obtain ⟨hcount, heven⟩ := repeatDurationsInOrder_length hr hpos
  obtain h0 | ⟨-, hmin, hmax, htail, hnominal⟩ := rowOk_repeat hr
  · omega
  have hgap : (c.heard (repeatDurationsInOrder r)).slot 0 = r.repGap := by
    simp [DecCtx.slot, DecCtx.heard, ht, repeatDurationsInOrder]
  rw [repeatMatches_iff hpos htail (by simp [DecCtx.heard, DecCtx.timingsCnt, ht, hcount]), hgap]
  refine ⟨?_, hmin, hmax, fun i e he => ?_⟩
  · have hodd : (r.repLen - 1) % 2 = 1 := by omega
    simp [DecCtx.level, DecCtx.timingsCnt, DecCtx.heard, ht, hl, hcount, heven, hodd]
  · have hslot : (c.heard (repeatDurationsInOrder r)).slot (i + 1) = e.nominal := by
      simp [DecCtx.slot, DecCtx.heard, ht, repeatDurationsInOrder, List.getD_eq_getElem?_getD, he]
    rw [hslot]
    exact matchRepElem_self hr (hnominal e (List.mem_of_getElem? he))

/-- In ProcessRepeat the row's own repeat code re-emits the held message once, and the next can follow (R127, R184). -/
theorem feed_own_repeat (pid : Pid) (hs : c.state = .processRepeat) :
    feed r pid (alternating false (repeatDurationsInOrder r)) c = .ok ([{ c.message with rep := true }], c.markRepeat) := by
  obtain ⟨hcount, heven⟩ := repeatDurationsInOrder_length hr hpos
  have hbuffer : (c.heard (repeatDurationsInOrder r)).timings.length = r.repLen := by simp [DecCtx.heard, ht, hcount]
  have hfeed := feed_processRepeat (pid := pid) (rowOk_repLen_le hr) (repeatDurationsInOrder r) c hs
    (List.cons_ne_nil _ _) (by rw [ht, hcount]; exact Nat.zero_add _)
  rw [hl, run_repeat_ready (c := c.heard _) hs (by rw [hbuffer]; exact rowOk_repLen_le hr) hbuffer.ge
    (repeatMatches_own hr hpos ht hl)] at hfeed
  refine hfeed.trans ?_
  simp [DecCtx.consume, DecCtx.markRepeat, DecCtx.heard, ht, hl, hcount, heven]

end

/-! ## Falling back to WaitPreamble (R122, R124, R127) -/

/-- The engine evaluates the pending timings in WaitPreamble: it is there, or it rejects them where it is. -/
def Rejects (r : RomRow) (c : DecCtx) : Prop :=
  c.state = .waitPreamble
    ∨ (c.state = .decode ∧ decodeBits r c = (.error, c))
    ∨ (c.state = .processRepeat ∧ decodeRepeat r c = (.error, c))

section
variable {r : RomRow} {pid : Pid} {c : DecCtx}

theorem run_decode_ok {c1 : DecCtx} (hs : c.state = .decode) (hlen : c.timings.length ≤ 6) (h : decodeBits r c = (.ok, c1)) :
    run r pid c = (none, c1) :=
  run_stop hlen ((engineTurn_decode hs).trans (by rw [decodeTurn, h]))

theorem Rejects.run_eq (h : Rejects r c) (hlen : c.timings.length ≤ 6) : run r pid c = run r pid (c.goTo .waitPreamble) := by
  obtain hs | ⟨hs, he⟩ | ⟨hs, he⟩ := h
  · rw [DecCtx.goTo, ← hs]
  · exact run_again hlen ((engineTurn_decode hs).trans (by rw [decodeTurn, he]))
  · exact run_again hlen ((engineTurn_repeat hs).trans (by rw [repeatTurn, he]))

/-- On the first preamble of the buffer, the engine goes on in Decode with what follows it (R122). -/
theorem Rejects.run_found (h : Rejects r c) (hlen : c.timings.length ≤ 6) {k : Nat} (hk : PreambleAt r c k)
    (hfirst : ∀ i, i < k → ¬ PreambleAt r c i) : run r pid c = run r pid (enterDecode (c.consume (k + 2))) := by
  have hcheck : checkPreamble r (c.goTo .waitPreamble) = (true, (c.goTo .waitPreamble).consume (k + 2)) :=
    checkPreamble_of_first hk hfirst
  rw [h.run_eq hlen]
  exact run_again (c := c.goTo .waitPreamble) hlen ((engineTurn_wait rfl).trans (by rw [waitTurn, hcheck]; rfl))

/-- Without a preamble in the buffer the engine waits, with only a newest Mark pending (R121). -/
theorem Rejects.run_none (h : Rejects r c) (hlen : c.timings.length ≤ 6) (hnone : ∀ i, ¬ PreambleAt r c i) : run r pid c
    = (none, { c with
        state := .waitPreamble, timings := if c.lastLevel then c.timings.drop (c.timings.length - 1) else [] }) := by
  have hcheck := checkPreamble_of_none (c := c.goTo .waitPreamble) hnone
  rw [h.run_eq hlen]
  exact run_stop (c := c.goTo .waitPreamble) hlen ((engineTurn_wait rfl).trans (by rw [waitTurn, hcheck]; rfl))

/-- A preamble is two timings of the buffer. -/
theorem PreambleAt.lt {i : Nat} (h : PreambleAt r c i) : i + 1 < c.timings.length := by
  obtain ⟨m, s, -, hs, -⟩ := h
  exact (List.getElem?_eq_some_iff.1 hs).1

theorem decodeBits_nil (ht : c.timings = []) : decodeBits r c = (.ok, c) := by
  cases hc : r.codec with
  | pdwm => exact decodeBits_stop ((codecTurn_pdwm hc c).trans (by simp [pdwmTurn, ht]))
  | manchester => exact decodeBits_stop ((codecTurn_manchester hc c).trans (manchesterTurn_nil ht))

theorem run_enterDecode_nil (ht : c.timings = []) : run r pid (enterDecode c) = (none, enterDecode c) :=
  run_decode_ok rfl (by simp [ht]) (decodeBits_nil ht)

/-- After a Space with at most one timing before it nothing stays pending: the Space is no preamble's Mark, and a preamble
uses up both. -/
theorem Rejects.run_space (h : Rejects r c) (hlen : c.timings.length ≤ 2) (hl : c.lastLevel = false) :
    ∃ c1, run r pid c = (none, c1) ∧ c1.timings = [] := by
  by_cases h0 : PreambleAt r c 0
  · have hnil : (c.consume 2).timings = [] := List.drop_of_length_le hlen
    exact ⟨_, (h.run_found (by omega) h0 nofun).trans (run_enterDecode_nil hnil), hnil⟩
  · have hnone : ∀ i, ¬ PreambleAt r c i := fun i hi => by
      obtain rfl : i = 0 := by have := hi.lt; omega
      exact h0 hi
    exact ⟨_, h.run_none (by omega) hnone, by simp [hl]⟩

/-- After a Mark with at most one Space before it, the Mark stays alone in WaitPreamble (R121). -/
theorem Rejects.run_mark {before : List Duration} {x : Duration} (h : Rejects r c) (ht : c.timings = before ++ [x])
    (hb : before.length ≤ 1) (hl : c.lastLevel = true) :
    run r pid c = (none, { c with state := .waitPreamble, timings := [x] }) := by
  have hlen : c.timings.length = before.length + 1 := by simp [ht]
  rw [h.run_none (by omega), if_pos hl, hlen, Nat.add_sub_cancel, ht, List.drop_left]
  intro i hi
  have hlt := hi.lt
  obtain ⟨-, -, -, -, hmark, -⟩ := hi
  have hspace := level_succ c hlt
  rw [level_last c (by omega), hl, hmark] at hspace
  cases hspace

/-- The row's own preamble, behind at most one Space, is found, and the engine goes on with what follows it (R121, R122). -/
theorem Rejects.run_own_preamble {before rest : List Duration} (h : Rejects r c) (hr : rowOk r = true)
    (ht : c.timings = before ++ r.preambleMark :: r.preambleSpace :: rest) (hb : before.length ≤ 1)
    (hlen : c.timings.length ≤ 6) (hl : c.level before.length = true) :
    run r pid c = run r pid (enterDecode { c with timings := rest }) := by
  obtain ⟨hmark, hspace, -⟩ := rowOk_timing hr
  have hpre : PreambleAt r c before.length :=
    ⟨_, _, by simp [ht], by simp [ht], hl, matchPreamble_self hr hmark, matchPreamble_self hr hspace⟩
  have hdrop : c.timings.drop (before.length + 2) = rest := by rw [ht, ← List.drop_drop, List.drop_left]; rfl
  rw [h.run_found hlen hpre]
  · rw [DecCtx.consume, hdrop]
  · rintro i hi ⟨-, -, -, -, hlevel, -⟩
    obtain ⟨rfl, hone⟩ : i = 0 ∧ before.length = 1 := by omega
    rw [hone] at hl
    rw [level_succ c (by simp [ht]; omega), hlevel] at hl
    cases hl

/-! ## A PDWM payload under way, and a Manchester bit under way -/

/-- With bits still to come, a single timing waits for its pair (R101). -/
theorem decodeBits_pdwm_waits (hc : r.codec = .pdwm) (hn : c.databitCnt ≠ r.databitLen) (hlen : c.timings.length ≤ 1) :
    decodeBits r c = (.ok, c) := by
  refine decodeBits_stop ((codecTurn_pdwm hc c).trans ?_)
  unfold pdwmTurn
  rw [if_neg hn]
  match ht : c.timings, hlen with
  | [], _ | [_], _ => rfl

/-- With bits still to come, a pair that is no bit's, or that starts on a Space, is an error (R101). -/
theorem decodeBits_pdwm_rejects {t0 t1 : Duration} {rest : List Duration} (hc : r.codec = .pdwm)
    (hn : c.databitCnt ≠ r.databitLen) (ht : c.timings = t0 :: t1 :: rest) (h : c.level 0 = true → pdwmBit r t0 t1 = none) :
    decodeBits r c = (.error, c) := by
  refine decodeBits_stop ((codecTurn_pdwm hc c).trans ?_)
  cases hl : c.level 0 with
  | false => simp [pdwmTurn, hn, ht, hl]
  | true => simp [pdwmTurn, hn, ht, hl, h hl]

/-- A Manchester timing that is alone in the buffer is rejected or consumed (R104). -/
theorem decodeBits_manchester_single {x : Duration} (hc : r.codec = .manchester) (ht : c.timings = [x]) :
    decodeBits r c = (.error, c)
      ∨ ∃ c1, c1.timings = [] ∧ (decodeBits r c = (.ok, c1) ∨ decodeBits r c = (.ready, c1)) := by
  cases hturn : manchesterTurn r c with
  | again c1 =>
    have hnil : c1.timings = [] := by simpa [ht] using manchesterTurn_shorter hturn
    exact .inr ⟨c1, hnil, .inl ((decodeBits_again ((codecTurn_manchester hc c).trans hturn)).trans (decodeBits_nil hnil))⟩
  | stop st c1 =>
    have hbits := decodeBits_stop ((codecTurn_manchester hc c).trans hturn)
    obtain ⟨-, -, hnil⟩ | ⟨rfl, rfl⟩ | ⟨rfl, -⟩ := manchesterTurn_stop hturn
    · simp [ht] at hnil
    · exact .inl hbits
    · have hready := ((decodeBits_post r c).ready (by rw [hbits])).1
      rw [hbits] at hready
      exact .inr ⟨c1, by simpa [ht] using hready, .inr hbits⟩

/-- A Manchester width that is neither one half nor two halves is an error at every place of a bit (R104). -/
theorem decodeBits_manchester_rejects {x : Duration} (hc : r.codec = .manchester) (ht : c.timings = [x])
    (hx : ∀ n, 1 ≤ n → n ≤ 4 → matchUnits x.toNat n r = false) : decodeBits r c = (.error, c) := by
  have hwidth : ∀ i, 1 ≤ halfWidth r i ∧ halfWidth r i ≤ 2 := fun i => by unfold halfWidth; split <;> omega
  have hhalf : ∀ i, matchUnits x.toNat (halfWidth r i) r = false := fun i => by
    have := hwidth i
    exact hx _ (by omega) (by omega)
  have hjoined : ∀ i j, matchUnits x.toNat (halfWidth r i + halfWidth r j) r = false := fun i j => by
    have := hwidth i
    have := hwidth j
    exact hx _ (by omega) (by omega)
  exact decodeBits_stop ((codecTurn_manchester hc c).trans (by simp [manchesterTurn, ht, hhalf, hjoined]))

end

/-! ## The Space before a preamble (R129) -/

/-- Nothing is pending but possibly the first timing of a PDWM pair. -/
def HalfPairAtMost (r : RomRow) (c : DecCtx) : Prop :=
  c.timings = [] ∨ (c.state = .decode ∧ r.codec = .pdwm ∧ c.databitCnt ≠ r.databitLen ∧ c.timings.length = 1)

/-- The context stands after a Space, outside ProcessRepeat, with half a pair pending at most. -/
structure AfterSpace (r : RomRow) (c : DecCtx) : Prop where
  space : c.lastLevel = false
  outside : c.state ≠ .processRepeat
  pending : HalfPairAtMost r c

/-- A Space comes alone or behind the one pending timing, a Mark. -/
theorem sampled_space {c : DecCtx} (hlen : c.timings.length ≤ 1) (d : Duration) :
    (c.sampled false d).timings = [d] ∨ ∃ x, c.timings = [x] ∧ (c.sampled false d).timings = [x, d] := by
  unfold DecCtx.sampled
  cases hl : c.lastLevel with
  | false => exact .inl (by simp)
  | true =>
    match ht : c.timings, hlen with
    | [], _ => exact .inl (by simp)
    | [x], _ => exact .inr ⟨x, rfl, by simp⟩

section
variable {r : RomRow} {pid : Pid} {c : DecCtx} {d : Duration} (hlen : c.timings.length ≤ 1)
include hlen

theorem sampled_space_length : (c.sampled false d).timings.length ≤ 2 := by
  obtain h | ⟨x, -, h⟩ := sampled_space hlen d <;> simp [h]

/-- A context whose engine is silent on a Space, and leaves at most that timing of a PDWM pair, stands after it. -/
theorem AfterSpace.of_run {c1 : DecCtx} (hs : c.state ≠ .processRepeat) (hrun : run r pid (c.sampled false d) = (none, c1))
    (hp : HalfPairAtMost r c1) :
    decodeStep r pid c false d = .ok (none, c1) ∧ AfterSpace r c1 := by
  have hstep : decodeStep r pid c false d = .ok (none, c1) := by
    have := sampled_space_length (d := d) hlen
    rw [decodeStep_eq_run (by omega), hrun]
  exact ⟨hstep, decodeStep_lastLevel hstep, fun h => hs ((decodeStep_noMessage hstep).2.2 h), hp⟩

theorem decodeStep_space_rejected (hs : c.state ≠ .processRepeat) (h : Rejects r (c.sampled false d)) :
    ∃ c1, decodeStep r pid c false d = .ok (none, c1) ∧ AfterSpace r c1 := by
  obtain ⟨c1, hrun, hnil⟩ := h.run_space (pid := pid) (sampled_space_length hlen) rfl
  exact ⟨c1, AfterSpace.of_run hlen hs hrun (.inl hnil)⟩

/-- In state Decode of a PDWM row a Space is rejected, or waits, or is the second timing of a pair (R101). -/
theorem decodeBits_pdwm_space (hc : r.codec = .pdwm) (hst : c.state = .decode)
    (hfull : c.databitCnt = r.databitLen → c.timings = []) :
    decodeBits r (c.sampled false d) = (.error, c.sampled false d)
      ∨ ∃ c1, decodeBits r (c.sampled false d) = (.ok, c1) ∧ HalfPairAtMost r c1 := by
  by_cases hn : c.databitCnt = r.databitLen
  · have ht : (c.sampled false d).timings = [d] := by simp [DecCtx.sampled, hfull hn]
    have hspace : (c.sampled false d).level 0 = false := level_last _ (by simp [ht])
    refine .inl (decodeBits_stop ((codecTurn_pdwm hc _).trans ?_))
    rw [pdwmTurn_complete_cons (c := c.sampled false d) hn ht, if_neg (by simp [hspace])]
  · obtain ht | ⟨x, -, ht⟩ := sampled_space hlen d
    · exact .inr ⟨_, decodeBits_pdwm_waits hc hn (by simp [ht]), .inr ⟨hst, hc, hn, by simp [ht]⟩⟩
    · cases hturn : pdwmTurn r (c.sampled false d) with
      | again c1 =>
        obtain ⟨-, t0, t1, rest, b, -, -, -, rfl⟩ := pdwmTurn_again hturn
        have hnil : (((c.sampled false d).accumulate b).consume 2).timings = [] := by simp [ht]
        exact .inr ⟨_, (decodeBits_again ((codecTurn_pdwm hc _).trans hturn)).trans (decodeBits_nil hnil), .inl hnil⟩
      | stop st c1 =>
        have hbits := decodeBits_stop ((codecTurn_pdwm hc _).trans hturn)
        obtain ⟨-, -, hshort⟩ | ⟨rfl, rfl⟩ | ⟨-, -, -, hcomplete⟩ := pdwmTurn_stop hturn
        · simp [ht] at hshort
        · exact .inl hbits
        · exact absurd hcomplete hn

/-- On a PDWM row a Space returns nothing: a payload is completed by a Mark only (R101). -/
theorem decodeStep_space_pdwm (hc : r.codec = .pdwm) (hs : c.state ≠ .processRepeat)
    (hfull : c.state = .decode → c.databitCnt = r.databitLen → c.timings = []) :
    ∃ c1, decodeStep r pid c false d = .ok (none, c1) ∧ AfterSpace r c1 := by
  cases hst : c.state with
  | waitPreamble => exact decodeStep_space_rejected hlen hs (.inl hst)
  | processRepeat => exact absurd hst hs
  | decode =>
    have hlong := sampled_space_length (d := d) hlen
    obtain he | ⟨c1, hok, hp⟩ := decodeBits_pdwm_space (d := d) hlen hc hst (hfull hst)
    · exact decodeStep_space_rejected hlen hs (.inr (.inl ⟨hst, he⟩))
    · exact ⟨c1, AfterSpace.of_run hlen hs (run_decode_ok hst (by omega) hok) hp⟩

/-- On a Manchester row without a repeat pattern a Space may close the frame under way, and then return its message (R104). -/
theorem decodeStep_space_manchester (hc : r.codec = .manchester) (hrep : r.repLen = 0) (hs : c.state ≠ .processRepeat)
    (hempty : c.state = .decode → c.timings = []) :
    ∃ m c1, decodeStep r pid c false d = .ok (m, c1) ∧ (c.state = .waitPreamble → m = none) ∧ AfterSpace r c1 := by
  cases hst : c.state with
  | waitPreamble =>
    obtain ⟨c1, hstep, hafter⟩ := decodeStep_space_rejected (pid := pid) hlen hs (.inl hst)
    exact ⟨none, c1, hstep, fun _ => rfl, hafter⟩
  | processRepeat => exact absurd hst hs
  | decode =>
    have ht : (c.sampled false d).timings = [d] := by simp [DecCtx.sampled, hempty hst]
    have hlong : (c.sampled false d).timings.length ≤ 6 := by simp [ht]
    have silent : (∃ c1, decodeStep r pid c false d = .ok (none, c1) ∧ AfterSpace r c1) →
        ∃ m c1, decodeStep r pid c false d = .ok (m, c1) ∧ (DecState.decode = .waitPreamble → m = none) ∧ AfterSpace r c1 :=
      fun ⟨c1, hstep, hafter⟩ => ⟨none, c1, hstep, nofun, hafter⟩
    obtain he | ⟨c1, hnil, hok | hready⟩ := decodeBits_manchester_single hc ht
    · exact silent (decodeStep_space_rejected hlen hs (.inr (.inl ⟨hst, he⟩)))
    · exact silent ⟨c1, AfterSpace.of_run hlen hs (run_decode_ok hst hlong hok) (.inl hnil)⟩
    · have hturn : engineTurn r pid (c.sampled false d) = decodeTurn r pid (c.sampled false d) := engineTurn_decode hst
      rw [decodeTurn, hready] at hturn
      cases hi : interpret r pid c1 with
      | none =>
        simp only [hi] at hturn
        exact silent ⟨_, AfterSpace.of_run hlen hs (run_stop hlong hturn) (.inl hnil)⟩
      | some c2 =>
        simp only [hi] at hturn
        have hstep : decodeStep r pid c false d = .ok (some c2.message, c2.goTo (afterMessage r)) := by
          rw [decodeStep_eq_run hlong, run_stop hlong hturn]
        refine ⟨_, _, hstep, nofun, decodeStep_lastLevel hstep, by simp [afterMessage, hrep], .inl ?_⟩
        rw [DecCtx.goTo_timings, (interpret_some hi).1]
        exact hnil

end

/-! ## The preamble after a Space (R129) -/

/-- The Mark of the row's preamble matches no Mark and no width of the payload. -/
structure PreambleApart (r : RomRow) : Prop where
  pdwm : r.codec = .pdwm → matchBit r r.preambleMark r.bit1Mark = false ∧ matchBit r r.preambleMark r.bit0Mark = false
  manchester : r.codec = .manchester → ∀ n, 1 ≤ n → n ≤ 4 → matchUnits r.preambleMark.toNat n r = false

section
variable {r : RomRow} {pid : Pid} {c : DecCtx}

theorem PreambleApart.pdwmBit (h : PreambleApart r) (hc : r.codec = .pdwm) (x : Duration) : pdwmBit r r.preambleMark x = none :=
  pdwmBit_of_no_pair fun b ⟨hmark, _⟩ => by
    obtain ⟨h1, h0⟩ := h.pdwm hc
    cases b <;> simp_all

/-- The preamble's Space, behind its Mark alone in the buffer, brings the context to the first bit (R122). -/
theorem decodeStep_own_preambleSpace (hr : rowOk r = true) (ht : c.timings = [r.preambleMark]) (hl : c.lastLevel = true)
    (h : Rejects r (c.heard [r.preambleSpace])) :
    decodeStep r pid c false r.preambleSpace = .ok (none, enterDecode { c with timings := [], lastLevel := false }) := by
  have hheard : c.sampled false r.preambleSpace = c.heard [r.preambleSpace] := by rw [← sampled_alternate, hl]; rfl
  have hbuffer : (c.heard [r.preambleSpace]).timings = [r.preambleMark, r.preambleSpace] := by simp [DecCtx.heard, ht]
  rw [decodeStep_eq_run (by simp [hheard, hbuffer]), hheard,
    h.run_own_preamble (before := []) hr hbuffer (by simp) (by simp [hbuffer])
      (by simp [DecCtx.level, DecCtx.timingsCnt, DecCtx.heard, ht, hl]),
    run_enterDecode_nil rfl]
  simp [DecCtx.heard, hl, enterDecode]

/-- After a Space the preamble's Mark is rejected, but where it is the first timing of a PDWM pair. -/
theorem AfterSpace.rejects_mark (h : AfterSpace r c) (hp : PreambleApart r) : Rejects r (c.heard [r.preambleMark])
    ∨ (c.state = .decode ∧ r.codec = .pdwm ∧ c.databitCnt ≠ r.databitLen ∧ c.timings = []) := by
  obtain ⟨hspace, hout, hpend⟩ := h
  cases hst : c.state with
  | waitPreamble => exact .inl (.inl hst)
  | processRepeat => exact absurd hst hout
  | decode =>
    have rejected : decodeBits r (c.heard [r.preambleMark]) = (.error, c.heard [r.preambleMark]) →
        Rejects r (c.heard [r.preambleMark]) := fun he => .inr (.inl ⟨hst, he⟩)
    obtain hnil | ⟨-, hc, hn, hone⟩ := hpend
    · have ht : (c.heard [r.preambleMark]).timings = [r.preambleMark] := by simp [DecCtx.heard, hnil]
      cases hc : r.codec with
      | manchester => exact .inl (rejected (decodeBits_manchester_rejects hc ht (hp.manchester hc)))
      | pdwm =>
        by_cases hn : c.databitCnt = r.databitLen
        · have hstop := pdwmTurn_complete_cons (c := c.heard [r.preambleMark]) hn ht
          rw [if_neg (by simp [(hp.pdwm hc).1])] at hstop
          exact .inl (rejected (decodeBits_stop ((codecTurn_pdwm hc _).trans hstop)))
        · exact .inr ⟨rfl, rfl, hn, hnil⟩
    · obtain ⟨s, hs⟩ := List.length_eq_one_iff.1 hone
      have ht : (c.heard [r.preambleMark]).timings = [s, r.preambleMark] := by simp [DecCtx.heard, hs]
      have hlevel : (c.heard [r.preambleMark]).level 0 = false := by
        simp [DecCtx.level, DecCtx.timingsCnt, DecCtx.heard, hs, hspace]
      exact .inl (rejected (decodeBits_pdwm_rejects (c := c.heard _) hc hn ht (by simp [hlevel])))

/-- The preamble's Mark after a Space stays alone in the buffer, in WaitPreamble or as the first timing of a PDWM pair. -/
theorem AfterSpace.decodeStep_mark (h : AfterSpace r c) (hp : PreambleApart r) :
    ∃ st, decodeStep r pid c true r.preambleMark
        = .ok (none, { c with state := st, timings := [r.preambleMark], lastLevel := true })
      ∧ (st = .waitPreamble ∨ (st = .decode ∧ r.codec = .pdwm ∧ c.databitCnt ≠ r.databitLen)) := by
  have hspace := h.space
  have hshort : c.timings.length ≤ 1 := by obtain h | ⟨-, -, -, h⟩ := h.pending <;> simp [h]
  have hheard : c.sampled true r.preambleMark = c.heard [r.preambleMark] := by rw [← sampled_alternate, hspace]; rfl
  have hlast : (c.heard [r.preambleMark]).lastLevel = true := by simp [DecCtx.heard, hspace]
  have hlen : (c.heard [r.preambleMark]).timings.length ≤ 6 := by simp [DecCtx.heard]; omega
  rw [decodeStep_eq_run (by rw [hheard]; exact hlen), hheard]
  obtain hrej | ⟨hst, hc, hn, hnil⟩ := h.rejects_mark hp
  · exact ⟨.waitPreamble, by rw [hrej.run_mark rfl hshort hlast, ← hlast]; rfl, .inl rfl⟩
  · refine ⟨.decode, ?_, .inr ⟨rfl, hc, hn⟩⟩
    rw [run_decode_ok (c := c.heard _) hst hlen (decodeBits_pdwm_waits hc hn (by simp [DecCtx.heard, hnil]))]
    simp [DecCtx.heard, hnil, hspace, hst]

/-- After a Space the row's preamble brings the context to the first bit of a frame, and nothing else is written (R129). -/
theorem AfterSpace.feed_preamble (h : AfterSpace r c) (hr : rowOk r = true) (hp : PreambleApart r) :
    feed r pid (alternating true [r.preambleMark, r.preambleSpace]) c = .ok ([], enterDecode { c with timings := [] }) := by
  obtain ⟨st, hstep, hst⟩ := h.decodeStep_mark (pid := pid) hp
  refine feed_cons hstep ?_
  generalize hc2 : ({ c with state := st, timings := [r.preambleMark], lastLevel := true } : DecCtx) = c2
  have hrej : Rejects r (c2.heard [r.preambleSpace]) := by
    subst hc2
    obtain rfl | ⟨rfl, hc, hn⟩ := hst
    · exact .inl rfl
    · exact .inr (.inl ⟨rfl, decodeBits_pdwm_rejects hc hn rfl fun _ => hp.pdwmBit hc _⟩)
  have hstep2 := decodeStep_own_preambleSpace (pid := pid) hr (by rw [← hc2]) (by rw [← hc2]) hrej
  refine feed_cons (rest := []) hstep2 ?_
  have hspace := h.space
  subst hc2
  simp [feed, enterDecode, hspace]

end

/-! ## A frame that begins in ProcessRepeat (R258) -/

/-- In ProcessRepeat a Space is only buffered: alone, if the buffer was empty or the Space repeats the level (R120, R126). -/
theorem decodeStep_space_processRepeat {r : RomRow} {pid : Pid} {c : DecCtx} (hr : rowOk r = true) (hs : c.state = .processRepeat)
    (hpos : 0 < r.repLen) (hempty : c.timings = [] ∨ c.lastLevel = false) (d : Duration) :
    decodeStep r pid c false d = .ok (none, { c with timings := [d], lastLevel := false }) := by
  have hsampled : c.sampled false d = { c with timings := [d], lastLevel := false } := by
    obtain ht | hl := hempty
    · simp [DecCtx.sampled, ht]
    · simp [DecCtx.sampled, hl]
  have hlong : 1 < r.repLen := by have := rowOk_repeat hr; omega
  rw [decodeStep_eq_run (by simp [hsampled]), hsampled]
  exact congrArg Except.ok (run_repeat_waits (c := { c with timings := [d], lastLevel := false }) hs (by simp) hlong)

section
variable {r : RomRow} {pid : Pid} {c : DecCtx} {silence : Duration} {rest : List Duration} (hr : rowOk r = true)
  (hs : c.state = .processRepeat) (ht : c.timings = [silence])
  (hdiff : ¬ ∀ i e x, i < r.repLen - 1 → r.repTail[i]? = some e → [r.preambleMark, r.preambleSpace][i]? = some x →
    matchRepElem r x e = true)
include hr hs ht hdiff

/-- Behind a Space, the preamble and what follows it are rejected as soon as they are as many as the pattern. -/
theorem rejects_preamble_as_repeat {ds : List Duration} (hds : ds.length = r.repLen - 1) (hpos : 0 < r.repLen)
    (hpre : ∀ i, i < ds.length → i < 2 → ds[i]? = [r.preambleMark, r.preambleSpace][i]?) : Rejects r (c.heard ds) := by
  obtain h0 | ⟨-, -, -, htail, -⟩ := rowOk_repeat hr
  · omega
  have hcount : r.repLen ≤ (c.heard ds).timingsCnt := by simp [DecCtx.timingsCnt, DecCtx.heard, ht]; omega
  refine .inr (.inr ⟨hs, decodeRepeat_rejects hcount fun hm => hdiff fun i e x hi he hx => ?_⟩)
  obtain ⟨-, -, -, helems⟩ := (repeatMatches_iff hpos htail hcount).1 hm
  have hi2 : i < 2 := (List.getElem?_eq_some_iff.1 hx).1
  have hslot : (c.heard ds).slot (i + 1) = x := by
    simp [DecCtx.slot, DecCtx.heard, ht, List.getD_eq_getElem?_getD, hpre i (by omega) hi2, hx]
  rw [← hslot]
  exact helems i e he

/-- A pattern of two elements decides on the preamble's Mark, which is then heard again as a preamble's. -/
theorem feed_preamble_short_pattern (h2 : r.repLen = 2) (hl : c.lastLevel = false) :
    feed r pid (alternating true [r.preambleMark, r.preambleSpace]) c
      = .ok ([], enterDecode { c with timings := [], lastLevel := false }) := by
  have hheard : c.sampled true r.preambleMark = c.heard [r.preambleMark] := by rw [← sampled_alternate, hl]; rfl
  have hlast : (c.heard [r.preambleMark]).lastLevel = true := by simp [DecCtx.heard, hl]
  have hrej := rejects_preamble_as_repeat (ds := [r.preambleMark]) hr hs ht hdiff (by simp [h2]) (by omega)
    (fun i hi _ => by simp at hi; simp [hi])
  have hmark : decodeStep r pid c true r.preambleMark
      = .ok (none, { c.heard [r.preambleMark] with state := .waitPreamble, timings := [r.preambleMark] }) := by
    rw [decodeStep_eq_run (by simp [hheard, DecCtx.heard, ht]), hheard,
      hrej.run_mark (before := [silence]) (x := r.preambleMark) (by simp [DecCtx.heard, ht]) (by simp) hlast]
  have hspace := decodeStep_own_preambleSpace (pid := pid)
    (c := { c.heard [r.preambleMark] with state := .waitPreamble, timings := [r.preambleMark] }) hr rfl hlast (.inl rfl)
  exact feed_cons hmark (feed_cons (rest := []) hspace rfl)

/-- A longer pattern decides once the preamble and the first timings of the frame are in, and the frame is run from there. -/
theorem feed_preamble_long_pattern (hlong : 4 ≤ r.repLen) (hl : c.lastLevel = false) (hrest : rest.length = r.repLen - 3)
    {fresh : DecCtx} (hfresh : fresh = enterDecode { c with timings := rest, lastLevel := true }) :
    feed r pid (alternating true (r.preambleMark :: r.preambleSpace :: rest)) c
      = .ok ((run r pid fresh).1.toList, (run r pid fresh).2) := by
  have hodd : rest.length % 2 = 1 := by have := rowOk_repeat hr; omega
  have hrep := rowOk_repLen_le hr
  have hrej := rejects_preamble_as_repeat (ds := r.preambleMark :: r.preambleSpace :: rest) hr hs ht hdiff (by simp; omega)
    (by omega) (fun i _ hi => by interval_cases i <;> rfl)
  have hheard : (c.heard (r.preambleMark :: r.preambleSpace :: rest)).timings
      = [silence] ++ r.preambleMark :: r.preambleSpace :: rest := by simp [DecCtx.heard, ht]
  have hlast : (c.heard (r.preambleMark :: r.preambleSpace :: rest)).lastLevel = true := by simp [DecCtx.heard, hl]; omega
  have hfeed := feed_processRepeat (pid := pid) hrep (r.preambleMark :: r.preambleSpace :: rest) c hs (by simp)
    (by simp [ht]; omega)
  have hstart : enterDecode { c.heard (r.preambleMark :: r.preambleSpace :: rest) with timings := rest } = fresh := by
    rw [hfresh, ← hlast]
    rfl
  rwa [hl, hrej.run_own_preamble (before := [silence]) hr hheard (by simp) (by simp [hheard]; omega)
    (by simp [DecCtx.level, DecCtx.timingsCnt, hheard, hlast]; omega), hstart] at hfeed

/-- The decision waits for `rep_len` timings; those after the preamble are then run from the first bit of the frame. -/
theorem feed_preamble_in_processRepeat (hpos : 0 < r.repLen) (hl : c.lastLevel = false) (hrest : rest.length = r.repLen - 3)
    {fresh : DecCtx} (hfresh : fresh = enterDecode { c with timings := rest, lastLevel := decide (rest ≠ []) }) :
    feed r pid (alternating true (r.preambleMark :: r.preambleSpace :: rest)) c
      = .ok ((run r pid fresh).1.toList, (run r pid fresh).2) := by
  obtain h2 | hlong : r.repLen = 2 ∨ 4 ≤ r.repLen := by have := rowOk_repeat hr; omega
  · obtain rfl : rest = [] := List.eq_nil_of_length_eq_zero (by omega)
    rw [hfresh, run_enterDecode_nil rfl]
    exact feed_preamble_short_pattern hr hs ht hdiff h2 hl
  · have hne : rest ≠ [] := fun h => by rw [h, List.length_nil] at hrest; omega
    rw [decide_eq_true hne] at hfresh
    exact feed_preamble_long_pattern hr hs ht hdiff hlong hl hrest hfresh

end

end Sys2Proof.Machine

namespace Sys2Proof.Proofs

open Sys2Proof Sys2Proof.Machine

/-- Settles O34: outside ProcessRepeat by the context that stands after the Space, and in ProcessRepeat by the decision that
the last timing brings. -/
theorem preambleResynchronises : Obligations.PreambleResynchronises := by
  rintro r pid c silence _ hr rfl
  refine ⟨fun hc h1 h0 hs hlen hfull => ?_, fun hc hrep hw hs hlen hempty => ?_, fun hs hpos hq hdiff rest fresh hrest hfresh => ?_⟩
  · obtain ⟨c1, hstep, hafter⟩ := decodeStep_space_pdwm (pid := pid) (d := silence) hlen hc hs hfull
    have hpre := hafter.feed_preamble (pid := pid) hr ⟨fun _ => ⟨h1, h0⟩, fun hm => nomatch hc.symm.trans hm⟩
    obtain ⟨hmsg, htog, -⟩ := decodeStep_noMessage hstep
    exact ⟨_, feed_cons hstep hpre, rfl, rfl, rfl, rfl, rfl, hmsg, htog⟩
  · obtain ⟨m, c1, hstep, hwait, hafter⟩ := decodeStep_space_manchester (pid := pid) (d := silence) hlen hc hrep hs hempty
    have hpre := hafter.feed_preamble (pid := pid) hr ⟨(nomatch hc.symm.trans ·), fun _ => hw⟩
    have hfeed := feed_cons hstep hpre
    rw [List.append_nil] at hfeed
    exact ⟨m, c1, _, hstep, hwait, hfeed, rfl, rfl, rfl, rfl, rfl, rfl, rfl⟩
  · have hpre := feed_preamble_in_processRepeat (pid := pid) (c := { c with timings := [silence], lastLevel := false }) hr hs rfl
      hdiff hpos rfl hrest hfresh
    have hfeed := feed_cons (decodeStep_space_processRepeat hr hs hpos hq silence) hpre
    rw [alternating, alternating, alternating_eq_mapIdx] at hfeed
    have hmark : ∀ i, (!decide (i % 2 = 1)) = decide (i % 2 = 0) := fun i => by
      obtain h | h := Nat.mod_two_eq_zero_or_one i <;> simp [h]
    simpa [hmark] using hfeed

/-- Settles O30, by the context that `Run` sees. -/
theorem repeatedLevelDropsPendingTimings : Obligations.RepeatedLevelDropsPendingTimings := by
  intro r pid c d
  have hsame : ∀ b : DecCtx, decodeStep r pid b b.lastLevel d = .ok (run r pid { b with timings := [d] }) := fun b => by
    rw [← sampled_same_level]
    exact decodeStep_eq_run (by simp [DecCtx.sampled])
  refine ⟨(hsame c).trans (hsame { c with timings := [] }).symm, hsame c, fun hroom => ?_⟩
  have hother := sampled_other_level c (l := !c.lastLevel) (by simp) d
  rw [← hother]
  exact decodeStep_eq_run (by rw [hother, List.length_append]; exact hroom)

/-- Settles O31: the window stops at the first preamble, or passes over the whole buffer. -/
theorem preambleWindow : Obligations.PreambleWindow := by
  intro r c c' found h
  by_cases hex : ∃ k, PreambleAt r c k
  · classical
    obtain ⟨m, s, hm, hs, hmark, hmm, hms⟩ := Nat.find_spec hex
    have hfirst : ∀ i, i < Nat.find hex → ¬ PreambleAt r c i := fun _ => Nat.find_min hex
    rw [checkPreamble_of_first (Nat.find_spec hex) hfirst] at h
    cases h
    generalize Nat.find hex = k at *
    obtain ⟨hk, hmk⟩ := List.getElem?_eq_some_iff.1 hm
    obtain ⟨hk1, hsk⟩ := List.getElem?_eq_some_iff.1 hs
    have hlen : (c.timings.take k).length = k := List.length_take_of_le (by omega)
    refine ⟨rfl, fun _ => ⟨c.timings.take k, m, s, ?_, by rw [hlen]; exact hmark, hmm, hms, ?_⟩, nofun⟩
    · calc c.timings = c.timings.take k ++ c.timings.drop k := (List.take_append_drop _ _).symm
        _ = _ := by rw [List.drop_eq_getElem_cons hk, List.drop_eq_getElem_cons hk1, hmk, hsk]; rfl
    · rw [hlen]
      exact fun i m s hi hmi hsi hl hmatch => hfirst i hi ⟨m, s, hmi, hsi, hl, hmatch⟩
  · have hnone : ∀ i, ¬ PreambleAt r c i := fun i hi => hex ⟨i, hi⟩
    rw [checkPreamble_of_none hnone] at h
    cases h
    exact ⟨rfl, nofun, fun _ => ⟨fun i m s hmi hsi hl hmatch => hnone i ⟨m, s, hmi, hsi, hl, hmatch⟩, rfl⟩⟩

/-- Settles O33, by the turn that each answer leads to. -/
theorem runFollowsTheStateMachine : Obligations.RunFollowsTheStateMachine := by
  intro r pid c hlen
  refine ⟨fun hs found c1 h => ?_, fun hs st c1 h => ?_, fun hs st c1 h => ?_⟩
  · have ht : engineTurn r pid c = waitTurn r c := engineTurn_wait hs
    rw [waitTurn, h] at ht
    cases found with
    | true => exact run_again hlen ht
    | false => exact run_stop hlen ht
  · have ht : engineTurn r pid c = decodeTurn r pid c := engineTurn_decode hs
    rw [decodeTurn, h] at ht
    refine ⟨?_, ?_, ?_, ?_⟩
    · rintro rfl
      exact run_stop hlen ht
    · rintro rfl
      exact run_again hlen ht
    · rintro rfl hi
      simp only [hi] at ht
      exact run_stop hlen ht
    · rintro rfl c2 hi
      simp only [hi] at ht
      exact run_stop hlen ht
  · have ht : engineTurn r pid c = repeatTurn r c := engineTurn_repeat hs
    rw [repeatTurn, h] at ht
    refine ⟨?_, ?_, ?_⟩ <;> rintro rfl
    · exact run_stop hlen ht
    · exact run_again hlen ht
    · exact run_stop hlen ht

/-- Settles O35: a turn that goes on makes a measure smaller that is at most 7. -/
theorem runEndsWithinEightTurns : Obligations.RunEndsWithinEightTurns := by
  intro r pid c n dflt hlen hn
  have hmeasure := runMeasure_le hlen
  exact iterate_stable runMeasure (fun _ _ ht => (engineTurn_again ht).1) 8 n c (by omega) hn

/-- Settles O37, by the turn of `Run` that answered. -/
theorem noMessageNoWrite : Obligations.NoMessageNoWrite :=
  fun _ _ _ _ _ _ => decodeStep_noMessage

/-- Settles O54: the pattern slot by slot, and the row's own code as a sequence that decides with its last timing. -/
theorem repeatCodesReemitTheMessage : Obligations.RepeatCodesReemitTheMessage := by
  intro r pid c hr hpos
  obtain h0 | ⟨-, -, -, htail, -⟩ := rowOk_repeat hr
  · omega
  refine ⟨decodeRepeat_waits, fun recognised hrec hfull => ?_, fun hs ht hl => ?_⟩
  · have hmatch : recognised ↔ repeatMatches r c = true := by
      rw [hrec, repeatMatches_iff hpos htail hfull]
      simp only [matchRepElem_iff_abs]
    rw [hmatch]
    exact ⟨decodeRepeat_ready hfull, decodeRepeat_rejects hfull⟩
  · rw [repeatTimings_pulses]
    exact feed_own_repeat hr hpos ht hl pid hs

end Sys2Proof.Proofs
end

section
/-! PROOFS. The rules of 42_protocol_adapters.md: a register as four bytes and the 32-bit adapters on it (R141 to R143, R150 to
R152), `rev8` and the RC6 adapter bit by bit (R144, R153), and the interpret of a packed message (R154). -/

namespace Sys2Proof.Machine

/-! ## Words as four bytes (R8, R13) -/

theorem accByte_toNat (d : Word) (k : Nat) : (accByte d k).toNat = d.toNat / 2 ^ (8 * k) % 256 := by
  rw [accByte, BitVec.extractLsb'_toNat, Nat.shiftRight_eq_div_pow]

/-- The 32-bit accumulator holds the four low bytes of the register. -/
theorem DecCtx.accByte_acc32 (c : DecCtx) {k : Nat} (hk : k < 4) :
    (accByte c.acc32 k).toNat = c.data / 2 ^ (8 * k) % 256 := by
  rw [accByte_toNat, acc32, BitVec.toNat_ofNat]
  obtain rfl | rfl | rfl | rfl : k = 0 ∨ k = 1 ∨ k = 2 ∨ k = 3 := by omega
  all_goals omega

/-- A register that holds a packed word is read back as that word. -/
theorem DecCtx.acc32_packed (c : DecCtx) (d : Word) : ({ c with data := d.toNat } : DecCtx).acc32 = d :=
  (BitVec.ofNat_toNat 32 d).trans (BitVec.setWidth_eq d)

/-- Two bytes are complements when their sum is 255. -/
theorem eq_complement_iff (x y : Byte) : x = ~~~ y ↔ x.toNat + y.toNat = 255 := by
  rw [← BitVec.toNat_inj, BitVec.toNat_not]
  omega

theorem toNat_append_byte {n : Nat} (x : BitVec n) (y : Byte) : (x ++ y).toNat = 256 * x.toNat + y.toNat := by
  rw [BitVec.toNat_append, ← Nat.shiftLeft_add_eq_or_of_lt y.isLt, Nat.shiftLeft_eq, Nat.mul_comm]

theorem toNat_bytes (b3 b2 b1 b0 : Byte) :
    (b3 ++ b2 ++ b1 ++ b0 : Word).toNat = b0.toNat + 256 * b1.toNat + 65536 * b2.toNat + 16777216 * b3.toNat := by
  simp only [toNat_append_byte]
  omega

section
variable (b3 b2 b1 b0 : Byte)

@[simp] theorem accByte_bytes :
    accByte (b3 ++ b2 ++ b1 ++ b0) 0 = b0 ∧ accByte (b3 ++ b2 ++ b1 ++ b0) 1 = b1
      ∧ accByte (b3 ++ b2 ++ b1 ++ b0) 2 = b2 ∧ accByte (b3 ++ b2 ++ b1 ++ b0) 3 = b3 := by
  simp only [← BitVec.toNat_inj, accByte_toNat, toNat_bytes]
  omega

@[simp] theorem commandChecks_bytes : commandChecks (b3 ++ b2 ++ b1 ++ b0) = decide (b2 = ~~~ b3) := by
  simp only [commandChecks, accByte_bytes]

end

/-- A field that fits its low byte is that byte. -/
theorem setWidth_accByte {x : Word} (h : x.toNat < 256) : (accByte x 0).setWidth 32 = x := by
  apply BitVec.eq_of_toNat_eq
  rw [BitVec.toNat_setWidth, accByte_toNat]
  omega

/-- A field that fits its two low bytes is their concatenation. -/
theorem setWidth_accBytes {x : Word} (h : x.toNat < 65536) : (accByte x 1 ++ accByte x 0).setWidth 32 = x := by
  apply BitVec.eq_of_toNat_eq
  rw [BitVec.toNat_setWidth, toNat_append_byte, accByte_toNat, accByte_toNat]
  omega

/-! ## The 32-bit interprets (R141 to R143) -/

theorem commandChecks_iff (d : Word) : commandChecks d = true ↔ (accByte d 2).toNat + (accByte d 3).toNat = 255 := by
  rw [commandChecks, decide_eq_true_iff, eq_complement_iff]

theorem interpretNec_isSome (pid : Pid) (c : DecCtx) :
    (interpretNec pid c).isSome = (commandChecks c.acc32 && decide (accByte c.acc32 0 = ~~~ accByte c.acc32 1)) :=
  Bool.eq_iff_iff.2 Option.isSome_ite

theorem interpretNecExt_isSome (pid : Pid) (c : DecCtx) :
    (interpretNecExt pid c).isSome = (commandChecks c.acc32 && decide (accByte c.acc32 0 ≠ ~~~ accByte c.acc32 1)) :=
  Bool.eq_iff_iff.2 Option.isSome_ite

/-! ## `rev8` and the RC6 adapter, bit by bit (R144, R153) -/

/-- `rev8(v)[i] = v[7-i]` (R8). -/
theorem rev8_getLsbD (v : Byte) (i : Nat) : (rev8 v).getLsbD i = (decide (i < 8) && v.getLsbD (7 - i)) := by
  by_cases hi : i < 8
  · simp only [rev8, BitVec.getLsbD_append, BitVec.getLsbD_ofBool]
    interval_cases i <;> simp
  · rw [BitVec.getLsbD_of_ge _ _ (by omega), decide_eq_false hi, Bool.false_and]

theorem DecCtx.acc21_getLsbD (c : DecCtx) {i : Nat} (hi : i < 21) : c.acc21.getLsbD i = c.data.testBit i := by
  rw [acc21, BitVec.getLsbD_ofNat, decide_eq_true hi, Bool.true_and]

/-- An RC6 field is read in reversed order from the eight bits at `k`. -/
theorem DecCtx.acc21_field_getLsbD (c : DecCtx) {k : Nat} (hk : k + 7 < 21) (i : Nat) :
    ((rev8 (c.acc21.extractLsb' k 8)).setWidth 32).getLsbD i = (decide (i < 8) && c.data.testBit (k + 7 - i)) := by
  rw [BitVec.getLsbD_setWidth, rev8_getLsbD, BitVec.getLsbD_extractLsb']
  by_cases hi : i < 8
  · have hbit : k + (7 - i) = k + 7 - i := by omega
    simp only [hbit, c.acc21_getLsbD (show k + 7 - i < 21 by omega), hi, show i < 32 by omega, show 7 - i < 8 by omega,
      decide_true, Bool.true_and]
  · simp only [hi, decide_false, Bool.false_and, Bool.and_false]

/-- The start bit is 1 and the mode is 0 (R144). -/
def DecCtx.rc6Starts (c : DecCtx) : Prop :=
  c.data.testBit 0 = true ∧ c.data.testBit 1 = false ∧ c.data.testBit 2 = false ∧ c.data.testBit 3 = false

theorem DecCtx.acc21_mode_iff (c : DecCtx) : c.acc21.extractLsb' 1 3 = 0#3
    ↔ c.data.testBit 1 = false ∧ c.data.testBit 2 = false ∧ c.data.testBit 3 = false := by
  have hbit : ∀ {i}, i < 3 → (c.acc21.extractLsb' 1 3).getLsbD i = c.data.testBit (1 + i) := fun {i} hi => by
    rw [BitVec.getLsbD_extractLsb', decide_eq_true hi, Bool.true_and, c.acc21_getLsbD (by omega)]
  constructor
  · intro h
    simp only [h, BitVec.getLsbD_zero] at hbit
    exact ⟨(hbit (i := 0) (by omega)).symm, (hbit (i := 1) (by omega)).symm, (hbit (i := 2) (by omega)).symm⟩
  · rintro ⟨h1, h2, h3⟩
    apply BitVec.eq_of_getLsbD_eq
    intro i hi
    rw [hbit hi, BitVec.getLsbD_zero]
    interval_cases i <;> assumption

theorem DecCtx.acc21_starts_iff (c : DecCtx) :
    (c.acc21.getLsbD 0 && decide (c.acc21.extractLsb' 1 3 = 0#3)) = true ↔ c.rc6Starts := by
  rw [Bool.and_eq_true, decide_eq_true_iff, c.acc21_mode_iff, c.acc21_getLsbD (by omega), rc6Starts]

theorem rc6Repeat_iff (c : DecCtx) (pid : Pid) (address command : Word) (tog : Bool) :
    rc6Repeat c pid address command tog = true
      ↔ c.message.protocol = pid ∧ c.message.address = address ∧ c.message.command = command ∧ c.prevToggle = tog := by
  simp only [rc6Repeat, Bool.and_eq_true, decide_eq_true_iff, and_assoc]

theorem interpretRc6_fails {c : DecCtx} (h : ¬ c.rc6Starts) (pid : Pid) : interpretRc6 pid c = none :=
  if_neg (mt c.acc21_starts_iff.1 h)

/-- What the RC6 interpret writes: the two fields in reversed order, the repeat flag and the toggle in bit 4. -/
theorem interpretRc6_succeeds {c : DecCtx} (h : c.rc6Starts) (pid : Pid) :
    ∃ address command : Word,
      interpretRc6 pid c = some (({ c with prevToggle := c.data.testBit 4 }).setMessage pid address command
        (rc6Repeat c pid address command (c.data.testBit 4)))
      ∧ (∀ i, address.getLsbD i = (decide (i < 8) && c.data.testBit (12 - i)))
      ∧ (∀ i, command.getLsbD i = (decide (i < 8) && c.data.testBit (20 - i))) := by
  refine ⟨_, _, ?_, c.acc21_field_getLsbD (k := 5) (by omega), c.acc21_field_getLsbD (k := 13) (by omega)⟩
  rw [← c.acc21_getLsbD (show 4 < 21 by omega)]
  exact if_pos (c.acc21_starts_iff.2 h)

theorem accByte_zero_getLsbD (d : Word) (i : Nat) : (accByte d 0).getLsbD i = (decide (i < 8) && d.getLsbD i) := by
  rw [accByte, BitVec.getLsbD_extractLsb', Nat.mul_zero, Nat.zero_add]

/-- The RC6 frame from bit 0 up: start, mode, toggle, address, command (R153). -/
theorem packRc6_bits (toggle : Bool) (address command : Word) (i : Nat) :
    (packRc6 toggle address command).toNat.testBit i =
      if i = 0 then true
      else if i < 4 then false
      else if i = 4 then toggle
      else if i < 13 then address.getLsbD (12 - i)
      else if i < 21 then command.getLsbD (20 - i)
      else false := by
  simp only [packRc6, BitVec.testBit_toNat, BitVec.getLsbD_append, rev8_getLsbD, accByte_zero_getLsbD]
  obtain rfl | hmode | rfl | haddr | hcmd | hend :
      i = 0 ∨ (1 ≤ i ∧ i < 4) ∨ i = 4 ∨ (5 ≤ i ∧ i < 13) ∨ (13 ≤ i ∧ i < 21) ∨ 21 ≤ i := by omega
  · rfl
  · simp (disch := omega) only [if_pos, if_neg, BitVec.getLsbD_zero]
  · simp
  · have hbit : 7 - (i - 1 - 3 - 1) = 12 - i := by omega
    simp (disch := omega) only [if_pos, if_neg, decide_eq_true, Bool.true_and, hbit]
  · have hbit : 7 - (i - 1 - 3 - 1 - 8) = 20 - i := by omega
    simp (disch := omega) only [if_pos, if_neg, decide_eq_true, Bool.true_and, hbit]
  · simp (disch := omega) only [if_neg, decide_eq_false, Bool.false_and]

theorem packRc6_address_bit (toggle : Bool) (address command : Word) {i : Nat} (hi : i < 8) :
    (packRc6 toggle address command).toNat.testBit (12 - i) = address.getLsbD i := by
  rw [packRc6_bits, show 12 - (12 - i) = i by omega]
  simp (disch := omega) only [if_pos, if_neg]

theorem packRc6_command_bit (toggle : Bool) (address command : Word) {i : Nat} (hi : i < 8) :
    (packRc6 toggle address command).toNat.testBit (20 - i) = command.getLsbD i := by
  rw [packRc6_bits, show 20 - (20 - i) = i by omega]
  simp (disch := omega) only [if_pos, if_neg]

/-! ## Interpret of a packed message (R154) -/

section
variable (pid : Pid) (c : DecCtx) {address command : Word}

theorem interpretNec_packNec (ha : address.toNat < 256) (hc : command.toNat < 256) :
    interpretNec pid { c with data := (packNec address command).toNat }
      = some (({ c with data := (packNec address command).toNat }).setMessage pid address command false) := by
  simp only [interpretNec, DecCtx.acc32_packed]
  simp only [packNec, commandChecks_bytes, accByte_bytes, BitVec.not_not, decide_true,
    Bool.and_self, if_true, setWidth_accByte ha, setWidth_accByte hc]

/-- The address must not complement itself, or the payload is a NEC one (R142, R145). -/
theorem interpretNecExt_packNecExt (ha : address.toNat < 65536) (hc : command.toNat < 256)
    (hne : accByte address 0 ≠ ~~~ accByte address 1) :
    interpretNecExt pid { c with data := (packNecExt address command).toNat }
      = some (({ c with data := (packNecExt address command).toNat }).setMessage pid address command false) := by
  simp only [interpretNecExt, DecCtx.acc32_packed]
  simp only [packNecExt, commandChecks_bytes, accByte_bytes, BitVec.not_not, decide_true,
    decide_eq_true hne, Bool.and_self, if_true, setWidth_accBytes ha, setWidth_accByte hc]

theorem interpretSamsung32_packSamsung32 (ha : address.toNat < 256) (hc : command.toNat < 256) :
    interpretSamsung32 pid { c with data := (packSamsung32 address command).toNat }
      = some (({ c with data := (packSamsung32 address command).toNat }).setMessage pid address command false) := by
  simp only [interpretSamsung32, DecCtx.acc32_packed]
  simp only [packSamsung32, commandChecks_bytes, accByte_bytes, BitVec.not_not, decide_true,
    Bool.and_self, if_true, setWidth_accByte ha, setWidth_accByte hc]

/-- A word that reads eight bits, and no more, is the field that those bits spell. -/
theorem eq_of_reads_byte {x y : Word} {bit : Nat → Bool} (hx : ∀ i, x.getLsbD i = (decide (i < 8) && bit i))
    (hy : y.toNat < 256) (hbit : ∀ i < 8, bit i = y.getLsbD i) : x = y := by
  apply BitVec.eq_of_getLsbD_eq
  intro i _
  rw [hx]
  by_cases hi : i < 8
  · rw [decide_eq_true hi, Bool.true_and, hbit i hi]
  · have habove : y.getLsbD i = false :=
      Nat.testBit_lt_two_pow (hy.trans_le (Nat.pow_le_pow_right Nat.two_pos (Nat.le_of_not_lt hi)))
    rw [decide_eq_false hi, Bool.false_and, habove]

/-- Reversed twice, the fields are in their own order. -/
theorem interpretRc6_packRc6 (toggle : Bool) (ha : address.toNat < 256) (hc : command.toNat < 256) :
    ∃ rep, interpretRc6 pid { c with data := (packRc6 toggle address command).toNat }
      = some (({ c with data := (packRc6 toggle address command).toNat, prevToggle := toggle }).setMessage pid address
          command rep) := by
  have hbits := packRc6_bits toggle address command
  obtain ⟨address', command', heq, haddr, hcmd⟩ :=
    interpretRc6_succeeds (c := { c with data := (packRc6 toggle address command).toNat }) ⟨hbits 0, hbits 1, hbits 2, hbits 3⟩ pid
  obtain rfl : address' = address := eq_of_reads_byte haddr ha fun _ => packRc6_address_bit toggle address command
  obtain rfl : command' = command := eq_of_reads_byte hcmd hc fun _ => packRc6_command_bit toggle _ command
  rw [hbits 4] at heq
  exact ⟨_, heq⟩

end

end Sys2Proof.Machine

namespace Sys2Proof.Proofs

open Sys2Proof Sys2Proof.Machine

/-- Settles O38: the four bytes of the accumulator are those of the register, and the checks on them are sums. -/
theorem byteInterprets : Obligations.ByteInterprets := by
  intro pid c b message hb hmessage
  have hbyte : ∀ {k}, k < 4 → (accByte c.acc32 k).toNat = b k := fun hk => (c.accByte_acc32 hk).trans (hb _).symm
  have h0 := hbyte (k := 0) (by omega)
  have h1 := hbyte (k := 1) (by omega)
  have h2 := hbyte (k := 2) (by omega)
  have h3 := hbyte (k := 3) (by omega)
  have hcheck : commandChecks c.acc32 = true ↔ b 2 + b 3 = 255 := by rw [commandChecks_iff, h2, h3]
  have hcomp : accByte c.acc32 0 = ~~~ accByte c.acc32 1 ↔ b 0 + b 1 = 255 := by rw [eq_complement_iff, h0, h1]
  have hsame : accByte c.acc32 0 = accByte c.acc32 1 ↔ b 0 = b 1 := by rw [← BitVec.toNat_inj, h0, h1]
  have hpair : (accByte c.acc32 1 ++ accByte c.acc32 0).setWidth 32 = BitVec.ofNat 32 (256 * b 1 + b 0) := by
    rw [← BitVec.ofNat_toNat, toNat_append_byte, h0, h1]
  simp only [interpretNec, interpretNecExt, interpretSamsung32, Bool.and_eq_true, decide_eq_true_iff, hcheck, hcomp, hsame, ne_eq,
    hpair, ← BitVec.ofNat_toNat, h0, h2, hmessage, DecCtx.setMessage, and_self]

/-- Settles O39, from the bits of the accumulator. -/
theorem rc6Interpret : Obligations.Rc6Interpret := by
  refine fun pid c => ⟨fun h => interpretRc6_fails h pid, fun h0 h1 h2 h3 => ?_⟩
  obtain ⟨address, command, heq, haddr, hcmd⟩ := interpretRc6_succeeds ⟨h0, h1, h2, h3⟩ pid
  exact ⟨_, heq, rfl, rfl, haddr, hcmd, rc6Repeat_iff c pid address command _⟩

/-- Settles O40: behind the same command check, one asks that the address complements itself, the other that it does not. -/
theorem necAndNecExtAreExclusive : Obligations.NecAndNecExtAreExclusive := by
  intro p q a b hdata
  have hacc : b.acc32 = a.acc32 := congrArg (BitVec.ofNat 32) hdata.symm
  refine ⟨fun hc => ?_, fun hc => ⟨?_, ?_⟩⟩
  · rw [interpretNec_isSome, interpretNecExt_isSome, hacc, hc, Bool.true_and, Bool.true_and, decide_not]
    exact Bool.self_ne_not _
  · rw [← Option.not_isSome_iff_eq_none, interpretNec_isSome, hc, Bool.false_and]
    exact Bool.false_ne_true
  · rw [← Option.not_isSome_iff_eq_none, interpretNecExt_isSome, hacc, hc, Bool.false_and]
    exact Bool.false_ne_true

/-- Settles O41: each pack is a concatenation of four bytes. -/
theorem bytePacks : Obligations.BytePacks := by
  intro address command
  have hnot : ∀ x : Byte, (~~~ x).toNat = 255 - x.toNat := fun x => BitVec.toNat_not
  simp only [packNec, packNecExt, packSamsung32, toNat_bytes, hnot, accByte_toNat]
  omega

/-- Settles O42: an RC6 pack writes the packed frame and the inverted toggle, and the frame is known bit by bit. -/
theorem rc6Pack : Obligations.Rc6Pack := by
  intro r e msg hl
  have hpack : packInto r e msg
      = { e with data := (packRc6 e.toggle msg.address msg.command).toNat, toggle := !e.toggle } := by
    simp only [packInto, hl, EncCtx.flipToggle]
  rw [hpack]
  exact ⟨rfl, packRc6_bits e.toggle msg.address msg.command⟩

/-- Settles O43, layout by layout. -/
theorem interpretInvertsPack : Obligations.InterpretInvertsPack := by
  intro r pid c e msg hvalid
  unfold validMessage at hvalid
  unfold interpret packInto
  cases hl : r.layout with
  | nec =>
    simp only [hl] at hvalid ⊢
    obtain ⟨ha, hc⟩ := hvalid
    exact ⟨_, interpretNec_packNec pid c ha hc, rfl, rfl, rfl, fun _ => ⟨rfl, rfl⟩⟩
  | necExt =>
    simp only [hl] at hvalid ⊢
    obtain ⟨ha, hc, hne⟩ := hvalid
    exact ⟨_, interpretNecExt_packNecExt pid c ha hc hne, rfl, rfl, rfl, fun _ => ⟨rfl, rfl⟩⟩
  | samsung32 =>
    simp only [hl] at hvalid ⊢
    obtain ⟨ha, hc⟩ := hvalid
    exact ⟨_, interpretSamsung32_packSamsung32 pid c ha hc, rfl, rfl, rfl, fun _ => ⟨rfl, rfl⟩⟩
  | rc6 =>
    simp only [hl] at hvalid ⊢
    obtain ⟨ha, hc⟩ := hvalid
    obtain ⟨rep, heq⟩ := interpretRc6_packRc6 pid c e.toggle ha hc
    exact ⟨_, heq, rfl, rfl, rfl, fun h => absurd rfl h⟩
  | ext k =>
    simp only [hl] at hvalid

end Sys2Proof.Proofs
end

section
/-! PROOFS. The rules of 43_encode_engine.md: the encode engine one step at a time (R171 to R180), the cycles it emits in
closed form (R179, R181), the channel (R182), and what a decoder context hears of a frame of either codec (R183, R184). -/

namespace Sys2Proof.Machine

/-! ## One step of the encode engine, state by state (R171 to R179) -/

section
variable {r : RomRow} {e e' : EncCtx} {t : Timing}

theorem encodeStep_space (hs : e.state = .space) : encodeStep r e = some ({ e with timingsEncoded := 1, state := .preamble },
    { duration := r.silence, level := false, done := false }) := by
  simp only [encodeStep, hs, encodeSpace]

theorem encodeStep_preamble (hs : e.state = .preamble) : encodeStep r e = encodePreamble r e := by
  simp only [encodeStep, hs]

theorem encodeStep_preambleMark (hs : e.state = .preamble) (ht : e.timingsEncoded = 1) :
    encodeStep r e = some ({ e with timingsEncoded := 2 }, { duration := r.preambleMark, level := true, done := false }) :=
  (encodeStep_preamble hs).trans (if_pos ht)

theorem encodeStep_preambleSpace (hs : e.state = .preamble) (ht : e.timingsEncoded = 2) :
    encodeStep r e = some ({ e with timingsEncoded := 3, bitsEncoded := 0, state := .encode },
      { duration := r.preambleSpace, level := false, done := false }) := by
  rw [encodeStep_preamble hs, encodePreamble, if_neg (by omega), if_pos ht]

theorem encodeStep_pdwm (hs : e.state = .encode) (hc : r.codec = .pdwm) : encodeStep r e = encodePdwm r e := by
  simp only [encodeStep, hs, encodePayload, hc]

theorem encodeStep_manchester (hs : e.state = .encode) (hc : r.codec = .manchester) : encodeStep r e = encodeManchester r e := by
  simp only [encodeStep, hs, encodePayload, hc]

theorem encodeStep_repeat (hs : e.state = .encodeRepeat) : encodeStep r e = encodeRepeat r e := by
  simp only [encodeStep, hs]

/-- One step of the payload: it completes the payload with `Done`, or goes on in state Encode (R175 to R178). -/
theorem encodePayload_cases (h : encodePayload r e = some (e', t)) :
    (t.done = true ∧ e' = completePayload r e) ∨ (t.done = false ∧ e'.state = e.state) := by
  unfold encodePayload at h
  split at h
  · obtain ⟨-, ⟨-, he, rfl⟩ | ⟨-, -, rfl, rfl⟩ | ⟨-, -, rfl, rfl⟩⟩ := encodePdwm_cases h
    · exact .inl ⟨rfl, he⟩
    · exact .inr ⟨rfl, rfl⟩
    · exact .inr ⟨rfl, rfl⟩
  · obtain ⟨-, -, -, -, ⟨-, rfl, hd⟩ | ⟨-, -, he, hd⟩ | ⟨-, -, rfl, hd⟩⟩ := encodeManchester_cases h
    · exact .inr ⟨hd, rfl⟩
    · exact .inl ⟨hd, he⟩
    · exact .inr ⟨hd, rfl⟩

/-- What a step with status `Done` can be: the end of the payload, or of the repeat pattern (R178 to R180). -/
theorem encodeStep_done (h : encodeStep r e = some (e', t)) (hd : t.done = true) :
    (e.state = .encode ∧ e' = completePayload r e)
    ∨ (e.state = .encodeRepeat ∧ e.timingsEncoded + 1 = r.repLen ∧ e' = { e with timingsEncoded := 0 }) := by
  cases hs : e.state with
  | space =>
    rw [encodeStep_space hs] at h
    cases h
    cases hd
  | preamble =>
    rw [encodeStep_preamble hs, encodePreamble] at h
    split_ifs at h <;> cases h <;> cases hd
  | encode =>
    simp only [encodeStep, hs] at h
    obtain ⟨-, he⟩ | ⟨hnot, -⟩ := encodePayload_cases h
    · exact .inl ⟨rfl, he⟩
    · simp [hnot] at hd
  | encodeRepeat =>
    rw [encodeStep_repeat hs] at h
    obtain ⟨-, -, ⟨hlast, he, -⟩ | ⟨-, -, hnot⟩⟩ := encodeRepeat_cases h
    · exact .inr ⟨rfl, hlast, by rw [he, hs]⟩
    · simp [hnot] at hd

/-- A step that ends in state Preamble has emitted the silence or the preamble's Mark (R172, R173). -/
theorem encodeStep_to_preamble (h : encodeStep r e = some (e', t)) (hs' : e'.state = .preamble) :
    e'.timingsEncoded = 1 ∨ e'.timingsEncoded = 2 := by
  cases hs : e.state with
  | space =>
    rw [encodeStep_space hs] at h
    cases h
    exact .inl rfl
  | preamble =>
    rw [encodeStep_preamble hs, encodePreamble] at h
    split_ifs at h <;> cases h
    · exact .inr rfl
    · cases hs'
  | encode =>
    simp only [encodeStep, hs] at h
    obtain ⟨-, rfl⟩ | ⟨-, he⟩ := encodePayload_cases h
    · rw [completePayload_state] at hs'
      split_ifs at hs'
    · rw [he, hs] at hs'
      cases hs'
  | encodeRepeat =>
    rw [encodeStep_repeat hs] at h
    obtain ⟨-, -, ⟨-, rfl, -⟩ | ⟨-, rfl, -⟩⟩ := encodeRepeat_cases h <;> exact nomatch hs.symm.trans hs'

/-- The encoder stands at the beginning of a cycle: of a frame, or of the repeat pattern of a row that has one. -/
def EncCtx.beginsCycle (r : RomRow) (e : EncCtx) : Prop :=
  e.state = .space ∨ (e.state = .encodeRepeat ∧ e.timingsEncoded = 0 ∧ 0 < r.repLen)

theorem completePayload_beginsCycle (r : RomRow) (e : EncCtx) : (completePayload r e).beginsCycle r := by
  by_cases hrep : 0 < r.repLen
  · exact .inr ⟨if_pos hrep, rfl, hrep⟩
  · exact .inl (if_neg hrep)

/-- After `Done` a new cycle begins (R178, R179). -/
theorem beginsCycle_of_done (h : encodeStep r e = some (e', t)) (hd : t.done = true) : e'.beginsCycle r := by
  obtain ⟨-, rfl⟩ | ⟨hs, hlast, rfl⟩ := encodeStep_done h hd
  · exact completePayload_beginsCycle r e
  · exact .inr ⟨hs, rfl, by omega⟩

/-- The first timing of a cycle is a Space without `Done`: the silence, or the gap of the pattern (R172, R179). -/
theorem EncCtx.beginsCycle.firstTiming (h : e.beginsCycle r) (hr : rowOk r = true) :
    ∃ e', encodeStep r e = some (e',
      { duration := if e.state = .space then r.silence else r.repGap, level := false, done := false }) := by
  obtain hs | ⟨hs, ht, hrep⟩ := h
  · exact ⟨_, by rw [encodeStep_space hs, if_pos hs]⟩
  · have hlong : 0 + 1 ≠ r.repLen ∧ 0 + 1 < r.repLen := by have := rowOk_repeat hr; omega
    exact ⟨{ e with timingsEncoded := 0 + 1 }, by
      simp [encodeStep_repeat hs, encodeRepeat, repeatElement, ht, hs, hlong.1, hlong.2]⟩

end

/-- After an `ENC_LOAD` of a registered protocol the block serves on, bound to the row, at the beginning of a frame (R170). -/
theorem encLoad_ready {s t : State} {r : RomRow} {protocol : Pid} {address command : Word} {rep : Bool} (hs : s.serving = true)
    (hr : romRow s protocol = some r) (hx : exec (.encLoad protocol address command rep) s = .next t) :
    t.serving = true ∧ t.encBound ≠ pidNone ∧ romRow t t.encBound = some r ∧ t.enc.state = .space := by
  obtain ⟨hrom, -⟩ := (serving_iff s).1 hs
  have hbound : protocol ≠ pidNone := by
    rintro rfl
    exact absurd (romOk_lt hrom hr) (by decide)
  have hserved := served_of_exec hs hx
  cases hserved with
  | read h => cases h
  | loadFault h => cases h.symm.trans hr
  | loaded => exact ⟨hs, hbound, hr, rfl⟩

/-- The engine's reset loads the packed message and stands at the beginning of a frame (R170). -/
theorem encReset_loaded {r : RomRow} {bound : Pid} {e0 e : EncCtx} {msg : Message} (h : encReset bound r e0 msg = .ok e) :
    e = e0.loaded r msg := by
  unfold encReset at h
  split_ifs at h
  exact (Except.ok.inj h).symm

/-! ## Sequences of timings (R181) -/

section
variable {r : RomRow} {e e1 e2 : EncCtx} {t : Timing} {ts ts1 ts2 : List Timing} {n m : Nat}

theorem emit_succ (h : encodeStep r e = some (e1, t)) (hrest : emit r n e1 = some (ts, e2)) :
    emit r (n + 1) e = some (t :: ts, e2) := by
  simp only [emit, h, hrest]

theorem emit_one (h : encodeStep r e = some (e1, t)) : emit r 1 e = some ([t], e1) := emit_succ h rfl

theorem emit_add (h : emit r n e = some (ts1, e1)) (hrest : emit r m e1 = some (ts2, e2)) :
    emit r (n + m) e = some (ts1 ++ ts2, e2) := by
  induction n generalizing e ts1 with
  | zero =>
    cases h
    rwa [Nat.zero_add]
  | succ n ih =>
    simp only [emit] at h
    split at h
    · cases h
    · split at h
      · cases h
      · rename_i hstep _ _ _ htail
        cases h
        rw [Nat.add_right_comm]
        exact emit_succ hstep (ih htail)

end

/-! ## The first cycle in closed form (R181) -/

section
variable {r : RomRow} {e : EncCtx}

theorem emit_frameHead (hs : e.state = .space) :
    emit r 3 e = some (frameHead r, { e with state := .encode, timingsEncoded := 3, bitsEncoded := 0 }) :=
  emit_succ (encodeStep_space hs) (emit_succ (encodeStep_preambleMark rfl rfl) (emit_one (encodeStep_preambleSpace rfl rfl)))

/-- The two timings of a bit of a PDWM payload (R176). -/
theorem emit_pdwmBit (hc : r.codec = .pdwm) (hs : e.state = .encode) (hn : e.bitsEncoded < r.databitLen)
    (ht : e.timingsEncoded = 3 + 2 * e.bitsEncoded) :
    emit r 2 e = some (pdwmPayload r e.data e.bitsEncoded 1,
      { e with timingsEncoded := e.timingsEncoded + 2, bitsEncoded := e.bitsEncoded + 1 }) := by
  have hne : e.bitsEncoded ≠ r.databitLen := hn.ne
  have hmark : encodeStep r e = some ({ e with timingsEncoded := e.timingsEncoded + 1 },
      { duration := if e.data.testBit e.bitsEncoded then r.bit1Mark else r.bit0Mark, level := true, done := false }) := by
    rw [encodeStep_pdwm hs hc, encodePdwm, if_neg (by omega), if_neg hne, if_pos hn]
    exact if_pos (by omega)
  refine emit_succ hmark (emit_one ?_)
  rw [encodeStep_pdwm (e := { e with timingsEncoded := e.timingsEncoded + 1 }) hs hc, encodePdwm]
  rw [if_neg (show ¬ e.timingsEncoded + 1 < 3 by omega), if_neg hne, if_pos hn]
  exact if_neg (show ¬ (e.timingsEncoded + 1 - 3) % 2 = 0 by omega)

theorem emit_pdwmPayload (hc : r.codec = .pdwm) {n : Nat} (hs : e.state = .encode) (hn : e.bitsEncoded + n = r.databitLen)
    (ht : e.timingsEncoded = 3 + 2 * e.bitsEncoded) :
    emit r (2 * n) e = some (pdwmPayload r e.data e.bitsEncoded n,
      { e with timingsEncoded := 3 + 2 * r.databitLen, bitsEncoded := r.databitLen }) := by
  induction n generalizing e with
  | zero =>
    have hlen : r.databitLen = e.bitsEncoded := by omega
    rw [hlen, ← ht]
    rfl
  | succ n ih =>
    rw [Nat.mul_succ, Nat.add_comm]
    exact emit_add (emit_pdwmBit hc hs (by omega) ht)
      (ih (e := { e with timingsEncoded := _, bitsEncoded := _ }) hs (by simp only; omega) (by simp only; omega))

/-- The stop Mark completes a PDWM payload (R176, R178). -/
theorem encodeStep_stopMark (hc : r.codec = .pdwm) (hs : e.state = .encode) (hn : e.bitsEncoded = r.databitLen)
    (ht : 3 ≤ e.timingsEncoded) :
    encodeStep r e = some (completePayload r e, { duration := r.bit1Mark, level := true, done := true }) := by
  rw [encodeStep_pdwm hs hc, encodePdwm, if_neg (by omega), if_pos hn]

/-- The two halves of a bit of a Manchester payload; the last bit completes it (R177, R178). -/
theorem emit_manchesterBit (hc : r.codec = .manchester) (hs : e.state = .encode) (hn : e.bitsEncoded < r.databitLen)
    (ht : e.timingsEncoded = 3 + 2 * e.bitsEncoded) :
    emit r 2 e = some (manchesterPayload r e.data e.bitsEncoded 1, if e.bitsEncoded + 1 = r.databitLen then completePayload r e
      else { e with timingsEncoded := e.timingsEncoded + 2, bitsEncoded := e.bitsEncoded + 1 }) := by
  have hfirst : encodeStep r e = some ({ e with timingsEncoded := e.timingsEncoded + 1 },
      { duration := halfDuration r e.bitsEncoded, level := e.data.testBit e.bitsEncoded ^^ r.manInv, done := false }) := by
    have hj : (e.timingsEncoded - 3) % 2 = 0 := by omega
    rw [encodeStep_manchester hs hc, encodeManchester, if_neg (by omega), if_pos hn]
    simp [hj, halfLevel]
  refine emit_succ hfirst (emit_one ?_)
  have hj : (e.timingsEncoded - 2) % 2 = 1 := by omega
  rw [encodeStep_manchester (e := { e with timingsEncoded := e.timingsEncoded + 1 }) hs hc, encodeManchester]
  rw [if_neg (show ¬ e.timingsEncoded + 1 < 3 by omega), if_pos hn]
  by_cases hlast : e.bitsEncoded + 1 = r.databitLen
  · simp [hj, hlast, halfLevel, completePayload]
  · simp [hj, hlast, halfLevel]

theorem emit_manchesterPayload (hc : r.codec = .manchester) {n : Nat} (hs : e.state = .encode)
    (hn : e.bitsEncoded + (n + 1) = r.databitLen) (ht : e.timingsEncoded = 3 + 2 * e.bitsEncoded) :
    emit r (2 * (n + 1)) e = some (manchesterPayload r e.data e.bitsEncoded (n + 1), completePayload r e) := by
  induction n generalizing e with
  | zero => exact (emit_manchesterBit hc hs (by omega) ht).trans (by rw [if_pos hn])
  | succ n ih =>
    have hbit := emit_manchesterBit hc hs (by omega) ht
    rw [if_neg (by omega)] at hbit
    rw [Nat.mul_succ, Nat.add_comm]
    exact emit_add hbit (ih (e := { e with timingsEncoded := _, bitsEncoded := _ }) hs (by simp only; omega) (by simp only; omega))

/-- A cycle that begins in state Space is the closed form, and ends where the next cycle begins (R178, R181). -/
theorem emit_frame (hr : rowOk r = true) (hs : e.state = .space) :
    emit r (frameLength r) e = some (frameTimings r e.data, completePayload r e) := by
  have hhead := emit_frameHead (r := r) hs
  cases hc : r.codec with
  | pdwm =>
    simp only [frameLength, frameTimings, hc]
    rw [show 2 * r.databitLen + 4 = 3 + 2 * r.databitLen + 1 by omega]
    exact emit_add (emit_add hhead (emit_pdwmPayload hc rfl (Nat.zero_add _) rfl))
      (emit_one (encodeStep_stopMark hc rfl rfl (by simp only; omega)))
  | manchester =>
    obtain ⟨n, hn⟩ : ∃ n, r.databitLen = n + 1 := ⟨r.databitLen - 1, by have := rowOk_databitLen hr; omega⟩
    simp only [frameLength, frameTimings, hc]
    rw [Nat.add_comm, hn]
    exact emit_add hhead (emit_manchesterPayload hc rfl (by simp only; omega) rfl)

theorem pdwmPayload_length (r : RomRow) (data i n : Nat) : (pdwmPayload r data i n).length = 2 * n := by
  induction n generalizing i with
  | zero => rfl
  | succ n ih => simp [pdwmPayload, ih, Nat.mul_succ]

theorem manchesterPayload_length (r : RomRow) (data i n : Nat) : (manchesterPayload r data i n).length = 2 * n := by
  induction n generalizing i with
  | zero => rfl
  | succ n ih => simp [manchesterPayload, ih, Nat.mul_succ]

theorem frameTimings_length (r : RomRow) (data : Nat) : (frameTimings r data).length = frameLength r := by
  cases hc : r.codec with
  | pdwm =>
    simp only [frameTimings, frameLength, hc, List.length_append, pdwmPayload_length, frameHead, List.length_cons, List.length_nil]
    omega
  | manchester =>
    simp only [frameTimings, frameLength, hc, List.length_append, manchesterPayload_length, frameHead, List.length_cons,
      List.length_nil]
    omega

theorem pdwmPayload_done {data i n j : Nat} {t : Timing} (h : (pdwmPayload r data i n)[j]? = some t) : t.done = false := by
  induction n generalizing i j with
  | zero => simp [pdwmPayload] at h
  | succ n ih =>
    match j with
    | 0 | 1 =>
      simp only [pdwmPayload, List.getElem?_cons_zero, List.getElem?_cons_succ, Option.some.injEq] at h
      rw [← h]
    | j + 2 => exact ih h

/-- In a Manchester payload `Done` stands on the second half of the row's last bit. -/
theorem manchesterPayload_done {data i n j : Nat} {t : Timing} (h : (manchesterPayload r data i n)[j]? = some t) :
    t.done = true ↔ 2 * i + j + 1 = 2 * r.databitLen := by
  induction n generalizing i j with
  | zero => simp [manchesterPayload] at h
  | succ n ih =>
    match j with
    | 0 | 1 =>
      simp only [manchesterPayload, List.getElem?_cons_zero, List.getElem?_cons_succ, Option.some.injEq] at h
      rw [← h]
      simp
      omega
    | j + 2 =>
      rw [ih h]
      omega

theorem frameHead_done {j : Nat} {t : Timing} (h : (frameHead r)[j]? = some t) : t.done = false := by
  match j with
  | 0 | 1 | 2 =>
    simp only [frameHead, List.getElem?_cons_zero, List.getElem?_cons_succ, Option.some.injEq] at h
    rw [← h]
  | j + 3 => simp [frameHead] at h

/-- `Done` stands on the last timing of the cycle only (R180). -/
theorem frameTimings_done (hr : rowOk r = true) {data i : Nat} {t : Timing} (h : (frameTimings r data)[i]? = some t) :
    t.done = true ↔ i + 1 = frameLength r := by
  have hlen := rowOk_databitLen hr
  have hhead : (frameHead r).length = 3 := rfl
  cases hc : r.codec with
  | pdwm =>
    simp only [frameTimings, frameLength, hc] at h ⊢
    rw [List.append_assoc, List.getElem?_append, List.getElem?_append, hhead, pdwmPayload_length, List.getElem?_singleton] at h
    split_ifs at h with hi hj
    · rw [frameHead_done h, Bool.false_eq_true, false_iff]
      omega
    · rw [pdwmPayload_done h, Bool.false_eq_true, false_iff]
      omega
    · cases h
      simp only [true_iff]
      omega
  | manchester =>
    simp only [frameTimings, frameLength, hc] at h ⊢
    rw [List.getElem?_append, hhead] at h
    split_ifs at h with hi
    · rw [frameHead_done h, Bool.false_eq_true, false_iff]
      omega
    · rw [manchesterPayload_done h]
      omega

/-- No half is cut to fit the word that carries it (R102, R177). -/
theorem halfDuration_toNat (hr : rowOk r = true) (hc : r.codec = .manchester) (i : Nat) :
    (halfDuration r i).toNat = halfWidth r i * r.bitUnit.toNat :=
  (BitVec.toNat_ofNat _ _).trans (Nat.mod_eq_of_lt (halfDuration_fits hr hc i))

end

/-! ## The repeat pattern (R179) -/

section
variable {r : RomRow} {e : EncCtx} (hr : rowOk r = true) (hpos : 0 < r.repLen)
include hr hpos

theorem repeatTimings_length : (repeatTimings r).length = r.repLen := by
  have := rowOk_repeat hr
  simp only [repeatTimings, List.length_cons, List.length_mapIdx]
  omega

/-- Element `q` of the pattern is the step of a context that stands at `q`; after the last one it stands at 0. -/
theorem encodeStep_repeatElement (hs : e.state = .encodeRepeat) {t : Timing}
    (ht : (repeatTimings r)[e.timingsEncoded]? = some t) :
    encodeStep r e
      = some ({ e with timingsEncoded := if e.timingsEncoded + 1 = r.repLen then 0 else e.timingsEncoded + 1 }, t) := by
  have hlt := (List.getElem?_eq_some_iff.1 ht).1
  rw [repeatTimings_length hr hpos] at hlt
  rw [encodeStep_repeat hs, encodeRepeat]
  have hrep := rowOk_repeat hr
  cases hq : e.timingsEncoded with
  | zero =>
    simp only [hq, repeatTimings, List.getElem?_cons_zero, Option.some.injEq] at ht
    simp [repeatElement, ← ht, show 0 + 1 ≠ r.repLen by omega, show 0 + 1 < r.repLen by omega]
  | succ q =>
    rw [hq] at hlt
    simp only [hq, repeatTimings, List.getElem?_cons_succ, List.getElem?_mapIdx, Option.map_eq_some_iff] at ht
    obtain ⟨elem, helem, rfl⟩ := ht
    simp only [repeatElement, Nat.succ_ne_zero, if_false, Nat.add_sub_cancel, helem]
    split_ifs with hlast
    · simp [show q + 2 = r.repLen from hlast]
    · simp [show q + 2 ≠ r.repLen from hlast]
    · omega

/-- From element `q` on, the rest of the pattern is emitted, and the context is back at 0. -/
theorem emit_repeat_from {ts : List Timing} (hs : e.state = .encodeRepeat)
    (hts : (repeatTimings r).drop e.timingsEncoded = ts) (hne : ts ≠ []) :
    emit r ts.length e = some (ts, { e with timingsEncoded := 0 }) := by
  induction ts generalizing e with
  | nil => exact absurd rfl hne
  | cons t ts ih =>
    have ht : (repeatTimings r)[e.timingsEncoded]? = some t := by rw [← List.head?_drop, hts]; rfl
    have htail : (repeatTimings r).drop (e.timingsEncoded + 1) = ts := by rw [← List.tail_drop, hts]; rfl
    have hstep := encodeStep_repeatElement hr hpos hs ht
    have hcount := congrArg List.length htail
    rw [List.length_drop, repeatTimings_length hr hpos] at hcount
    cases ts with
    | nil =>
      have hlt := (List.getElem?_eq_some_iff.1 ht).1
      rw [repeatTimings_length hr hpos] at hlt
      rw [List.length_nil] at hcount
      rw [if_pos (by omega)] at hstep
      exact emit_one hstep
    | cons t' ts =>
      rw [List.length_cons] at hcount
      rw [if_neg (by omega)] at hstep
      exact emit_succ hstep (ih (e := { e with timingsEncoded := e.timingsEncoded + 1 }) hs htail (List.cons_ne_nil _ _))

end

/-! ## The channel (R182) -/

/-- What `Merge` begins with has the level of the pulse that was open. -/
theorem mergeOpen_head (d : Nat) (l : Level) (ps : List Pulse) :
    ∃ d' rest, mergeOpen d l ps = { duration := d', level := l } :: rest := by
  induction ps generalizing d with
  | nil => exact ⟨d, [], rfl⟩
  | cons p rest ih =>
    unfold mergeOpen
    split
    · exact ih _
    · exact ⟨_, _, rfl⟩

theorem mergeOpen_isChain (d : Nat) (l : Level) (ps : List Pulse) :
    List.IsChain (fun a b : Pulse => a.level ≠ b.level) (mergeOpen d l ps) := by
  induction ps generalizing d l with
  | nil => exact .singleton _
  | cons p rest ih =>
    unfold mergeOpen
    split
    · exact ih _ _
    · rename_i hne
      obtain ⟨d', rest', heq⟩ := mergeOpen_head p.duration p.level rest
      have htail := ih p.duration p.level
      rw [heq] at htail ⊢
      exact .cons_cons (Ne.symm hne) htail

theorem mergeOpen_sum (d : Nat) (l : Level) (ps : List Pulse) :
    ((mergeOpen d l ps).map Pulse.duration).sum = d + (ps.map Pulse.duration).sum := by
  induction ps generalizing d l with
  | nil => simp [mergeOpen]
  | cons p rest ih =>
    unfold mergeOpen
    split
    · rw [ih, List.map_cons, List.sum_cons, Nat.add_assoc]
    · simp [ih]

/-- A pulse that the next one does not continue is closed. -/
theorem mergeOpen_other (d : Nat) {l : Level} {p : Pulse} (h : p.level ≠ l) (rest : List Pulse) :
    mergeOpen d l (p :: rest) = { duration := d, level := l } :: mergeOpen p.duration p.level rest := if_neg h

theorem mergeOpen_same (d : Nat) {l : Level} {p : Pulse} (h : p.level = l) (rest : List Pulse) :
    mergeOpen d l (p :: rest) = mergeOpen (d + p.duration) l rest := if_pos h

theorem mergeOpen_of_isChain {p : Pulse} {ps : List Pulse} (h : List.IsChain (fun a b : Pulse => a.level ≠ b.level) (p :: ps)) :
    mergeOpen p.duration p.level ps = p :: ps := by
  induction ps generalizing p with
  | nil => rfl
  | cons q rest ih =>
    obtain ⟨hne, hrest⟩ := List.isChain_cons_cons.1 h
    rw [mergeOpen_other _ hne.symm, ih hrest]

end Sys2Proof.Machine

namespace Sys2Proof.Proofs

open Sys2Proof Sys2Proof.Machine

/-- Settles O47: one step in each state, and `ENC_LOAD` leaves the engine in state Space. -/
theorem silenceAndPreamble : Obligations.SilenceAndPreamble := by
  refine fun r e => ⟨encodeStep_space, encodeStep_preambleMark, encodeStep_preambleSpace,
    fun e' t h => ⟨encodeStep_to_preamble h, fun hrep hd => ?_⟩, fun s t protocol address command rep hs hr hx => ?_⟩
  · obtain hspace | ⟨-, -, hpos⟩ := beginsCycle_of_done h hd
    · exact hspace
    · omega
  · obtain ⟨hserving, hbound, hrow, hspace⟩ := encLoad_ready hs hr hx
    exact (exec_of_served hserving (.stepped hbound hrow (encodeStep_space hspace)) :)

/-- Settles O48, by what a step with `Done` can be and by the first step of a cycle. -/
theorem doneEndsACycle : Obligations.DoneEndsACycle := by
  intro r e e' t hr h hd
  obtain ⟨e'', hfirst⟩ := (beginsCycle_of_done h hd).firstTiming hr
  obtain ⟨hs, rfl⟩ | ⟨hs, -, rfl⟩ := encodeStep_done h hd
  · exact ⟨.inl hs, rfl, rfl, rfl, fun _ => ⟨rfl, rfl⟩, fun h => (nomatch hs.symm.trans h), e'', _, hfirst, rfl, rfl, rfl⟩
  · exact ⟨.inr hs, rfl, rfl, rfl, fun h => (nomatch hs.symm.trans h), fun _ => hs, e'', _, hfirst, rfl, rfl, rfl⟩

/-- Settles O49: head, payload and stop Mark are emitted one after the other. -/
theorem firstCycleClosedForm : Obligations.FirstCycleClosedForm := by
  intro r bound e0 e msg hr he
  obtain rfl := encReset_loaded he
  exact ⟨emit_frame hr rfl, frameTimings_length r _, fun i t => frameTimings_done hr, halfDuration_toNat hr⟩

/-- Settles O50: the whole pattern is what is left of it from element 0 on. -/
theorem repeatPatternCycles : Obligations.RepeatPatternCycles := by
  intro r e hr hpos hs ht
  have hlen := repeatTimings_length hr hpos
  have h := emit_repeat_from hr hpos (ts := repeatTimings r) hs (by rw [ht, List.drop_zero]) (List.cons_ne_nil _ _)
  rw [hlen] at h
  rw [h, ← ht]

/-- Settles O51, by induction on the pulses behind an open one. -/
theorem mergeAlternates : Obligations.MergeAlternates := by
  intro ps
  cases ps with
  | nil => exact ⟨.nil, rfl, fun _ => rfl⟩
  | cons p rest => exact ⟨mergeOpen_isChain _ _ _, mergeOpen_sum _ _ _, mergeOpen_of_isChain⟩

end Sys2Proof.Proofs
end

section
/-! PROOFS. The round trip of 43_encode_engine.md (R183, R184): what a decoder context hears of a frame, sample by sample, from
the Space before the preamble to the timing that completes the payload. -/

namespace Sys2Proof.Machine

/-! ## Feeding a context (R183) -/

section
variable {r : RomRow} {pid : Pid} {c c1 c2 : DecCtx} {l : Level} {d : Duration} {ms ms' : List Message} {ps qs : List Pulse}

theorem feed_pulse {p : Pulse} {m : Option Message} (h : decodeStep r pid c p.level (BitVec.ofNat 32 p.duration) = .ok (m, c1))
    (hrest : feed r pid qs c1 = .ok (ms, c2)) : feed r pid (p :: qs) c = .ok (m.toList ++ ms, c2) := by
  simp only [feed, h, hrest]

theorem feed_one {p : Pulse} {m : Option Message} (h : decodeStep r pid c p.level (BitVec.ofNat 32 p.duration) = .ok (m, c1)) :
    feed r pid [p] c = .ok (m.toList, c1) := by
  simp only [feed, h, List.append_nil]

theorem feed_append (h : feed r pid ps c = .ok (ms, c1)) (hrest : feed r pid qs c1 = .ok (ms', c2)) :
    feed r pid (ps ++ qs) c = .ok (ms ++ ms', c2) := by
  induction ps generalizing c ms with
  | nil =>
    cases h
    exact hrest
  | cons p ps ih =>
    simp only [feed] at h
    split at h
    · cases h
    · rename_i hstep
      split at h
      · cases h
      · rename_i htail
        cases h
        rw [List.append_assoc]
        exact feed_pulse hstep (ih htail)

/-- A sample that finds the buffer empty is alone in it. -/
theorem sampled_nil (ht : c.timings = []) : c.sampled l d = { c with timings := [d], lastLevel := l } := by
  simp [DecCtx.sampled, ht]

/-- In state Decode a sample that the demodulator only takes in returns nothing (R124). -/
theorem decodeStep_of_ok (hs : c.state = .decode) (hlen : (c.sampled l d).timings.length ≤ 6)
    (h : decodeBits r (c.sampled l d) = (.ok, c1)) : decodeStep r pid c l d = .ok (none, c1) := by
  rw [decodeStep_eq_run hlen, run_decode_ok (c := c.sampled l d) hs hlen h]

theorem decodeStep_nil_of_ok (hs : c.state = .decode) (ht : c.timings = [])
    (h : decodeBits r { c with timings := [d], lastLevel := l } = (.ok, c1)) : decodeStep r pid c l d = .ok (none, c1) :=
  decodeStep_of_ok hs (by simp [sampled_nil ht]) (by rw [sampled_nil ht, h])

/-- A sample on an empty buffer that completes a payload which interprets returns its message (R125). -/
theorem decodeStep_nil_of_ready (hs : c.state = .decode) (ht : c.timings = [])
    (h : decodeBits r { c with timings := [d], lastLevel := l } = (.ready, c1)) (hi : interpret r pid c1 = some c2) :
    decodeStep r pid c l d = .ok (some c2.message, c2.goTo (afterMessage r)) := by
  have hlen : (c.sampled l d).timings.length ≤ 6 := by simp [sampled_nil ht]
  rw [← sampled_nil ht] at h
  have hturn : engineTurn r pid (c.sampled l d) = .stop (some c2.message) (c2.goTo (afterMessage r)) :=
    (engineTurn_decode (c := c.sampled l d) hs).trans (by simp only [decodeTurn, h, hi])
  rw [decodeStep_eq_run hlen, run_stop hlen hturn]

/-- In WaitPreamble a Space alone is passed over (R121). -/
theorem decodeStep_idle_space (hs : c.state = .waitPreamble) (ht : c.timings = []) :
    decodeStep r pid c false d = .ok (none, { c with lastLevel := false }) := by
  have hbuffer : (c.sampled false d).timings = [d] := by rw [sampled_nil ht]
  have hnone : ∀ i, ¬ PreambleAt r (c.sampled false d) i := fun i hi => by simpa [hbuffer] using hi.lt
  have hrej : Rejects r (c.sampled false d) := .inl hs
  rw [decodeStep_eq_run (by simp [hbuffer]), hrej.run_none (by simp [hbuffer]) hnone]
  simp [DecCtx.sampled, hs, ht]

/-- A context in WaitPreamble that hears any Space and the row's preamble stands before the first bit, with nothing else
written (R121, R122). -/
theorem feed_frameHead (hr : rowOk r = true) (hs : c.state = .waitPreamble) (ht : c.timings = []) (silence : Nat) :
    feed r pid ({ duration := silence, level := false } :: alternating true [r.preambleMark, r.preambleSpace]) c
      = .ok ([], enterDecode { c with lastLevel := false }) := by
  have hmark : decodeStep r pid { c with lastLevel := false } true r.preambleMark
      = .ok (none, { c with timings := [r.preambleMark], lastLevel := true }) := by
    have hsampled : DecCtx.sampled { c with lastLevel := false } true r.preambleMark
        = { c with timings := [r.preambleMark], lastLevel := true } := sampled_nil ht
    have hrej : Rejects r { c with timings := [r.preambleMark], lastLevel := true } := .inl hs
    rw [decodeStep_eq_run (by simp [hsampled]), hsampled,
      hrej.run_mark (before := []) (x := r.preambleMark) rfl (Nat.zero_le _) rfl]
    simp only [hs]
  have hspace := decodeStep_own_preambleSpace (pid := pid) (c := { c with timings := [r.preambleMark], lastLevel := true }) hr rfl
    rfl (.inl hs)
  have hfresh : enterDecode { c with timings := [], lastLevel := false } = enterDecode { c with lastLevel := false } := by
    rw [← ht]
  rw [← hfresh]
  exact feed_pulse (p := ⟨silence, false⟩) (decodeStep_idle_space hs ht) (feed_cons hmark (feed_cons (rest := []) hspace rfl))

end

/-! ## The accumulator under way (R97) -/

/-- The context has accumulated the `k` lowest bits of `data`. -/
def DecCtx.withBits (c : DecCtx) (data k : Nat) : DecCtx := { c with data := data % 2 ^ k, databitCnt := k }

theorem writeBit_mod (data k : Nat) : writeBit (data % 2 ^ k) k (data.testBit k) = data % 2 ^ (k + 1) := by
  apply Nat.eq_of_testBit_eq
  intro i
  rw [writeBit_testBit, Nat.testBit_mod_two_pow, Nat.testBit_mod_two_pow]
  obtain hlt | rfl | hgt := Nat.lt_trichotomy i k
  · simp [hlt.ne, hlt, hlt.trans (Nat.lt_succ_self k)]
  · simp
  · simp [hgt.ne', show ¬ i < k by omega, show ¬ i < k + 1 by omega]

theorem DecCtx.withBits_zero (c : DecCtx) (data : Nat) : (enterDecode c).withBits data 0 = enterDecode c := by
  simp [withBits, enterDecode, Nat.mod_one]

/-- A packed message is interpreted as itself; the repeat flag stays 0 on a context that holds no message of this pid
(R144, R154). -/
theorem interpret_packed {r : RomRow} {pid : Pid} {c : DecCtx} {e : EncCtx} {msg : Message} (hvalid : validMessage r msg)
    (hdata : c.data = (packInto r e msg).data) (hheld : c.message.protocol ≠ pid) :
    ∃ c', interpret r pid c = some c'
      ∧ c'.message = { protocol := pid, address := msg.address, command := msg.command, rep := false } := by
  obtain ⟨c', hi, hpid, haddress, hcommand, hrep⟩ := Proofs.interpretInvertsPack r pid c e msg hvalid
  rw [← hdata] at hi
  refine ⟨c', hi, ?_⟩
  have hfresh : c'.message.rep = false := by
    by_cases hl : r.layout = .rc6
    · have hrc6 : interpretRc6 pid c = some c' := by simpa [interpret, hl] using hi
      by_cases hstarts : c.rc6Starts
      · obtain ⟨address, command, heq, -⟩ := interpretRc6_succeeds hstarts pid
        obtain rfl := Option.some.inj (heq.symm.trans hrc6)
        exact Bool.eq_false_iff.2 fun h => hheld ((rc6Repeat_iff c pid address command _).1 h).1
      · cases (interpretRc6_fails hstarts pid).symm.trans hrc6
    · exact (hrep hl).1
  rw [← hpid, ← haddress, ← hcommand, ← hfresh]

/-! ## A nominal value matches itself (R92) -/

theorem matchAbs_self (x : Nat) {tol : Nat} (h : 0 < tol) : matchAbs x x tol = true := by
  rw [matchAbs_iff]
  simpa [absDiff] using h

/-! ## A PDWM frame (R101, R176) -/

section
variable {r : RomRow} {pid : Pid} {c : DecCtx} (hr : rowOk r = true)
include hr

theorem matchBit_self (x : Duration) : matchBit r x x = true := by
  obtain ⟨-, -, -, -, htol⟩ := rowOk_timing hr
  exact matchAbs_self _ htol

variable (hc : r.codec = .pdwm)
include hc

theorem pdwmBit_own (b : Bool) :
    pdwmBit r (if b then r.bit1Mark else r.bit0Mark) (if b then r.bit1Space else r.bit0Space) = some b :=
  pdwmBit_of_pair hr hc ⟨matchBit_self hr _, matchBit_self hr _⟩

/-- The pair of one bit of the payload is accumulated as that bit. -/
theorem feed_pdwmBit (hs : c.state = .decode) (ht : c.timings = []) (hl : c.lastLevel = false) (data : Nat) {k : Nat}
    (hk : k < r.databitLen) :
    feed r pid ((pdwmPayload r data k 1).map Timing.pulse) (c.withBits data k) = .ok ([], c.withBits data (k + 1)) := by
  generalize hb : data.testBit k = b
  generalize hmark : (if b then r.bit1Mark else r.bit0Mark) = mark
  generalize hspace : (if b then r.bit1Space else r.bit0Space) = space
  have hbit : pdwmBit r mark space = some b := by rw [← hmark, ← hspace]; exact pdwmBit_own hr hc b
  generalize hheard : ({ c.withBits data k with timings := [mark], lastLevel := true } : DecCtx) = heard
  have hfirst : decodeStep r pid (c.withBits data k) true mark = .ok (none, heard) := by
    have hcount : heard.databitCnt = k := by rw [← hheard]; rfl
    refine decodeStep_nil_of_ok hs ht ?_
    rw [hheard]
    exact decodeBits_pdwm_waits hc (by omega) (by simp [← hheard])
  have hsecond : decodeStep r pid heard false space = .ok (none, c.withBits data (k + 1)) := by
    have hsampled : heard.sampled false space = { c.withBits data k with timings := [mark, space], lastLevel := false } := by
      rw [← hheard]
      rfl
    refine decodeStep_of_ok (by rw [← hheard]; exact hs) (by simp [hsampled]) ?_
    rw [hsampled, decodeBits_again ((codecTurn_pdwm hc _).trans (pdwmTurn_bit hk rfl rfl hbit))]
    have hafter : (({ c.withBits data k with timings := [mark, space], lastLevel := false } : DecCtx).accumulate b).consume 2
        = c.withBits data (k + 1) := by
      simp [DecCtx.accumulate, DecCtx.consume, DecCtx.withBits, ← hb, writeBit_mod, ht, hl]
    rw [hafter]
    exact decodeBits_nil ht
  simp only [pdwmPayload, hb, hmark, hspace, List.map_cons, List.map_nil]
  exact feed_cons hfirst (feed_cons (rest := []) hsecond rfl)

theorem feed_pdwmPayload (hs : c.state = .decode) (ht : c.timings = []) (hl : c.lastLevel = false) (data : Nat) {k n : Nat}
    (hn : k + n ≤ r.databitLen) :
    feed r pid ((pdwmPayload r data k n).map Timing.pulse) (c.withBits data k) = .ok ([], c.withBits data (k + n)) := by
  induction n generalizing k with
  | zero => rfl
  | succ n ih =>
    have hrest := ih (k := k + 1) (by omega)
    rw [Nat.add_right_comm] at hrest
    exact feed_append (feed_pdwmBit hr hc hs ht hl data (by omega)) hrest

/-- With every bit in, the stop Mark returns the message of the payload (R101, R125). -/
theorem decodeStep_stopMark (hs : c.state = .decode) (ht : c.timings = []) (hn : c.databitCnt = r.databitLen) {c' : DecCtx}
    (hi : interpret r pid { c with lastLevel := true } = some c') :
    decodeStep r pid c true r.bit1Mark = .ok (some c'.message, c'.goTo (afterMessage r)) := by
  have hstop := pdwmTurn_complete_cons (c := { c with timings := [r.bit1Mark], lastLevel := true }) hn rfl
  rw [if_pos ⟨rfl, matchBit_self hr _⟩] at hstop
  have hconsumed : ({ c with timings := [r.bit1Mark], lastLevel := true } : DecCtx).consume 1 = { c with lastLevel := true } := by
    simp [DecCtx.consume, ht]
  rw [hconsumed] at hstop
  exact decodeStep_nil_of_ready hs ht (decodeBits_stop ((codecTurn_pdwm hc _).trans hstop)) hi

/-- A PDWM frame that a context in WaitPreamble hears from its silence on: every timing but the stop Mark is taken in silently,
and the payload is then what the closed form carries. -/
theorem feed_pdwmFrame (hs : c.state = .waitPreamble) (ht : c.timings = []) (data : Nat) :
    feed r pid ((frameTimings r data).dropLast.map Timing.pulse) c
      = .ok ([], (enterDecode { c with lastLevel := false }).withBits data r.databitLen) := by
  have hhead := feed_frameHead (pid := pid) hr hs ht r.silence.toNat
  rw [← DecCtx.withBits_zero _ data] at hhead
  have hpayload := feed_pdwmPayload (pid := pid) hr hc (c := enterDecode { c with lastLevel := false }) rfl ht rfl data (k := 0)
    (n := r.databitLen) (by omega)
  rw [Nat.zero_add] at hpayload
  simp only [frameTimings, hc, List.dropLast_concat, List.map_append]
  exact feed_append hhead hpayload

end

end Sys2Proof.Machine

namespace Sys2Proof.Proofs

open Sys2Proof Sys2Proof.Machine

/-- Settles O52: the head, the payload bit by bit, and the stop Mark that completes it. -/
theorem pdwmRoundTrip : Obligations.PdwmRoundTrip := by
  intro r pid e0 e e1 msg ts hr hc hpid hvalid hreset hemit
  obtain rfl := encReset_loaded hreset
  rw [emit_frame hr rfl] at hemit
  generalize hdata : (e0.loaded r msg).data = data at hemit
  obtain ⟨rfl, -⟩ := Prod.mk.inj (Option.some.inj hemit)
  have hlt : data < 2 ^ r.databitLen := hdata ▸ packInto_data_lt hr e0 msg
  have hts : frameTimings r data
      = (frameHead r ++ pdwmPayload r data 0 r.databitLen) ++ [{ duration := r.bit1Mark, level := true, done := true }] := by
    simp only [frameTimings, hc]
  have hbefore := feed_pdwmFrame (pid := pid) (c := DecCtx.reset) hr hc rfl rfl data
  generalize hfull : (enterDecode { DecCtx.reset with lastLevel := false }).withBits data r.databitLen = full at hbefore
  obtain ⟨c', hi, hmsg⟩ := interpret_packed (c := { full with lastLevel := true }) (pid := pid) hvalid (e := e0)
    (by rw [← hfull]; exact (Nat.mod_eq_of_lt hlt).trans hdata.symm) (by rw [← hfull]; exact hpid.symm)
  have hstop := decodeStep_stopMark hr hc (by rw [← hfull]; rfl) (by rw [← hfull]; rfl) (by rw [← hfull]; rfl) hi
  obtain ⟨hwrites, -⟩ := interpret_some hi
  rw [hmsg] at hstop
  have hall := feed_append hbefore (feed_cons (rest := []) hstop rfl)
  refine ⟨full, _, by rw [hts, List.getLast?_concat], hbefore, hstop, ?_, rfl, ?_, ?_, hmsg⟩
  · rw [hts, List.map_append]
    rwa [hts, List.dropLast_concat] at hall
  · rw [DecCtx.goTo_timings, hwrites, ← hfull]
    rfl
  · rw [DecCtx.goTo_lastLevel, hwrites]

end Sys2Proof.Proofs
end

section
/-! PROOFS. The round trip of a Manchester frame (43_encode_engine.md R182 to R184): what `Merge` makes of the halves of a frame,
pulse by pulse, and how a decoder context takes each pulse. All of it is for rows whose 1 bit is Mark then Space. -/

namespace Sys2Proof.Machine

/-- A Manchester row whose 1 bit is Mark then Space, and whose joined pulses fit the word that carries them. -/
structure MarkFirst (r : RomRow) : Prop where
  ok : rowOk r = true
  codec : r.codec = .manchester
  upright : r.manInv = false
  narrow : r.bitUnit.toNat < 2 ^ 30

/-- The reference RC6 row is such a row. -/
theorem markFirst_rc6Row : MarkFirst rc6Row := ⟨by decide, rfl, rfl, by decide⟩

/-! ## The halves of a payload and their merged pulses (R177, R181, R182) -/

/-- One half of bit `i`. -/
def halfPulse (r : RomRow) (i : Nat) (l : Level) : Pulse := { duration := halfWidth r i * r.bitUnit.toNat, level := l }

def bitPulses (r : RomRow) (data i : Nat) : List Pulse :=
  [halfPulse r i (data.testBit i), halfPulse r i (!data.testBit i)]

/-- Between bits `k` and `k + 1`: the closing half of bit `k`, when it is a pulse of its own. -/
def closingAlone (r : RomRow) (data k : Nat) : List Pulse :=
  if data.testBit k = data.testBit (k + 1) then [halfPulse r k (!data.testBit k)] else []

/-- How many units wide the pulse is that ends in the middle of bit `k + 1`. -/
def openingWidth (r : RomRow) (data k : Nat) : Nat :=
  if data.testBit k = data.testBit (k + 1) then halfWidth r (k + 1) else halfWidth r k + halfWidth r (k + 1)

/-- The pulse that ends in the middle of bit `k + 1`: its first half, joined with the closing half of bit `k` where the two
have one level. -/
def openingPulse (r : RomRow) (data k : Nat) : Pulse :=
  { duration := openingWidth r data k * r.bitUnit.toNat, level := data.testBit (k + 1) }

/-- The merged pulses from the middle of bit 0 to the middle of bit `m`. -/
def mergedBits (r : RomRow) (data m : Nat) : List Pulse :=
  (List.range m).flatMap fun k => closingAlone r data k ++ [openingPulse r data k]

theorem mergedBits_succ (r : RomRow) (data m : Nat) :
    mergedBits r data (m + 1) = mergedBits r data m ++ (closingAlone r data m ++ [openingPulse r data m]) := by
  simp [mergedBits, List.range_succ]

section
variable {r : RomRow}

theorem MarkFirst.payload_pulses (hr : MarkFirst r) (data i n : Nat) :
    (manchesterPayload r data i n).map Timing.pulse = (List.range' i n).flatMap (bitPulses r data) := by
  induction n generalizing i with
  | zero => rfl
  | succ n ih =>
    simp [manchesterPayload, List.range'_succ, ih, bitPulses, halfPulse, Timing.pulse, halfDuration_toNat hr.ok hr.codec,
      hr.upright]

theorem mergeOpen_half_other (d i : Nat) {l l' : Level} (h : l' ≠ l) (rest : List Pulse) :
    mergeOpen d l (halfPulse r i l' :: rest)
      = { duration := d, level := l } :: mergeOpen (halfWidth r i * r.bitUnit.toNat) l' rest :=
  mergeOpen_other d (p := halfPulse r i l') h rest

theorem mergeOpen_half_same (d i : Nat) (l : Level) (rest : List Pulse) :
    mergeOpen d l (halfPulse r i l :: rest) = mergeOpen (d + halfWidth r i * r.bitUnit.toNat) l rest :=
  mergeOpen_same d (p := halfPulse r i l) rfl rest

/-- With the closing half of bit `k` open, `Merge` takes one more bit. -/
theorem mergeOpen_bit (data k : Nat) (tail : List Pulse) :
    mergeOpen (halfWidth r k * r.bitUnit.toNat) (!data.testBit k) (bitPulses r data (k + 1) ++ tail)
      = closingAlone r data k ++ openingPulse r data k
        :: mergeOpen (halfWidth r (k + 1) * r.bitUnit.toNat) (!data.testBit (k + 1)) tail := by
  have hclosing : (!data.testBit (k + 1)) ≠ data.testBit (k + 1) := Bool.not_ne_self _
  simp only [bitPulses, List.cons_append, List.nil_append, closingAlone, openingPulse, openingWidth]
  by_cases hb : data.testBit k = data.testBit (k + 1)
  · rw [if_pos hb, if_pos hb, hb, mergeOpen_half_other _ _ hclosing.symm, mergeOpen_half_other _ _ hclosing]
    rfl
  · have hflip : (!data.testBit k) = data.testBit (k + 1) := Bool.not_eq.2 hb
    rw [if_neg hb, if_neg hb, hflip, mergeOpen_half_same, mergeOpen_half_other _ _ hclosing, Nat.add_mul]
    rfl

theorem mergeOpen_bits (data m : Nat) (tail : List Pulse) :
    mergeOpen (halfWidth r 0 * r.bitUnit.toNat) (!data.testBit 0) ((List.range' 1 m).flatMap (bitPulses r data) ++ tail)
      = mergedBits r data m ++ mergeOpen (halfWidth r m * r.bitUnit.toNat) (!data.testBit m) tail := by
  induction m generalizing tail with
  | zero => rfl
  | succ m ih =>
    rw [List.range'_1_concat, List.flatMap_append, List.append_assoc, ih, List.flatMap_singleton, Nat.add_comm 1 m, mergeOpen_bit,
      mergedBits_succ]
    simp

end

/-! ## The message's Mark (R183)

The row has `n + 2` bits. The last Mark of the payload ends in the middle of the last bit when that is a 1, else with it. -/

/-- What `Merge` gives before the last Mark of the payload, when the frame begins with a Space of `silence`. -/
def pulsesBeforeMessage (r : RomRow) (data n silence : Nat) : List Pulse :=
  ({ duration := silence, level := false } :: alternating true [r.preambleMark, r.preambleSpace])
    ++ ([halfPulse r 0 true] ++ (mergedBits r data n ++ (closingAlone r data n
      ++ if data.testBit (n + 1) then [] else [openingPulse r data n])))

/-- How many units wide the last Mark of the payload is. -/
def messageWidth (r : RomRow) (data n : Nat) : Nat :=
  if data.testBit (n + 1) then openingWidth r data n else halfWidth r (n + 1)

def messagePulse (r : RomRow) (data n : Nat) : Pulse := { duration := messageWidth r data n * r.bitUnit.toNat, level := true }

/-- What is left of the payload after its last Mark: the closing Space of a 1, which runs into the next cycle. -/
def spaceLeft (r : RomRow) (data n : Nat) : Nat :=
  if data.testBit (n + 1) then halfWidth r (n + 1) * r.bitUnit.toNat else 0

section
variable {r : RomRow} (hr : MarkFirst r) {data n : Nat} (hn : r.databitLen = n + 2) (hstart : data.testBit 0 = true)
include hr hn hstart

/-- A frame but for its silence, as pulses. -/
theorem MarkFirst.frame_pulses : (frameTimings r data).tail.map Timing.pulse
    = alternating true [r.preambleMark, r.preambleSpace] ++ halfPulse r 0 true :: halfPulse r 0 false
        :: ((List.range' 1 n).flatMap (bitPulses r data) ++ bitPulses r data (n + 1)) := by
  have hpayload := hr.payload_pulses data 0 (n + 2)
  rw [List.range'_succ, List.range'_1_concat, List.flatMap_cons, List.flatMap_append, List.flatMap_singleton] at hpayload
  simp only [frameTimings, hr.codec, hn, frameHead, List.cons_append, List.nil_append, List.tail_cons, List.map_cons, hpayload]
  simp [Timing.pulse, alternating, bitPulses, hstart, Nat.add_comm 1 n]

/-- `Merge` on a frame behind an open Space, and on the Space of the next cycle. -/
theorem MarkFirst.mergeOpen_frame (silence : Nat) {next : Pulse} (hnext : next.level = false) (tail : List Pulse) :
    mergeOpen silence false ((frameTimings r data).tail.map Timing.pulse ++ next :: tail)
      = pulsesBeforeMessage r data n silence ++ messagePulse r data n
        :: mergeOpen (spaceLeft r data n + next.duration) false tail := by
  have hbits := mergeOpen_bits (r := r) data n (bitPulses r data (n + 1) ++ next :: tail)
  rw [hstart, Bool.not_true, mergeOpen_bit] at hbits
  have hhead : mergeOpen silence false ((frameTimings r data).tail.map Timing.pulse ++ next :: tail)
      = { duration := silence, level := false } :: alternating true [r.preambleMark, r.preambleSpace] ++ halfPulse r 0 true
        :: mergeOpen (halfWidth r 0 * r.bitUnit.toNat) false
          ((List.range' 1 n).flatMap (bitPulses r data) ++ (bitPulses r data (n + 1) ++ next :: tail)) := by
    rw [hr.frame_pulses hn hstart]
    simp [alternating, mergeOpen, halfPulse]
  rw [hhead, hbits, pulsesBeforeMessage, messagePulse, messageWidth, spaceLeft]
  cases hlast : data.testBit (n + 1) with
  | true =>
    rw [Bool.not_true, mergeOpen_same _ hnext]
    simp [openingPulse, hlast]
  | false =>
    rw [Bool.not_false, mergeOpen_other _ (by simp [hnext]), hnext]
    simp

end

/-! ## How a context takes a pulse (R103, R104) -/

/-- The context stands in the middle of bit `k`. -/
def DecCtx.midBit (c : DecCtx) (data k : Nat) : DecCtx :=
  { c.withBits data (k + 1) with switchDetect := true, lastLevel := data.testBit k }

/-- The context stands in the middle of bit `k`, or behind it where the closing half of the bit was a pulse of its own. -/
def DecCtx.beforeOpening (c : DecCtx) (data k : Nat) : DecCtx :=
  if data.testBit k = data.testBit (k + 1) then { c.midBit data k with switchDetect := false, lastLevel := !data.testBit k }
  else c.midBit data k

section
variable {r : RomRow} {pid : Pid} {c : DecCtx} {data k : Nat}

theorem halfWidth_le (r : RomRow) (i : Nat) : halfWidth r i ≤ 2 := by
  unfold halfWidth
  split_ifs <;> omega

theorem matchUnits_self (hr : rowOk r = true) {x w : Nat} (h : x = w * r.bitUnit.toNat) : matchUnits x w r = true := by
  obtain ⟨-, -, -, -, htol⟩ := rowOk_timing hr
  rw [h]
  exact matchAbs_self _ htol

theorem DecCtx.beforeOpening_state : (c.beforeOpening data k).state = c.state := by
  unfold beforeOpening
  split_ifs <;> rfl

theorem DecCtx.beforeOpening_timings : (c.beforeOpening data k).timings = c.timings := by
  unfold beforeOpening
  split_ifs <;> rfl

variable (hr : MarkFirst r)
include hr

theorem MarkFirst.half_fits (i : Nat) :
    (BitVec.ofNat 32 (halfWidth r i * r.bitUnit.toNat)).toNat = halfWidth r i * r.bitUnit.toNat :=
  halfDuration_toNat hr.ok hr.codec i

/-- A joined pulse is three units wide at most, since only one bit is wider than the others (R102). -/
theorem MarkFirst.opening_fits (data k : Nat) :
    (BitVec.ofNat 32 (openingWidth r data k * r.bitUnit.toNat)).toNat = openingWidth r data k * r.bitUnit.toNat := by
  have hone : halfWidth r k = 1 ∨ halfWidth r (k + 1) = 1 := by
    by_cases hk : r.dblIndex = some k
    · exact .inr (if_neg (by simp [hk]))
    · exact .inl (if_neg hk)
  have hwidth : openingWidth r data k ≤ 3 := by
    have hk := halfWidth_le r k
    have hk1 := halfWidth_le r (k + 1)
    unfold openingWidth
    split_ifs <;> omega
  have hmul := Nat.mul_le_mul_right r.bitUnit.toNat hwidth
  have hunit := hr.narrow
  exact (BitVec.toNat_ofNat _ _).trans (Nat.mod_eq_of_lt (by omega))

variable (ht : c.timings = [])
include ht

/-- A pulse that ends in the middle of bit `k` brings the bit, and the payload with it if it is the last bit and a Mark. -/
theorem MarkFirst.decodeBits_opening {x : Duration} {w : Nat} (hx : x.toNat = w * r.bitUnit.toNat)
    (hdata : c.data = data % 2 ^ k) (hcount : c.databitCnt = k) (hk : k < r.databitLen)
    (hw : (c.switchDetect = false ∧ w = halfWidth r k)
      ∨ (c.switchDetect = true ∧ 0 < k ∧ w = halfWidth r (k - 1) + halfWidth r k)) :
    decodeBits r { c with timings := [x], lastLevel := data.testBit k }
      = (if k + 1 = r.databitLen ∧ data.testBit k = true then .ready else .ok, c.midBit data k) := by
  generalize hheard : ({ c with timings := [x], lastLevel := data.testBit k } : DecCtx) = heard
  have htimings : heard.timings = [x] := by rw [← hheard]
  have hlevel : heard.level 0 = data.testBit k := by rw [level_last _ (by simp [htimings]), ← hheard]
  have hcnt : heard.databitCnt = k := by rw [← hheard, hcount]
  have hturn : manchesterTurn r heard = manchesterFirstHalf r (heard.level 0) heard := by
    obtain ⟨hs, rfl⟩ | ⟨hs, hpos, rfl⟩ := hw
    · rw [manchesterTurn_boundary htimings (by rw [← hheard, hs]), hcnt, if_pos (matchUnits_self hr.ok hx)]
    · have hjoined := matchUnits_self hr.ok hx
      rw [manchesterTurn_joined htimings (by rw [← hheard, hs]) (by omega)
        (by rw [hcnt]; exact matchUnits_closing_of_joined hr.ok hr.codec hjoined), hcnt, if_pos ⟨hk, hjoined⟩]
  have hafter : afterFirstHalf r (heard.level 0) heard = c.midBit data k := by
    rw [afterFirstHalf_eq htimings, hlevel, hr.upright, Bool.xor_false, ← hheard]
    simp [DecCtx.midBit, DecCtx.withBits, DecCtx.accumulate, hdata, hcount, writeBit_mod, ht]
  rw [decodeBits_firstHalf hr.codec hturn, hafter, hlevel, hcnt]
  split_ifs
  · rfl
  · exact decodeBits_nil ht

/-- The closing half of bit `k` alone, and with it the payload if the bit is the last. -/
theorem MarkFirst.decodeBits_closing (hs : c.switchDetect = true) (hcount : c.databitCnt = k + 1) (l : Level) :
    decodeBits r { c with timings := [BitVec.ofNat 32 (halfWidth r k * r.bitUnit.toNat)], lastLevel := l }
      = (if k + 1 = r.databitLen then .ready else .ok, { c with switchDetect := false, lastLevel := l }) := by
  generalize hx : BitVec.ofNat 32 (halfWidth r k * r.bitUnit.toNat) = x
  have hwidth : matchUnits x.toNat (halfWidth r (c.databitCnt - 1)) r = true := by
    rw [hcount, ← hx]
    exact matchUnits_self hr.ok (hr.half_fits k)
  have hturn := manchesterTurn_closing (c := { c with timings := [x], lastLevel := l }) rfl hs hwidth
  rw [decodeBits_secondHalf hr.codec hturn, afterSecondHalf_eq rfl, hcount, ← ht]
  split_ifs
  · rfl
  · exact decodeBits_nil ht

/-- The pulse that ends in the middle of bit `k + 1`, behind whatever was alone before it. -/
theorem MarkFirst.decodeBits_openingPulse (hk : k + 1 < r.databitLen) :
    decodeBits r { c.beforeOpening data k with
        timings := [BitVec.ofNat 32 (openingWidth r data k * r.bitUnit.toNat)], lastLevel := data.testBit (k + 1) }
      = (if k + 2 = r.databitLen ∧ data.testBit (k + 1) = true then .ready else .ok, c.midBit data (k + 1)) := by
  have hx := hr.opening_fits data k
  by_cases hb : data.testBit k = data.testBit (k + 1)
  · rw [DecCtx.beforeOpening, if_pos hb]
    exact hr.decodeBits_opening (c := { c.midBit data k with switchDetect := false, lastLevel := !data.testBit k }) ht hx rfl rfl hk
      (.inl ⟨rfl, if_pos hb⟩)
  · rw [DecCtx.beforeOpening, if_neg hb]
    exact hr.decodeBits_opening (c := c.midBit data k) ht hx rfl rfl hk (.inr ⟨rfl, Nat.succ_pos k, if_neg hb⟩)

variable (hs : c.state = .decode)
include hs

theorem MarkFirst.feed_closingAlone (hk : k + 1 < r.databitLen) :
    feed r pid (closingAlone r data k) (c.midBit data k) = .ok ([], c.beforeOpening data k) := by
  unfold closingAlone DecCtx.beforeOpening
  split_ifs
  · have hbits := hr.decodeBits_closing (c := c.midBit data k) ht rfl rfl (!data.testBit k)
    rw [if_neg (by omega)] at hbits
    exact feed_one (p := halfPulse r k (!data.testBit k)) (decodeStep_nil_of_ok (c := c.midBit data k) hs ht hbits)
  · rfl

theorem MarkFirst.feed_openingPulse (hk : k + 1 < r.databitLen)
    (hmore : ¬ (k + 2 = r.databitLen ∧ data.testBit (k + 1) = true)) :
    feed r pid [openingPulse r data k] (c.beforeOpening data k) = .ok ([], c.midBit data (k + 1)) := by
  have hbits := hr.decodeBits_openingPulse (data := data) ht hk
  rw [if_neg hmore] at hbits
  exact feed_one (p := openingPulse r data k)
    (decodeStep_nil_of_ok (DecCtx.beforeOpening_state.trans hs) (DecCtx.beforeOpening_timings.trans ht) hbits)

/-- Up to the middle of the last bit but one nothing is returned. -/
theorem MarkFirst.feed_mergedBits (hk : k + 1 < r.databitLen) :
    feed r pid (mergedBits r data k) (c.midBit data 0) = .ok ([], c.midBit data k) := by
  induction k with
  | zero => rfl
  | succ k ih =>
    rw [mergedBits_succ]
    exact feed_append (ih (by omega)) (feed_append (hr.feed_closingAlone ht hs (by omega))
      (hr.feed_openingPulse ht hs (by omega) (by omega)))

end

/-! ## A context that hears a Manchester frame (R183) -/

section
variable {r : RomRow} {pid : Pid} {c : DecCtx} {data n : Nat} (hr : MarkFirst r) (hn : r.databitLen = n + 2)
  (hstart : data.testBit 0 = true) (hs : c.state = .waitPreamble) (ht : c.timings = [])
include hr hn hstart hs ht

/-- A context in WaitPreamble takes a frame in silently up to its last bit. -/
theorem MarkFirst.feed_toLastBit (silence : Nat) :
    feed r pid (({ duration := silence, level := false } :: alternating true [r.preambleMark, r.preambleSpace])
        ++ ([halfPulse r 0 true] ++ (mergedBits r data n ++ closingAlone r data n))) c
      = .ok ([], (enterDecode { c with lastLevel := false }).beforeOpening data n) := by
  have hhead := feed_frameHead (pid := pid) hr.ok hs ht silence
  generalize hfresh : enterDecode { c with lastLevel := false } = fresh at hhead ⊢
  have hdecode : fresh.state = .decode := by rw [← hfresh]; rfl
  have hempty : fresh.timings = [] := by rw [← hfresh]; exact ht
  have hbits := hr.decodeBits_opening (c := fresh) (data := data) (k := 0) hempty (hr.half_fits 0)
    (by rw [← hfresh, pow_zero, Nat.mod_one]; rfl) (by rw [← hfresh]; rfl) (by omega) (.inl ⟨by rw [← hfresh]; rfl, rfl⟩)
  rw [if_neg (by omega), hstart] at hbits
  have hfirst : feed r pid [halfPulse r 0 true] fresh = .ok ([], fresh.midBit data 0) :=
    feed_one (p := halfPulse r 0 true) (decodeStep_nil_of_ok hdecode hempty hbits)
  exact feed_append hhead (feed_append hfirst (feed_append (hr.feed_mergedBits hempty hdecode (by omega))
    (hr.feed_closingAlone hempty hdecode (by omega))))

/-- Everything before the last Mark of the payload is taken in silently, and the last Mark completes the payload. -/
theorem MarkFirst.feed_beforeMessage (silence : Nat) :
    ∃ c0, feed r pid (pulsesBeforeMessage r data n silence) c = .ok ([], c0) ∧ c0.state = .decode ∧ c0.timings = []
      ∧ decodeBits r { c0 with timings := [BitVec.ofNat 32 (messagePulse r data n).duration], lastLevel := true }
        = (.ready,
            { (enterDecode c).withBits data r.databitLen with switchDetect := data.testBit (n + 1), lastLevel := true }) := by
  have hbefore := hr.feed_toLastBit (pid := pid) hn hstart hs ht silence
  generalize hfresh : enterDecode { c with lastLevel := false } = fresh at hbefore
  have hdecode : fresh.state = .decode := by rw [← hfresh]; rfl
  have hempty : fresh.timings = [] := by rw [← hfresh]; exact ht
  cases hlast : data.testBit (n + 1) with
  | true =>
    refine ⟨fresh.beforeOpening data n, ?_, DecCtx.beforeOpening_state.trans hdecode,
      DecCtx.beforeOpening_timings.trans hempty, ?_⟩
    · simpa [pulsesBeforeMessage, hlast] using hbefore
    · have hopening := hr.decodeBits_openingPulse (c := fresh) (data := data) hempty (show n + 1 < r.databitLen by omega)
      rw [if_pos ⟨hn.symm, hlast⟩, hlast] at hopening
      simp only [messagePulse, messageWidth, hlast, if_true, hopening, hn]
      simp [DecCtx.midBit, hlast, ← hfresh, DecCtx.withBits, enterDecode]
  | false =>
    refine ⟨fresh.midBit data (n + 1), ?_, hdecode, hempty, ?_⟩
    · have hall := feed_append hbefore (hr.feed_openingPulse hempty hdecode (by omega) (by simp [hlast]))
      simpa [pulsesBeforeMessage, hlast] using hall
    · have hclosing := hr.decodeBits_closing (c := fresh.midBit data (n + 1)) hempty rfl rfl true
      rw [if_pos hn.symm] at hclosing
      simp only [messagePulse, messageWidth, hlast, Bool.false_eq_true, if_false, hclosing, hn]
      simp [DecCtx.midBit, ← hfresh, DecCtx.withBits, enterDecode]

end

/-! ## An RC6 frame (R144, R153, R183) -/

/-- The packed frame is interpreted as its message, the repeat flag by the held message and the toggle of the last frame. -/
theorem interpretRc6_packed {c : DecCtx} {toggle : Bool} {address command : Word}
    (hdata : c.data = (packRc6 toggle address command).toNat) (ha : address.toNat < 256) (hc : command.toNat < 256) (pid : Pid) :
    interpretRc6 pid c = some (({ c with prevToggle := toggle }).setMessage pid address command
      (rc6Repeat c pid address command toggle)) := by
  have hbits := packRc6_bits toggle address command
  rw [← hdata] at hbits
  obtain ⟨address', command', heq, -, -⟩ := interpretRc6_succeeds ⟨hbits 0, hbits 1, hbits 2, hbits 3⟩ pid
  obtain ⟨rep, hpacked⟩ := interpretRc6_packRc6 pid c toggle ha hc
  rw [← hdata] at hpacked
  have hmessage := congrArg DecCtx.message (Option.some.inj (heq.symm.trans hpacked))
  simp only [DecCtx.setMessage_message, Message.mk.injEq, true_and] at hmessage
  obtain ⟨rfl, rfl, -⟩ := hmessage
  rwa [hbits 4] at heq

/-- The data that an RC6 frame of this message carries. -/
def rc6Data (msg : Message) (toggle : Bool) : Nat := (packRc6 toggle msg.address msg.command).toNat

theorem rc6Data_start (msg : Message) (toggle : Bool) : (rc6Data msg toggle).testBit 0 = true :=
  packRc6_bits toggle msg.address msg.command 0

/-- The message as a context of protocol `pid` returns it. -/
def received (msg : Message) (pid : Pid) (rep : Bool) : Message :=
  { protocol := pid, address := msg.address, command := msg.command, rep := rep }

/-- Loading an RC6 message packs the toggle and then inverts it (R153). -/
theorem encReset_rc6 {r : RomRow} (hl : r.layout = .rc6) {bound : Pid} {e0 e : EncCtx} {msg : Message}
    (h : encReset bound r e0 msg = .ok e) : e.state = .space ∧ e.data = rc6Data msg e0.toggle ∧ e.toggle = !e0.toggle := by
  obtain rfl := encReset_loaded h
  simp [EncCtx.loaded, packInto, hl, rc6Data]

/-- After reset no message of a registered protocol is held, so none is repeated. -/
theorem rc6Repeat_reset {pid : Pid} (hpid : pid ≠ pidNone) (address command : Word) (toggle : Bool) :
    rc6Repeat DecCtx.reset pid address command toggle = false :=
  Bool.eq_false_iff.2 fun h => hpid ((rc6Repeat_iff _ _ _ _ _).1 h).1.symm

/-- Behind the same message a frame is a repeat when its toggle is the same. -/
theorem rc6Repeat_received {c : DecCtx} {msg : Message} {pid : Pid} {rep toggle : Bool} (hm : c.message = received msg pid rep)
    (ht : c.prevToggle = toggle) (toggle' : Bool) :
    rc6Repeat c pid msg.address msg.command toggle' = decide (toggle = toggle') := by
  simp [rc6Repeat, hm, ht, received]

section
variable {r : RomRow} {pid : Pid} {c : DecCtx} {msg : Message} (hr : MarkFirst r) (hl : r.layout = .rc6)
include hr hl

/-- A context in WaitPreamble that hears an RC6 frame returns its message with the last Mark of the payload; the message and the
toggle are then held. -/
theorem MarkFirst.feed_rc6Frame (hvalid : msg.address.toNat < 256 ∧ msg.command.toNat < 256) (hs : c.state = .waitPreamble)
    (ht : c.timings = []) (toggle : Bool) (silence : Nat) {rep : Bool}
    (hrep : rc6Repeat c pid msg.address msg.command toggle = rep) :
    ∃ c0 c1, feed r pid (pulsesBeforeMessage r (rc6Data msg toggle) 19 silence) c = .ok ([], c0)
      ∧ decodeStep r pid c0 true (BitVec.ofNat 32 (messagePulse r (rc6Data msg toggle) 19).duration)
        = .ok (some (received msg pid rep), c1)
      ∧ c1.state = afterMessage r ∧ c1.timings = [] ∧ c1.message = received msg pid rep ∧ c1.prevToggle = toggle := by
  obtain ⟨ha, hc⟩ := hvalid
  have hn : r.databitLen = 21 := (rowOk_layout hr.ok).2 hl
  obtain ⟨c0, hbefore, hdecode, hempty, hready⟩ := hr.feed_beforeMessage (pid := pid) (data := rc6Data msg toggle) (n := 19) hn
    (rc6Data_start msg toggle) hs ht silence
  generalize hfull : ({ (enterDecode c).withBits (rc6Data msg toggle) r.databitLen with
    switchDetect := (rc6Data msg toggle).testBit (19 + 1), lastLevel := true } : DecCtx) = full at hready
  have hdata : full.data = (packRc6 toggle msg.address msg.command).toNat := by
    rw [← hfull, hn]
    exact Nat.mod_eq_of_lt (BitVec.isLt _)
  have hsame : rc6Repeat full pid msg.address msg.command toggle = rep := by
    rw [← hrep, ← hfull]
    rfl
  have hi : interpret r pid full = some (({ full with prevToggle := toggle }).setMessage pid msg.address msg.command rep) := by
    simp only [interpret, hl, interpretRc6_packed hdata ha hc, hsame]
  refine ⟨c0, _, hbefore, decodeStep_nil_of_ready hdecode hempty hready hi, rfl, ?_, rfl, rfl⟩
  rw [← hfull]
  exact ht

end

/-- After a message a Space is only taken in, or passed over. -/
theorem decodeStep_space_afterMessage {r : RomRow} {pid : Pid} {c : DecCtx} (hr : rowOk r = true) (hs : c.state = afterMessage r)
    (ht : c.timings = []) (d : Duration) : ∃ c1, decodeStep r pid c false d = .ok (none, c1) := by
  unfold afterMessage at hs
  split_ifs at hs with hrep
  · exact ⟨_, decodeStep_space_processRepeat hr hs hrep (.inl ht) d⟩
  · exact ⟨_, decodeStep_idle_space hs ht⟩

/-! ## What a host feeds back: cycles and the first timing of the next (R182 to R184) -/

section
variable {r : RomRow} {e : EncCtx}

theorem frameTimings_cons (r : RomRow) (data : Nat) : frameTimings r data
    = { duration := r.silence, level := false, done := false } :: (frameTimings r data).tail := by
  cases hc : r.codec <;> simp [frameTimings, hc, frameHead]

/-- A frame and the first timing of the cycle after it, a Space. -/
theorem emit_frame_next (hr : rowOk r = true) (hs : e.state = .space) :
    ∃ t e', emit r (frameLength r + 1) e = some (frameTimings r e.data ++ [t], e') ∧ t.level = false := by
  obtain ⟨e', hnext⟩ := (completePayload_beginsCycle r e).firstTiming hr
  exact ⟨_, e', emit_add (emit_frame hr hs) (emit_one hnext), rfl⟩

/-- On a row without a repeat pattern the frame follows itself (R178, R184). -/
theorem emit_twoFrames_next (hr : rowOk r = true) (hrep : r.repLen = 0) (hs : e.state = .space) :
    ∃ t e', emit r (2 * frameLength r + 1) e = some (frameTimings r e.data ++ (frameTimings r e.data ++ [t]), e')
      ∧ t.level = false := by
  obtain ⟨t, e', hnext, ht⟩ := emit_frame_next (e := completePayload r e) hr (by simp [hrep])
  refine ⟨t, e', ?_, ht⟩
  rw [Nat.two_mul, Nat.add_assoc]
  exact emit_add (emit_frame hr hs) hnext

variable (hr : MarkFirst r) {data data' n : Nat} (hn : r.databitLen = n + 2) (hstart : data.testBit 0 = true) {t : Timing}
  (ht : t.level = false)
include hr hn hstart ht

theorem MarkFirst.merge_frame : merge ((frameTimings r data ++ [t]).map Timing.pulse)
    = pulsesBeforeMessage r data n r.silence.toNat ++ [messagePulse r data n,
        { duration := spaceLeft r data n + t.duration.toNat, level := false }] := by
  rw [frameTimings_cons, List.map_append]
  exact hr.mergeOpen_frame hn hstart r.silence.toNat (next := t.pulse) ht []

/-- The closing Space of a frame runs into the silence of the next. -/
theorem MarkFirst.merge_twoFrames (hstart' : data'.testBit 0 = true) :
    merge ((frameTimings r data ++ (frameTimings r data' ++ [t])).map Timing.pulse)
      = pulsesBeforeMessage r data n r.silence.toNat ++ messagePulse r data n
        :: (pulsesBeforeMessage r data' n (spaceLeft r data n + r.silence.toNat) ++ [messagePulse r data' n,
          { duration := spaceLeft r data' n + t.duration.toNat, level := false }]) := by
  have hsecond := hr.mergeOpen_frame hn hstart' (spaceLeft r data n + r.silence.toNat) (next := t.pulse) ht []
  have hfirst := hr.mergeOpen_frame hn hstart r.silence.toNat
    (next := { duration := r.silence.toNat, level := false }) rfl ((frameTimings r data').tail.map Timing.pulse ++ [t.pulse])
  rw [hsecond] at hfirst
  rw [frameTimings_cons r data, frameTimings_cons r data', List.map_append, List.map_append]
  exact hfirst

end

/-- Two RC6 frames of one message, the second a repeat when it has the toggle of the first (R184). -/
theorem MarkFirst.feed_twoRc6Frames {r : RomRow} {pid : Pid} {msg : Message} (hr : MarkFirst r) (hl : r.layout = .rc6)
    (hrep : r.repLen = 0) (hpid : pid ≠ pidNone) (hvalid : msg.address.toNat < 256 ∧ msg.command.toNat < 256)
    (toggle toggle' : Bool) {t : Timing} (ht : t.level = false) :
    ∃ c, feed r pid
        (merge ((frameTimings r (rc6Data msg toggle) ++ (frameTimings r (rc6Data msg toggle') ++ [t])).map Timing.pulse))
        DecCtx.reset = .ok ([received msg pid false, received msg pid (decide (toggle = toggle'))], c) := by
  have hn : r.databitLen = 19 + 2 := (rowOk_layout hr.ok).2 hl
  have hwait : afterMessage r = .waitPreamble := by simp [afterMessage, hrep]
  obtain ⟨c0, c1, hbefore, hmark, hs1, ht1, hm1, htog1⟩ := hr.feed_rc6Frame (pid := pid) (c := DecCtx.reset) hl hvalid rfl rfl
    toggle r.silence.toNat (rc6Repeat_reset hpid msg.address msg.command toggle)
  obtain ⟨c2, c3, hbefore', hmark', hs3, ht3, -⟩ := hr.feed_rc6Frame (pid := pid) (c := c1) hl hvalid (hs1.trans hwait) ht1 toggle'
    (spaceLeft r (rc6Data msg toggle) 19 + r.silence.toNat) (rc6Repeat_received hm1 htog1 toggle')
  obtain ⟨c4, hspace⟩ := decodeStep_space_afterMessage (pid := pid) hr.ok hs3 ht3
    (BitVec.ofNat 32 (spaceLeft r (rc6Data msg toggle') 19 + t.duration.toNat))
  rw [hr.merge_twoFrames hn (rc6Data_start msg toggle) ht (rc6Data_start msg toggle')]
  exact ⟨c4, feed_append hbefore (feed_pulse (p := messagePulse r (rc6Data msg toggle) 19) hmark
    (feed_append hbefore' (feed_pulse (p := messagePulse r (rc6Data msg toggle') 19) hmark' (feed_one (p := ⟨_, false⟩) hspace))))⟩

end Sys2Proof.Machine

namespace Sys2Proof.Proofs

open Sys2Proof Sys2Proof.Machine

/-- Settles O53: one frame and the Space after it, and two frames of which the second has the toggle that was emitted with it. -/
theorem rc6RoundTrip : Obligations.Rc6RoundTrip := by
  intro r pid e0 e msg decoded hok hc hl hinv hunit hpid hvalid hreset hdecoded
  have hr : MarkFirst r := ⟨hok, hc, hinv, hunit⟩
  simp only [validMessage, hl] at hvalid
  obtain rfl : decoded = received msg pid := funext hdecoded
  obtain ⟨hspace, hdata, htoggle⟩ := encReset_rc6 hl hreset
  refine ⟨fun ts e1 hemit => ?_, fun hrep ts e1 hemit => ?_, fun hrep ts ts' e1 e2 e3 hemit hreset' hemit' => ?_⟩
  · obtain ⟨t, e', hts, ht⟩ := emit_frame_next (e := e) hok hspace
    obtain ⟨rfl, -⟩ := Prod.mk.inj (Option.some.inj (hemit.symm.trans hts))
    obtain ⟨c0, c1, hbefore, hmark, hs1, ht1, -⟩ := hr.feed_rc6Frame (pid := pid) (c := DecCtx.reset) hl hvalid rfl rfl e0.toggle
      r.silence.toNat (rc6Repeat_reset hpid msg.address msg.command e0.toggle)
    obtain ⟨c, hlast⟩ := decodeStep_space_afterMessage (pid := pid) hok hs1 ht1
      (BitVec.ofNat 32 (spaceLeft r (rc6Data msg e0.toggle) 19 + t.duration.toNat))
    have hmerge := hr.merge_frame ((rowOk_layout hok).2 hl) (rc6Data_start msg e0.toggle) ht
    rw [hdata, hmerge]
    exact ⟨_, _, _, c0, c1, c, rfl, hbefore, hmark, hlast, feed_append hbefore
      (feed_pulse (p := messagePulse r (rc6Data msg e0.toggle) 19) hmark (feed_one (p := ⟨_, false⟩) hlast))⟩
  · obtain ⟨t, e', hts, ht⟩ := emit_twoFrames_next (e := e) hok hrep hspace
    obtain ⟨rfl, -⟩ := Prod.mk.inj (Option.some.inj (hemit.symm.trans hts))
    have htwo := hr.feed_twoRc6Frames (pid := pid) hl hrep hpid hvalid e0.toggle e0.toggle ht
    rwa [decide_eq_true rfl, ← hdata] at htwo
  · rw [emit_frame hok hspace] at hemit
    obtain ⟨rfl, rfl⟩ := Prod.mk.inj (Option.some.inj hemit)
    obtain ⟨hspace', hdata', -⟩ := encReset_rc6 hl hreset'
    obtain ⟨t, e', hts, ht⟩ := emit_frame_next (e := e2) hok hspace'
    obtain ⟨rfl, -⟩ := Prod.mk.inj (Option.some.inj (hemit'.symm.trans hts))
    have htwo := hr.feed_twoRc6Frames (pid := pid) hl hrep hpid hvalid e0.toggle (!e0.toggle) ht
    rwa [decide_eq_false (Bool.not_ne_self _).symm, ← hdata, ← htoggle, ← completePayload_toggle e r, ← hdata'] at htwo

end Sys2Proof.Proofs
end

section
/-! PROOFS. The rules of 44_handler_commands.md: what the commands of the decoder path do to every context at once (R191 to
R195), and what those of the encoder path do to the one encoder context (R196 to R198). -/

namespace Sys2Proof.Machine

/-! ## The contexts after a reset and after a sample (R191, R192) -/

/-- A context whose registers all hold the values of R31 is the reset value. -/
theorem DecCtx.eq_reset {c : DecCtx} (hstate : c.state = .waitPreamble) (htimings : c.timings = []) (hdata : c.data = 0)
    (hcnt : c.databitCnt = 0) (hswitch : c.switchDetect = false) (hlevel : c.lastLevel = true)
    (hmessage : c.message = Message.reset) (htoggle : c.prevToggle = false) : c = DecCtx.reset := by
  cases c
  simp only [DecCtx.reset, DecCtx.mk.injEq]
  exact ⟨hstate, htimings, hdata, hcnt, hswitch, hlevel, hmessage, htoggle⟩

/-- The fan-out adds no context and drops none (R10). -/
theorem sampleRows_length {l : Level} {d : Duration} : ∀ {p : Nat} {rom : Rom} {cs cs' : List DecCtx} {m : Option Message},
    sampleRows l d p rom cs = .ok (m, cs') → cs'.length = cs.length
  | _, [], _, _, _, h => by cases h; rfl
  | _, _ :: _, [], _, _, h => by cases h; rfl
  | _, _ :: _, _ :: _, _, _, h => by
    obtain ⟨_, _, _, _, -, h2, -, rfl⟩ := sampleRows_ok_cons h
    simp only [List.length_cons, sampleRows_length h2]

/-- Where no context overflows, the fan-out ends: an overflow is all that can stop it (R221). -/
theorem sampleRows_ok_of_room {l : Level} {d : Duration} {p : Nat} {rom : Rom} {cs : List DecCtx}
    (hroom : ∀ c ∈ cs, l = c.lastLevel ∨ c.timingsCnt < 6) : ∃ m cs', sampleRows l d p rom cs = .ok (m, cs') := by
  cases h : sampleRows l d p rom cs with
  | ok res => exact ⟨res.1, res.2, rfl⟩
  | error cause =>
    obtain ⟨-, c, hc, hlevel, hfull⟩ := sampleRows_error h
    obtain heq | hlt := hroom c hc
    · exact absurd heq hlevel
    · omega

/-! ## The message of a sample (R192, R194) -/

/-- `FirstMessage l d p rom cs msg`: of the rows of `rom`, whose pids begin at `p`, the first one whose context produces a
message on the sample produces `msg`. -/
def FirstMessage (l : Level) (d : Duration) (p : Nat) (rom : Rom) (cs : List DecCtx) (msg : Message) : Prop :=
  ∃ q, (∃ r c c', rom[q]? = some r ∧ cs[q]? = some c ∧ decodeStep r (pidOf (p + q)) c l d = .ok (some msg, c'))
    ∧ ∀ j, j < q → ∀ r c, rom[j]? = some r → cs[j]? = some c → ∃ c', decodeStep r (pidOf (p + j)) c l d = .ok (none, c')

section
variable {l : Level} {d : Duration} {p : Nat} {r : RomRow} {rest : Rom} {c c1 : DecCtx} {cs : List DecCtx} {msg : Message}

/-- A row that produces a message is the first one to do so. -/
theorem firstMessage_cons_some {m1 : Message} (h : decodeStep r (pidOf p) c l d = .ok (some m1, c1)) :
    FirstMessage l d p (r :: rest) (c :: cs) msg ↔ m1 = msg := by
  constructor
  · rintro ⟨_ | q, ⟨r', c', c'', hr, hc, hmsg⟩, hbefore⟩
    · cases hr
      cases hc
      cases h.symm.trans hmsg
      rfl
    · obtain ⟨b, hb⟩ := hbefore 0 q.succ_pos r c rfl rfl
      cases h.symm.trans hb
  · rintro rfl
    exact ⟨0, ⟨r, c, c1, rfl, rfl, h⟩, nofun⟩

/-- A row that produces none leaves the message to the rows after it. -/
theorem firstMessage_cons_none (h : decodeStep r (pidOf p) c l d = .ok (none, c1)) :
    FirstMessage l d p (r :: rest) (c :: cs) msg ↔ FirstMessage l d (p + 1) rest cs msg := by
  have hshift (q : Nat) : p + 1 + q = p + (q + 1) := by omega
  simp only [FirstMessage, hshift]
  constructor
  · rintro ⟨_ | q, ⟨r', c', c'', hr, hc, hmsg⟩, hbefore⟩
    · cases hr
      cases hc
      cases h.symm.trans hmsg
    · exact ⟨q, ⟨r', c', c'', hr, hc, hmsg⟩, fun j hj => hbefore (j + 1) (Nat.succ_lt_succ hj)⟩
  · rintro ⟨q, hmsg, hbefore⟩
    refine ⟨q + 1, hmsg, ?_⟩
    rintro (_ | j) hj r' c' hr hc
    · cases hr
      cases hc
      exact ⟨c1, h⟩
    · exact hbefore j (Nat.lt_of_succ_lt_succ hj) r' c' hr hc

end

/-- The fan-out answers the message of the first row that produces one (R192, R194). -/
theorem sampleRows_message {l : Level} {d : Duration} {msg : Message} : ∀ {p : Nat} {rom : Rom} {cs cs' : List DecCtx}
    {m : Option Message}, sampleRows l d p rom cs = .ok (m, cs') → (m = some msg ↔ FirstMessage l d p rom cs msg)
  | _, [], _, _, _, h => by
    cases h
    simp [FirstMessage]
  | _, _ :: _, [], _, _, h => by
    cases h
    simp [FirstMessage]
  | _, _ :: _, _ :: _, _, _, h => by
    obtain ⟨m1, c1, m2, cs2, h1, h2, rfl, rfl⟩ := sampleRows_ok_cons h
    cases m1 with
    | some m1 => rw [firstMessage_cons_some h1, Option.some_or, Option.some.injEq]
    | none => rw [firstMessage_cons_none h1, Option.none_or, sampleRows_message h2]

/-! ## The encoder context after a load (R149, R170) -/

/-- The payload register after a load, layout by layout (R149 to R153). -/
theorem EncCtx.loaded_data (e : EncCtx) (r : RomRow) (msg : Message) :
    (e.loaded r msg).data = match r.layout with
      | .nec => (packNec msg.address msg.command).toNat
      | .necExt => (packNecExt msg.address msg.command).toNat
      | .samsung32 => (packSamsung32 msg.address msg.command).toNat
      | .rc6 => (packRc6 e.toggle msg.address msg.command).toNat
      | .ext k => Config.extPack k msg.address msg.command % 2 ^ r.databitLen := by
  simp only [EncCtx.loaded, packInto]
  cases r.layout <;> rfl

/-- A load inverts the toggle for the RC6 layout and keeps it for every other (R153). -/
theorem EncCtx.loaded_toggle (e : EncCtx) (r : RomRow) (msg : Message) :
    (e.loaded r msg).toggle = if r.layout = .rc6 then !e.toggle else e.toggle := by
  obtain ⟨-, hkeep, hflip⟩ := packInto_eq r e msg
  split_ifs with hl
  · exact hflip hl
  · exact hkeep hl

/-- A load starts from the toggle of the bound context, 0 after a rebind (R197). -/
theorem bindFor_toggle (p : Pid) (s : State) :
    (bindFor p s).enc.toggle = if s.encBound = p then s.enc.toggle else false := by
  rw [bindFor_enc]
  split <;> rfl

end Sys2Proof.Machine

namespace Sys2Proof.Proofs

open Sys2Proof Sys2Proof.Machine

/-- Settles O22: a fresh context of R191 is the reset value that the command gives to each row. -/
theorem decResetRestoresEveryContext : Obligations.DecResetRestoresEveryContext := by
  intro s fresh hs hstate htimings hdata hcnt hswitch hlevel hmessage htoggle
  obtain rfl := DecCtx.eq_reset hstate htimings hdata hcnt hswitch hlevel hmessage htoggle
  rw [← List.map_const']
  exact exec_of_served hs .decReset

/-- Settles O23: without an overflow the fan-out steps every row, and keeps the first message of the table's order. -/
theorem decSampleStepsEveryContext : Obligations.DecSampleStepsEveryContext := by
  intro s l d hs hlen hroom
  obtain ⟨m, dec, hrows⟩ := sampleRows_ok_of_room (d := d) (p := 0) (rom := s.rom) hroom
  refine ⟨m, _, exec_of_served hs (.sampled hrows), ?_, (sampleRows_length hrows).trans hlen, fun p r c hr hc => ?_, fun msg => ?_⟩
  · cases m <;> rfl
  · obtain ⟨-, -, hstep⟩ := sampleRows_getElem? hrows p
    rw [Nat.zero_add] at hstep
    exact hstep r c hr hc
  · rw [sampleRows_message hrows]
    simp only [FirstMessage, Nat.zero_add]
    constructor
    · rintro ⟨p, ⟨r, c, c', hr, hc, hmsg⟩, hbefore⟩
      exact ⟨p, r, c, c', hr, hc, hmsg, fun q r' b hq => hbefore q hq r' b⟩
    · rintro ⟨p, r, c, c', hr, hc, hmsg, hbefore⟩
      exact ⟨p, ⟨r, c, c', hr, hc, hmsg⟩, fun q hq r' b => hbefore q r' b hq⟩

/-- Settles O44: the message is packed over the context that is bound, whose toggle the rebind has cleared or kept. -/
theorem encLoadBindsAndPacks : Obligations.EncLoadBindsAndPacks := by
  intro s r p address command rep hs hr
  refine ⟨_, exec_encLoad hs hr address command rep, rfl, rfl, rfl, fun tog htog => ?_⟩
  rw [← bindFor_toggle] at htog
  subst htog
  rw [EncCtx.loaded_data, EncCtx.loaded_toggle]
  cases r.layout <;> exact ⟨rfl, rfl⟩

/-- Settles O46: an encoder in its range has a timing to give, and the engine writes its counters and its state alone. -/
theorem encStepEmitsOneTiming : Obligations.EncStepEmitsOneTiming := by
  intro s r hs hbound hr hinv
  obtain ⟨hrom, -⟩ := (serving_iff s).1 hs
  obtain ⟨e, t, hstep, -⟩ := encodeStep_keeps (romOk_row hrom hr) hinv
  have hkept := encodeStep_keeps_data hstep
  exact ⟨e, t, hstep, (congrArg EncCtx.data hkept :), (congrArg EncCtx.toggle hkept :),
    exec_of_served hs (.stepped hbound hr hstep)⟩

end Sys2Proof.Proofs
end

section
/-! PROOFS. The rules of 45_system_and_info.md: what the commands that only read answer (R210 to R212). `FIND_NAME` rests on
the names of a ROM (R45 (f)): a row's name can be read back from its packed words, so no two rows have the same words. -/

namespace Sys2Proof.Machine

/-! ## The answers of `NOP` and `INFO` (R210, R211) -/

/-- A command that only reads gives its answer and writes nothing else. -/
theorem exec_read {s : State} (hs : s.serving = true) {i : Instr} {a : Response} (ha : readAnswer s i = some a) :
    exec i s = .next (s.respond a) :=
  exec_of_served hs (.read ha)

section
variable {s : State} {pid : Pid} {sel : Byte}

/-- A legal selector passes dispatch, and the pid alone decides whether there is a row to read (R73, R211). -/
theorem readAnswer_info (hsel : sel.toNat ≤ 4) : readAnswer s (.info pid sel)
    = some (((romRow s pid).map (infoResponse · sel)).getD { status := .errBadPid }) := by
  have hlegal : ¬ maxSelector < sel := fun h => Nat.not_lt.2 hsel (BitVec.lt_def.1 h)
  rw [readAnswer, if_neg hlegal]

theorem exec_info_registered (hs : s.serving = true) (hsel : sel.toNat ≤ 4) {r : RomRow} (hr : romRow s pid = some r) :
    exec (.info pid sel) s = .next (s.respond (infoResponse r sel)) :=
  exec_read hs (by rw [readAnswer_info hsel, hr, Option.map_some, Option.getD_some])

theorem exec_info_unregistered (hs : s.serving = true) (hsel : sel.toNat ≤ 4) (hr : romRow s pid = none) :
    exec (.info pid sel) s = .next (s.respond { status := .errBadPid }) :=
  exec_read hs (by rw [readAnswer_info hsel, hr, Option.map_none, Option.getD_none])

end

/-! ## A row's name is read back from its packed words (R45 (f), R48 (b)) -/

/-- Equal packed names agree in each of the 12 characters that the words hold. -/
theorem nameByte_eq_of_packName_eq {a b : List Byte} (h : packName a = packName b) {k : Nat} (hk : k < 12) :
    nameByte a k = nameByte b k := by
  simp only [packName, Prod.mk.injEq] at h
  obtain ⟨h0, h1, h2⟩ := h
  have hword : nameWord a (k / 4) = nameWord b (k / 4) := by
    obtain hw | hw | hw : k / 4 = 0 ∨ k / 4 = 1 ∨ k / 4 = 2 := by omega
    all_goals rw [hw]; assumption
  have hj : k % 4 < 4 := Nat.mod_lt k (by decide)
  rw [← Nat.div_add_mod k 4, ← nameWord_byte a (k / 4) hj, hword, nameWord_byte b (k / 4) hj]

/-- The first zero byte ends a name that holds none itself: what lies at place `k` follows from byte `k`. -/
theorem getElem?_eq_nameByte {a : List Byte} (ha : ∀ c ∈ a, c ≠ 0#8) (k : Nat) :
    a[k]? = if nameByte a k = 0#8 then none else some (nameByte a k) := by
  rw [nameByte_eq]
  by_cases hk : k < a.length
  · rw [dif_pos hk, if_neg (ha _ (List.getElem_mem hk)), List.getElem?_eq_getElem hk]
  · rw [dif_neg hk, if_pos rfl, List.getElem?_eq_none (Nat.not_lt.1 hk)]

/-- Rows with one packed name have one name: it is short enough to be packed whole. -/
theorem name_eq_of_packName_eq {q r : RomRow} (hq : rowOk q = true) (hr : rowOk r = true)
    (h : packName q.name = packName r.name) : q.name = r.name := by
  obtain ⟨-, hqlen, hqchars⟩ := rowOk_name hq
  obtain ⟨-, hrlen, hrchars⟩ := rowOk_name hr
  apply List.ext_getElem?
  intro k
  by_cases hk : k < 12
  · rw [getElem?_eq_nameByte fun c hc => (hqchars c hc).1, getElem?_eq_nameByte fun c hc => (hrchars c hc).1,
      nameByte_eq_of_packName_eq h hk]
  · rw [List.getElem?_eq_none (by omega), List.getElem?_eq_none (by omega)]

/-- A packed name names one row of a ROM that can be built. -/
theorem romOk_packName_inj {rom : Rom} (h : romOk rom = true) {p q : Nat} {a b : RomRow} (ha : rom[p]? = some a)
    (hb : rom[q]? = some b) (hab : packName a.name = packName b.name) : p = q := by
  obtain ⟨-, -, hdistinct, -⟩ := (romOk_iff rom).1 h
  exact namesDistinct_inj hdistinct ha hb (name_eq_of_packName_eq (romOk_row h ha) (romOk_row h hb) hab)

/-! ## The search of `FIND_NAME` (R212) -/

theorem findRow_of_absent {w : Word × Word × Word} : ∀ {rom : Rom} (p : Nat), (∀ r ∈ rom, w ≠ packName r.name) →
    findRow w p rom = pidNone
  | [], _, _ => rfl
  | r :: rest, p, h => by
    obtain ⟨hr, hrest⟩ := List.forall_mem_cons.1 h
    rw [findRow, if_neg hr, findRow_of_absent (p + 1) hrest]

/-- The search, begun at pid `p`, ends at the first row that has the name. -/
theorem findRow_of_first {w : Word × Word × Word} : ∀ {rom : Rom} (p : Nat) {q : Nat} {r : RomRow}, rom[q]? = some r →
    w = packName r.name → (∀ j a, j < q → rom[j]? = some a → w ≠ packName a.name) → findRow w p rom = pidOf (p + q)
  | [], _, _, _, hr, _, _ => by cases hr
  | _ :: _, _, 0, _, hr, hw, _ => by
    cases hr
    rw [findRow, if_pos hw, Nat.add_zero]
  | a :: rest, p, q + 1, r, hr, hw, hbefore => by
    have hrest : findRow w (p + 1) rest = pidOf (p + 1 + q) :=
      findRow_of_first (p + 1) hr hw fun j b hj hb => hbefore (j + 1) b (Nat.succ_lt_succ hj) hb
    rw [findRow, if_neg (hbefore 0 a q.succ_pos rfl), hrest, Nat.add_assoc, Nat.add_comm 1 q]

/-- In a ROM that can be built no row before `q` has the packed name of row `q`, so the search ends there. -/
theorem findRow_packName {rom : Rom} (h : romOk rom = true) {q : Nat} {r : RomRow} (hr : rom[q]? = some r) :
    findRow (packName r.name) 0 rom = pidOf q := by
  rw [findRow_of_first 0 hr rfl fun j a hj ha hw => hj.ne (romOk_packName_inj h ha hr hw.symm), Nat.zero_add]

end Sys2Proof.Machine

namespace Sys2Proof.Proofs

open Sys2Proof Sys2Proof.Machine

/-- Settles O18: each selector is a branch of `infoResponse`, and a pid past the last row has no row. -/
theorem infoReadsTheRom : Obligations.InfoReadsTheRom := by
  refine fun s pid hs => ⟨fun r hr => ?_, fun sel hsel hpid => ?_⟩
  · have hread (sel : Byte) (hsel : sel.toNat ≤ 4) : exec (.info pid sel) s = .next (s.respond (infoResponse r sel)) :=
      exec_info_registered hs hsel hr
    exact ⟨hread 0#8 (by decide), hread 1#8 (by decide), hread 2#8 (by decide), hread 3#8 (by decide),
      hread 4#8 (by decide)⟩
  · exact exec_info_unregistered hs hsel (List.getElem?_eq_none hpid)

/-- Settles O20: the search ends at row `p`, the only row with its packed name, or runs past the last row. -/
theorem findNameFindsTheRow : Obligations.FindNameFindsTheRow := by
  intro s n1 n2 n3 hs
  obtain ⟨hrom, -⟩ := (serving_iff s).1 hs
  refine ⟨fun p r hr hname => ?_, fun habsent => ?_⟩
  · have hfound : findRow (n1, n2, n3) 0 s.rom = pidOf p := hname ▸ findRow_packName hrom hr
    exact exec_read hs (by rw [readAnswer, hfound])
  · have hnone : findRow (n1, n2, n3) 0 s.rom = 0xFF#8 := findRow_of_absent 0 habsent
    exact exec_read hs (by rw [readAnswer, hnone])

/-- Settles O17: by the value of `FAULT`, the fault response of dispatch or the answer of `NOP`'s own rule. -/
theorem nopReadsTheFaultStatus : Obligations.NopReadsTheFaultStatus := by
  intro s hrom
  cases hf : s.fault with
  | true => exact exec_faulted hrom hf .nop
  | false => exact exec_read ((serving_iff s).2 ⟨hrom, hf⟩) rfl

end Sys2Proof.Proofs
end

section
/-! PROOFS. The rules of 60_exceptions.md: which commands raise a fault, from what, and what a fault writes (R220 to R224);
what clears it (R226). -/

namespace Sys2Proof.Machine

/-! ## The causes of the fault sites (R220 to R223) -/

/-- `Raises s i cause`: in the block `s` the command `i` meets the condition of R220 for `cause`. No command meets one for
`PROTOCOL_MISMATCH` (R223). -/
inductive Raises (s : State) : Instr → FaultCause → Prop where
  | unknownProtocol {p : Pid} {address command : Word} {rep : Bool} : romRow s p = none →
      Raises s (.encLoad p address command rep) .unknownProtocol
  | timingOverflow {l : Level} {d : Duration} {c : DecCtx} : c ∈ s.dec → l ≠ c.lastLevel → 6 ≤ c.timingsCnt →
      Raises s (.decSample l d) .timingOverflow
  | encoderUnbound : s.encBound = pidNone → Raises s .encStep .encoderUnbound

/-- The commands that can raise a fault, and the code that each leaves in `FAULT_CAUSE` (R220). -/
theorem Raises.code {s : State} {i : Instr} {cause : FaultCause} (h : Raises s i cause) :
    (∃ protocol address command rep, i = .encLoad protocol address command rep ∧ cause.code = 0x01#8)
      ∨ (∃ level duration, i = .decSample level duration ∧ cause.code = 0x02#8)
      ∨ (i = .encStep ∧ cause.code = 0x03#8) := by
  cases h with
  | unknownProtocol => exact .inl ⟨_, _, _, _, rfl, rfl⟩
  | timingOverflow => exact .inr (.inl ⟨_, _, rfl, rfl⟩)
  | encoderUnbound => exact .inr (.inr ⟨rfl, rfl⟩)

/-- An unregistered pid is one past the last row (R42, R52). -/
theorem romRow_eq_none_iff (s : State) (p : Pid) : romRow s p = none ↔ s.rom.length ≤ p.toNat :=
  List.getElem?_eq_none_iff

/-- `PID_NONE` is never registered: a ROM has at most 255 rows (R42). -/
theorem romRow_pidNone {s : State} (h : romOk s.rom = true) : romRow s pidNone = none := by
  obtain ⟨-, -, -, hlen⟩ := (romOk_iff s.rom).1 h
  exact (romRow_eq_none_iff s pidNone).2 hlen

/-! ## A faulting command (R224) -/

/-- If one context overflows, so does the fan-out: an answer would hold a `DecodeStep` of every row's context (R194). -/
theorem sampleRows_overflow {l : Level} {d : Duration} {p : Nat} {rom : Rom} {cs : List DecCtx} {c : DecCtx}
    (hlen : cs.length = rom.length) (hc : c ∈ cs) (hlevel : l ≠ c.lastLevel) (hfull : 6 ≤ c.timingsCnt) :
    sampleRows l d p rom cs = .error .timingOverflow := by
  cases hrows : sampleRows l d p rom cs with
  | error cause => rw [(sampleRows_error hrows).1]
  | ok res =>
    obtain ⟨q, hq, rfl⟩ := List.getElem_of_mem hc
    have hrow : rom[q]? = some rom[q] := List.getElem?_eq_getElem (hlen ▸ hq)
    obtain ⟨-, -, hstep⟩ := sampleRows_getElem? hrows q
    obtain ⟨m, c', hok, -⟩ := hstep _ _ hrow (List.getElem?_eq_getElem hq)
    cases hok.symm.trans ((decodeStep_error_iff _ _ _ l d _).2 ⟨hlevel, hfull, rfl⟩)

/-- A command that meets a fault's condition writes the fault registers and nothing else (R224). -/
theorem exec_of_raises {s : State} {i : Instr} {cause : FaultCause} (hs : s.serving = true)
    (hlen : s.dec.length = s.rom.length) (h : Raises s i cause) : exec i s = .next (s.faultedBy cause) := by
  cases h with
  | unknownProtocol hr => exact exec_of_served hs (.loadFault hr)
  | timingOverflow hc hlevel hfull => exact exec_of_served hs (.sampleFault (sampleRows_overflow hlen hc hlevel hfull))
  | encoderUnbound hb => exact exec_of_served hs (.stepFault hb)

/-- A command that leaves `FAULT` at 1 where it was 0 met a fault's condition, and wrote the fault registers alone. -/
theorem raises_of_exec {s t : State} {i : Instr} (hx : exec i s = .next t) (hf : s.fault = false) (ht : t.fault = true) :
    ∃ cause, Raises s i cause ∧ t = s.faultedBy cause := by
  obtain ⟨-, hf', -⟩ | ⟨-, hv⟩ := exec_next hx
  · cases hf.symm.trans hf'
  · cases hv with
    | read | decReset | sampled | loaded | stepped => cases hf.symm.trans ht
    | sampleFault hr =>
      obtain ⟨rfl, c, hc, hlevel, hfull⟩ := sampleRows_error hr
      exact ⟨_, .timingOverflow hc hlevel hfull, rfl⟩
    | loadFault hr => exact ⟨_, .unknownProtocol hr, rfl⟩
    | stepFault hb => exact ⟨_, .encoderUnbound hb, rfl⟩

/-- A frame, legal or not, does not clear `FAULT` (R226). -/
theorem fault_of_takeFrame {f : Frame} {s t : State} (h : takeFrame f s = .next t) (ht : t.fault = false) :
    s.fault = false := by
  obtain ⟨i, hx⟩ | ⟨a, rfl⟩ := takeFrame_next h
  · exact fault_of_exec hx ht
  · exact ht

end Sys2Proof.Machine

namespace Sys2Proof.Proofs

open Sys2Proof Sys2Proof.Machine

/-- Settles O11: an idle step keeps the state, and no frame clears `FAULT`. -/
theorem onlyHardwareResetClearsFault : Obligations.OnlyHardwareResetClearsFault := by
  intro s t hx hs ht
  cases hp : s.port with
  | nil =>
    rw [step_idle hp] at hx
    cases hx
    cases hs.symm.trans ht
  | cons event rest =>
    cases event with
    | hardwareReset => exact ⟨rest, rfl⟩
    | command f =>
      rw [step_command hp] at hx
      cases hs.symm.trans (fault_of_takeFrame hx ht :)

/-- Settles O12: a fault raised has one of the conditions of `Raises`, and each of them raises its fault. -/
theorem whenCommandsFault : Obligations.WhenCommandsFault := by
  intro i s hs hlen
  obtain ⟨-, hf⟩ := (serving_iff s).1 hs
  constructor
  · rintro ⟨t, hx, ht⟩
    obtain ⟨cause, hraises, -⟩ := raises_of_exec hx hf ht
    cases hraises with
    | unknownProtocol hr => exact .inl ⟨_, _, _, _, rfl, (romRow_eq_none_iff s _).1 hr⟩
    | timingOverflow hc hlevel hfull => exact .inr (.inr ⟨_, _, _, rfl, hc, hlevel, hfull⟩)
    | encoderUnbound hb => exact .inr (.inl ⟨rfl, hb⟩)
  · intro h
    have hraises : ∃ cause, Raises s i cause := by
      obtain ⟨p, address, command, rep, rfl, hp⟩ | ⟨rfl, hb⟩ | ⟨l, d, c, rfl, hc, hlevel, hfull⟩ := h
      · exact ⟨_, .unknownProtocol ((romRow_eq_none_iff s p).2 hp)⟩
      · exact ⟨_, .encoderUnbound hb⟩
      · exact ⟨_, .timingOverflow hc hlevel hfull⟩
    obtain ⟨cause, hcause⟩ := hraises
    exact ⟨s.faultedBy cause, exec_of_raises hs hlen hcause, rfl⟩

/-- Settles O13: what a fault leaves is the state before with the fault registers and the response written. -/
theorem faultsArePrecise : Obligations.FaultsArePrecise := by
  intro i s t hx hf ht
  obtain ⟨cause, hraises, rfl⟩ := raises_of_exec hx hf ht
  exact ⟨rfl, hraises.code⟩

/-- Settles O16: one full context that alternates its level is the condition of `TIMING_OVERFLOW`. -/
theorem decSampleOverflowFaults : Obligations.DecSampleOverflowFaults := by
  intro s level duration p c hs hlen hc hlevel hfull
  exact exec_of_raises hs hlen (.timingOverflow (List.mem_of_getElem? hc) hlevel hfull)

/-- Settles O14: the pid has no row, `PID_NONE` because no ROM is that long. -/
theorem encLoadOfUnknownProtocolFaults : Obligations.EncLoadOfUnknownProtocolFaults := by
  intro s protocol address command rep hs hp
  obtain ⟨hrom, -⟩ := (serving_iff s).1 hs
  have hr : romRow s protocol = none := by
    obtain hlen | rfl := hp
    · exact (romRow_eq_none_iff s protocol).2 hlen
    · exact romRow_pidNone hrom
  exact exec_of_served hs (.loadFault hr)

/-- Settles O15: an unbound encoder is the condition of `ENCODER_UNBOUND`. -/
theorem encStepWhileUnboundFaults : Obligations.EncStepWhileUnboundFaults :=
  fun _ hs hb => exec_of_served hs (.stepFault hb)

end Sys2Proof.Proofs
end
